-- ==== Sys2Proof/Word.lean ====
section
/-! DEFINITION. The word types of VLCCORE (00_scope.md R9): bytes, 32-bit registers, 12-bit symbols and 24-bit codewords. -/

namespace Sys2Proof

/-- A byte of MEM or SHM. -/
abbrev Byte := BitVec 8

/-- A VLCCORE register: "Every VLCCORE register is 32 bits wide" (R9). -/
abbrev Word := BitVec 32

/-- A 12-bit block-code input unit (R9, R17). -/
abbrev Sym := BitVec 12

/-- A 24-bit codeword of the block code (R9, R16). -/
abbrev Codeword := BitVec 24

/-- `n mod 2^32` as a register value (R10: pseudocode arithmetic is unbounded unless written mod 2^32). -/
def wrap32 (n : Nat) : Word := BitVec.ofNat 32 n

end Sys2Proof
end

