-- ==== Sys2Proof/Config.lean ====
section
/-! DEFINITION. The parameters of 00_scope.md R8, and the free values the spec leaves OPEN. -/

namespace Sys2Proof

/-- Direction of the queue (R8, 20_memory.md R57): `tx`, the PRU reads DATA; `rx`, the PRU may also write it. -/
inductive QDir where
  | tx
  | rx
deriving DecidableEq, Repr, Inhabited

/-- The parameters of R8 that are plain data, "each is fixed for the life of the block". They are a field of `State`
because a model "takes each as an argument": a statement about every state is one about every value of these.
`FRAME` and `QF` are derived from `n`; `DEC_TIE` is `Config.decTie`. -/
structure Params where
  /-- `N`, frame payload size in bytes. -/
  n : Nat
  /-- `CAP`, data-region capacity in bytes. -/
  cap : Nat
  /-- `BIAS`, hardware cursor offset bias. -/
  bias : Nat
  /-- `MEM_SIZE`, size in bytes of the buffer memory. -/
  memSize : Nat
  /-- `GEN` as the encoder table (10_state.md R33): row `i` is the codeword of the symbol whose only 1 bit is
  bit `11 - i`. A linear map is its rows (R12 (a), log 4). -/
  gen : Vector Codeword 12
  /-- `M00`, the bit MDEC decodes from the pair `00`. -/
  m00 : Bool
  /-- `M11`, the bit MDEC decodes from the pair `11`. -/
  m11 : Bool
  /-- `QDIR`. -/
  qdir : QDir
deriving DecidableEq, Repr

/-- `FRAME`, the framer's frame size in bytes (R8). -/
def Params.frame (p : Params) : Nat := p.n + 2

/-- `QF`, the queue frame size in bytes (R8). -/
def Params.qf (p : Params) : Nat := 2 * (p.n + 2)

namespace Config

/-- `DEC_TIE` (00_scope.md R13), OPEN: which member of the list of nearest codewords DEC takes, as an index that
`Codec.pickNearest` reduces modulo the list's length. Free value, log 3. -/
opaque decTie : Codeword → Nat

/-- `M00` at `State.reset` (R8), OPEN. Free value, log 2. -/
opaque m00 : Bool

/-- `M11` at `State.reset` (R8), OPEN. Free value, log 2. -/
opaque m11 : Bool

/-- `QDIR` at `State.reset` (R8), OPEN. Free value, log 2. -/
opaque qdir : QDir

/-- The rows `BROW` of 40_block_code.md R101 with the symbol bit in front: `GEN_REF` of each one-bit symbol, the
reference instantiation "for test vectors only". DESIGN CHOICE at `State.reset`, log 1. -/
def referenceRows : Vector Codeword 12 :=
  #v[0x800DC5#24, 0x400B8B#24, 0x200717#24, 0x100E2D#24, 0x080C5B#24, 0x0408B7#24,
     0x02016F#24, 0x0102DD#24, 0x0085B9#24, 0x004B71#24, 0x0026E3#24, 0x001FFE#24]

/-- The parameters at `State.reset`: the spec's defaults for `N` and `BIAS`, and the configuration of
95_test_vectors.md for `CAP`, `MEM_SIZE` and `GEN`. DESIGN CHOICE, log 1 and log 2. -/
def parameters : Params :=
  { n := 43, cap := 270, bias := 5, memSize := 0x1000, gen := referenceRows, m00 := m00, m11 := m11, qdir := qdir }

end Config
end Sys2Proof
end

