-- ==== Sys2Proof/Machine/Codec.lean ====
section
/-! DEFINITION. The pure functions of the block code and the line code on bytes and words: bit numbering (00_scope.md
R11), byte order (R14), GEN, NEAREST and DECW (R12, R13, 40_block_code.md R104), SPLIT and JOIN (R100), PAIR and UNPAIR
(41_line_code.md R120, R122). No state. -/

namespace Sys2Proof.Codec

/-- `ceil8(b) = (b + 7) div 8` (00_scope.md R10). -/
def ceil8 (b : Nat) : Nat := (b + 7) / 8

/-- `LE(bytes)` (R14): the least significant byte first. -/
def le : List Byte → Nat
  | [] => 0
  | b :: bs => b.toNat + 256 * le bs

/-- `toLE_n(v)` (R14): the `n` bytes with `le = v mod 2^(8n)`. -/
def toLE : Nat → Nat → List Byte
  | 0, _ => []
  | n + 1, v => BitVec.ofNat 8 v :: toLE n (v / 256)

/-- `BE(bytes)` (R14): the most significant byte first. -/
def be (bs : List Byte) : Nat := le bs.reverse

/-- `toBE_n(v)` (R14). -/
def toBE (n v : Nat) : List Byte := (toLE n v).reverse

/-- Bit `j` of a byte counted from its most significant bit (R11: bit index `i` is bit `7 - (i mod 8)`). -/
def bitOf (b : Byte) (j : Nat) : Bool := b.getLsbD (7 - j)

/-- `b` with the bit `j` counted from its most significant bit set to `v` (R11). -/
def withBit (b : Byte) (j : Nat) (v : Bool) : Byte :=
  if v then b ||| (1#8 <<< (7 - j)) else b &&& ~~~(1#8 <<< (7 - j))

/-- The number of 1 bits. -/
def popcount {w : Nat} (v : BitVec w) : Nat := (List.range w).countP fun i => v.getLsbD i

/-- `dist(a, b)` (R13): the Hamming distance. -/
def dist (a b : Codeword) : Nat := popcount (a ^^^ b)

/-- Row `i` of the encoder table. -/
def genRow (p : Params) (i : Nat) : Codeword := p.gen.toList.getD i 0#24

/-- `GEN(s)` (R12): the XOR of the rows whose symbol bit is 1, row `i` standing for bit `11 - i` (the order of R101). -/
def gen (p : Params) (s : Sym) : Codeword :=
  (List.range 12).foldl (fun c i => if s.getLsbD (11 - i) then c ^^^ genRow p i else c) 0#24

/-- The code `C` (R12), the codewords of the symbols 0 to 4095 in order. -/
def code (p : Params) : List Codeword := (List.range 4096).map fun n => gen p (BitVec.ofNat 12 n)

/-- The least of `m` and the distances of `r` from the words of a list. -/
def leastDist (r : Codeword) : Nat → List Codeword → Nat
  | m, [] => m
  | m, c :: cs => if dist r c < m then leastDist r (dist r c) cs else leastDist r m cs

/-- The least distance of `r` from a codeword (R13); no two words are further apart than 24. -/
def minDist (p : Params) (r : Codeword) : Nat := leastDist r 24 (code p)

/-- The codewords at distance `d` from `r`. -/
def atDist (p : Params) (r : Codeword) (d : Nat) : List Codeword := (code p).filter fun c => dist r c == d

/-- `NEAREST(r)` (R13). -/
def nearest (p : Params) (r : Codeword) : List Codeword := atDist p r (minDist p r)

/-- The codeword DEC takes (R104): the only nearest one, or the one `DEC_TIE` names among several (log 3). -/
def pickNearest (r : Codeword) : List Codeword → Codeword
  | [c] => c
  | cs => cs.getD (Config.decTie r % cs.length) 0#24

/-- `SYM(c)` (R12): the symbol whose codeword is `c` (log 18 for a word that is no codeword). -/
def symOf (p : Params) (c : Codeword) : Sym :=
  BitVec.ofNat 12 (((List.range 4096).find? fun n => gen p (BitVec.ofNat 12 n) == c).getD 0)

/-- `DECW(r)` (R104): the codeword chosen and its distance from `r`. -/
def decw (p : Params) (r : Codeword) : Codeword × Nat :=
  let c := pickNearest r (nearest p r)
  (c, dist r c)

/-- `SPLIT(b0, b1, b2)` (R100). -/
def split (b0 b1 b2 : Byte) : Sym × Sym :=
  (b0 ++ b1.extractLsb' 4 4, b1.extractLsb' 0 4 ++ b2)

/-- `JOIN(s0, s1)` (R100). -/
def join (s0 s1 : Sym) : List Byte :=
  [s0.extractLsb' 4 8, s0.extractLsb' 0 4 ++ s1.extractLsb' 8 4, s1.extractLsb' 0 8]

/-- The 3 bytes of a codeword, "most-significant-bit-first, byte-packed" (R100). -/
def codewordBytes (c : Codeword) : List Byte := toBE 3 c.toNat

/-- The codeword of 3 received bytes (R103). -/
def codewordOf (b0 b1 b2 : Byte) : Codeword := BitVec.ofNat 24 (be [b0, b1, b2])

/-- The loop of ENC (R102) over its input bytes; the length is a multiple of 3 once ENC has checked it. -/
def encodeBytes (p : Params) : List Byte → List Byte
  | b0 :: b1 :: b2 :: rest =>
    codewordBytes (gen p (split b0 b1 b2).1) ++ codewordBytes (gen p (split b0 b1 b2).2) ++ encodeBytes p rest
  | _ => []

/-- The loop of DEC (R103) over its input bytes: the output bytes, and the sum of the distances (`corr`). -/
def decodeBytes (p : Params) : List Byte → List Byte × Nat
  | b0 :: b1 :: b2 :: b3 :: b4 :: b5 :: rest =>
    let d0 := decw p (codewordOf b0 b1 b2)
    let d1 := decw p (codewordOf b3 b4 b5)
    let r := decodeBytes p rest
    (join (symOf p d0.1) (symOf p d1.1) ++ r.1, d0.2 + d1.2 + r.2)
  | _ => ([], 0)

/-- `PAIR` (41_line_code.md R120). -/
def pair (b : Bool) : BitVec 2 := if b then 0b01#2 else 0b10#2

/-- `MBYTE_HI(b)` (R120). -/
def mbyteHi (b : Byte) : Byte :=
  pair (b.getLsbD 7) ++ pair (b.getLsbD 6) ++ pair (b.getLsbD 5) ++ pair (b.getLsbD 4)

/-- `MBYTE_LO(b)` (R120). -/
def mbyteLo (b : Byte) : Byte :=
  pair (b.getLsbD 3) ++ pair (b.getLsbD 2) ++ pair (b.getLsbD 1) ++ pair (b.getLsbD 0)

/-- The loop of MENC (R121). -/
def lineEncode : List Byte → List Byte
  | [] => []
  | b :: rest => mbyteHi b :: mbyteLo b :: lineEncode rest

/-- The bit of `UNPAIR` (R122). -/
def unpairBit (p : Params) (v : BitVec 2) : Bool :=
  match v.toNat with
  | 0 => p.m00
  | 1 => true
  | 2 => false
  | _ => p.m11

/-- The validity of `UNPAIR` (R122): `00` and `11` are the invalid pairs. -/
def pairValid (v : BitVec 2) : Bool := v == 0b01#2 || v == 0b10#2

/-- Pair `j` of a 16-bit group, `v[15 - 2j : 14 - 2j]` (R122). -/
def pairAt (v : BitVec 16) (j : Nat) : BitVec 2 := v.extractLsb' (14 - 2 * j) 2

/-- The byte MDEC decodes from two bytes (R122): bit `7 - j` from pair `j`. -/
def unpairByte (p : Params) (v : BitVec 16) : Byte :=
  (List.range 8).foldl (fun b j => withBit b j (unpairBit p (pairAt v j))) 0#8

/-- The number of invalid pairs in two bytes (R122, R123). -/
def badPairs (v : BitVec 16) : Nat := (List.range 8).countP fun j => !pairValid (pairAt v j)

/-- The loop of MDEC (R122): the output bytes, and the number of invalid pairs (`bad`). -/
def lineDecode (p : Params) : List Byte → List Byte × Nat
  | b0 :: b1 :: rest =>
    let r := lineDecode p rest
    (unpairByte p (b0 ++ b1) :: r.1, badPairs (b0 ++ b1) + r.2)
  | _ => ([], 0)

end Sys2Proof.Codec
end

