-- ==== Sys2Proof/Syntax.lean ====
section
/-! DEFINITION. The commands of VLCCORE (spec/opcode_table.json), and the actions of the host and of the PRU. -/

namespace Sys2Proof

/-- The commands, one constructor per row of spec/opcode_table.json (30_encoding.md R72). A command has no operand
field: "every operand is the whole 32-bit value of an argument register" (R71). -/
inductive Instr where
  | enc
  | dec
  | menc
  | mdec
  | pkt
  | depkt
  | push
  | pop
  | peek
  | prucur
  | getlen
  | setlen
  | bget
  | bset
deriving DecidableEq, Repr

/-- One step of the PRU (20_memory.md R57). `writeByte` also holds the writes R51 and R57 say it never makes, so that
the model can refuse them by name (log 11). -/
inductive PruAct where
  /-- R57 (a): write `HWCUR` with any 32-bit value, as one aligned 32-bit write (R51). -/
  | writeCur (v : Word)
  /-- R57 (b): read the SHM byte at an offset. -/
  | readByte (off : Nat)
  /-- R57 (c): write the SHM byte at an offset; allowed in DATA when `QDIR` = RX. -/
  | writeByte (off : Nat) (b : Byte)
deriving DecidableEq, Repr

/-- What may happen inside a command in progress (R54, R57, R60, R61): its own SHM access number `k` takes place now,
or the PRU makes a step (log 8). -/
inductive MidStep where
  | core (k : Nat)
  | pru (a : PruAct)
deriving DecidableEq, Repr

/-- One action of the world outside the core, in the order `State.inputs` holds them (10_state.md R20, 30_encoding.md
R78, 70_reset_and_hazards.md R230; log 7). -/
inductive Input where
  /-- A host write of `width` bytes at `off` of the register port. At `CMD` it starts a command, inside which the
  steps `mid` fall. -/
  | hostWrite (off width : Nat) (v : Word) (mid : List MidStep)
  /-- A host read of `width` bytes at `off` of the register port (`RD`). -/
  | hostRead (off width : Nat)
  /-- The host writes bytes to MEM (`WMEM`). -/
  | memWrite (addr : Nat) (bytes : List Byte)
  /-- The host reads `n` bytes of MEM (`RMEM`). -/
  | memRead (addr n : Nat)
  /-- The host reads `n` bytes of SHM (20_memory.md R51), in one step (log 6). -/
  | shmRead (off n : Nat)
  /-- A PRU step between host steps (`PRU_WCUR` among them). -/
  | pru (a : PruAct)
  /-- The reset input is asserted with no command in progress (`RESET`). -/
  | reset
  /-- The reset input is asserted while the command of the word `w` is in progress (R230): the steps `mid` fall inside
  the command before the reset; of the MEM bytes it would have written, those at the addresses `memLanded` hold their new
  value, and of the DATA bytes those whose accesses `mid` names (log 10). -/
  | resetDuring (w : Word) (mid : List MidStep) (memLanded : List Nat)
deriving DecidableEq, Repr

end Sys2Proof
end

