-- ==== Sys2Proof/WellFormed.lean ====
section
/-! DEFINITION. Well-formed commands, and well-formed configurations: the constraints of 00_scope.md R8, "checked once
at construction". -/

namespace Sys2Proof

/-- A command carries no operand field (30_encoding.md R71), so every one is well formed. -/
def Instr.wellFormed : Instr → Bool
  | .enc | .dec | .menc | .mdec | .pkt | .depkt | .push | .pop => true
  | .peek | .prucur | .getlen | .setlen | .bget | .bset => true

namespace Params

/-- R8: `N ≥ 1`. -/
def payloadOk (p : Params) : Bool := decide (1 ≤ p.n)

/-- R8: `(N + 2) mod 3 = 0`, so that a frame is a whole number of triads. -/
def triadsOk (p : Params) : Bool := decide ((p.n + 2) % 3 = 0)

/-- R8: `8·N ≤ 65535`, so that every bit length fits the 16-bit header. -/
def headerOk (p : Params) : Bool := decide (8 * p.n ≤ 65535)

/-- R8: `CAP ≥ QF`. -/
def capacityOk (p : Params) : Bool := decide (p.qf ≤ p.cap)

/-- R8: `CAP mod QF = 0`. -/
def slotsOk (p : Params) : Bool := decide (p.cap % p.qf = 0)

/-- R8: `8 + CAP ≤ 2^32`. -/
def regionOk (p : Params) : Bool := decide (8 + p.cap ≤ 2 ^ 32)

/-- R8: `BIAS < 2^32`. -/
def biasOk (p : Params) : Bool := decide (p.bias < 2 ^ 32)

/-- R8: `1 ≤ MEM_SIZE ≤ 2^32`. -/
def memOk (p : Params) : Bool := decide (1 ≤ p.memSize) && decide (p.memSize ≤ 2 ^ 32)

/-- R12 (b) and (c), for a linear `GEN`: the codeword of every symbol but 0 has at least 7 one bits, so distinct symbols
have codewords that differ in at least 7 places, and `GEN` is injective (log 19). -/
def genOk (p : Params) : Bool :=
  (List.range 4096).all fun n => n == 0 || decide (7 ≤ Codec.popcount (Codec.gen p (BitVec.ofNat 12 n)))

/-- Every constraint of R8. -/
def wellFormed (p : Params) : Bool :=
  p.payloadOk && p.triadsOk && p.headerOk && p.capacityOk && p.slotsOk && p.regionOk && p.biasOk && p.memOk && p.genOk

end Params
end Sys2Proof
end

