-- ==== Sys2Proof/Decode.lean ====
section
/-! DEFINITION. Decoding a command word (30_encoding.md R70 to R75), total on every 32-bit word, and the encoder. -/

namespace Sys2Proof

/-- Why a command word is illegal (R75). -/
inductive DecodeError where
  /-- Bits 31:8 (`RSV`) are not 0. -/
  | reservedBits
  /-- `RSV` is 0 and `OPC` is 0x00 or in 0x0F to 0xFF. -/
  | illegalOpcode
deriving DecidableEq, Repr

/-- The field `RSV`, bits 31:8 (R70). -/
def rsvField (w : Word) : BitVec 24 := w.extractLsb' 8 24

/-- The field `OPC`, bits 7:0 (R70). -/
def opcField (w : Word) : Byte := w.extractLsb' 0 8

/-- The opcode map of R72, row by row. -/
def decodeOpcode (opc : Byte) : Except DecodeError Instr :=
  match opc.toNat with
  | 0x01 => .ok .enc
  | 0x02 => .ok .dec
  | 0x03 => .ok .menc
  | 0x04 => .ok .mdec
  | 0x05 => .ok .pkt
  | 0x06 => .ok .depkt
  | 0x07 => .ok .push
  | 0x08 => .ok .pop
  | 0x09 => .ok .peek
  | 0x0A => .ok .prucur
  | 0x0B => .ok .getlen
  | 0x0C => .ok .setlen
  | 0x0D => .ok .bget
  | 0x0E => .ok .bset
  | _ => .error .illegalOpcode

/-- Decoding (R73): "each of the 2^32 words either selects exactly one of the 14 rows of rule R72 ... or is illegal". -/
def decode (w : Word) : Except DecodeError Instr :=
  if rsvField w ≠ 0 then .error .reservedBits else decodeOpcode (opcField w)

/-- The opcode of a command (R72). -/
def Instr.opcode : Instr → Byte
  | .enc => 0x01
  | .dec => 0x02
  | .menc => 0x03
  | .mdec => 0x04
  | .pkt => 0x05
  | .depkt => 0x06
  | .push => 0x07
  | .pop => 0x08
  | .peek => 0x09
  | .prucur => 0x0A
  | .getlen => 0x0B
  | .setlen => 0x0C
  | .bget => 0x0D
  | .bset => 0x0E

/-- The command word of a command (R70): the opcode in bits 7:0, `RSV` = 0. -/
def encode (i : Instr) : Word := i.opcode.setWidth 32

/-- The number that spec/opcode_table.json's bits make, as a command word; none where a bit above bit 31 is set. A word of
the register port is accessed whole and has no byte order (20_memory.md R50, R53), so bit `k` of the table is bit `k` of the
word (log 15). -/
def tableWord (nbits w : Nat) : Option Word :=
  if w % 2 ^ nbits < 2 ^ 32 then some (BitVec.ofNat 32 (w % 2 ^ nbits)) else none

/-- The instruction the decoder reads from a word numbered as spec/opcode_table.json numbers it. -/
def decodeTableWord (nbits w : Nat) : Option Instr :=
  match tableWord nbits w with
  | some word => (decode word).toOption
  | none => none

end Sys2Proof
end

