-- ==== Sys2Proof/Machine/Memory.lean ====
section
/-! DEFINITION. Byte memories as lists of (address, byte) in one canonical form, and accesses wider than a byte
(00_scope.md R14, 20_memory.md R50). MEM and SHM are each one of these. -/

namespace Sys2Proof.Machine

/-- A byte memory: the bytes that differ from `unlisted`, addresses strictly rising. -/
abbrev Memory := List Host.Cell

/-- What a byte that no entry lists reads as. Its value at power-up is unspecified (10_state.md R41); DESIGN CHOICE 0x00,
log 5. -/
def unlisted : Byte := 0x00

namespace Memory

/-- The canonical form: addresses strictly rising, no entry equal to `unlisted`. -/
abbrev wf (m : Memory) : Prop := m.Pairwise (fun x y => x.1 < y.1) ∧ ∀ c ∈ m, c.2 ≠ unlisted

/-- Every listed address is below `n`. -/
abbrev below (m : Memory) (n : Nat) : Prop := ∀ c ∈ m, c.1 < n

/-- The byte at address `a`. -/
def read : Memory → Nat → Byte
  | [], _ => unlisted
  | (k, v) :: m, a => if a = k then v else read m a

/-- The entry `(a, b)` put before the first higher address. -/
def insertAt : Memory → Nat → Byte → Memory
  | [], a, b => [(a, b)]
  | (k, v) :: m, a, b => if a < k then (a, b) :: (k, v) :: m else (k, v) :: insertAt m a b

/-- Write the byte `b` at `a`, keeping the canonical form. -/
def write (m : Memory) (a : Nat) (b : Byte) : Memory :=
  let rest := m.filter fun c => c.1 != a
  if b = unlisted then rest else insertAt rest a b

/-- `MemRead(addr, n)` and `ShmRead(off, n)` (R14). -/
def readBytes (m : Memory) (a n : Nat) : List Byte := (List.range n).map fun k => m.read (a + k)

/-- `MemWrite(addr, n, bytes)` and `ShmWrite(off, n, bytes)` (R14). -/
def writeBytes : Memory → Nat → List Byte → Memory
  | m, _, [] => m
  | m, a, b :: bs => writeBytes (m.write a b) (a + 1) bs

/-- The little-endian 32-bit word at `a` (R50). -/
def readWord (m : Memory) (a : Nat) : Word := wrap32 (Codec.le (m.readBytes a 4))

/-- Write a little-endian 32-bit word at `a` (R50). -/
def writeWord (m : Memory) (a : Nat) (v : Word) : Memory := m.writeBytes a (Codec.toLE 4 v.toNat)

/-- `old` with the bytes at the addresses `landed` taken from `new` (70_reset_and_hazards.md R230). -/
def mix (old new : Memory) (landed : List Nat) : Memory := landed.foldl (fun m a => m.write a (new.read a)) old

end Memory
end Sys2Proof.Machine
end

