-- ==== Sys2Proof/Machine/State.lean ====
section
/-! DEFINITION. The state of VLCCORE (10_state.md R41), the reasons a step can stop, and the state right after reset. -/

namespace Sys2Proof.Machine

/-- Reasons the machine stops with a fault. A contract violation of a command is none of them: it is latched in STATUS
and the machine goes on (60_exceptions.md R202). -/
inductive Fault where
  /-- The host's own MEM access (WMEM, RMEM) touches an address outside `[0, MEM_SIZE)`, which 10_state.md R38 says does
  not exist. Raised by `hostMemWrite` and `hostMemRead`. Safe: the machine stops (log 12). -/
  | hostMemRange
  /-- The host reads an SHM offset outside the `8 + CAP` bytes of 10_state.md R34, which does not exist. Raised by
  `hostShmRead`. Safe: the machine stops (log 6). -/
  | hostShmRange
deriving DecidableEq, Repr

/-- Reasons the model has no meaning for what comes next. Each is safe: the machine stops. -/
inductive Refusal where
  /-- An instruction without a meaning; raised by no arm of `exec`. -/
  | notModelled (mnemonic : String)
  /-- A host access to the register port that is not an aligned 32-bit one (20_memory.md R53, I27). Raised by
  `portRefusal`. -/
  | portAccess
  /-- A host access beyond the 256 bytes the register port decodes (10_state.md R31: "what lies beyond it is the
  platform's"). Raised by `portRefusal` (log 13). -/
  | beyondPort
  /-- A PRU write of part of HWCUR (20_memory.md R51, I28). Raised by `pruRefusal`. -/
  | pruPartialCursor
  /-- A PRU write of LENGTH, which R57 says it never makes. Raised by `pruRefusal`. -/
  | pruWritesLength
  /-- A PRU write of DATA while QDIR = TX, which R57 says it never makes. Raised by `pruRefusal`. -/
  | pruWritesDataTx
  /-- A PRU access outside SHM, the only space it touches (R57). Raised by `pruRefusal`. -/
  | pruOutsideShm
  /-- A configuration that breaks a constraint of 00_scope.md R8 (I29). Raised by `construct`. -/
  | badConfiguration
deriving DecidableEq, Repr

/-- The state of VLCCORE. `mid` to `pruSeen` are the model's own fields (log 7, log 8, log 14). -/
structure State where
  /-- The parameters (R8), the CFG registers (R30) and the encoder table (R33). No step changes it. -/
  cfg : Params
  /-- `A0` (R22). -/
  a0 : Word
  /-- `A1` (R22). -/
  a1 : Word
  /-- `A2` (R22). -/
  a2 : Word
  /-- `A3` (R22). -/
  a3 : Word
  /-- `RESULT` (R23). -/
  result : Word
  /-- `STATUS` (R24). -/
  status : Word
  /-- `FINFO` (R25). -/
  finfo : Word
  /-- `DIAG` (R26). -/
  diag : Word
  /-- `ICUR`, the internal software cursor (R28). -/
  icur : Word
  /-- The buffer memory MEM (R38). -/
  mem : Memory
  /-- The shared region SHM (R34): LENGTH, HWCUR and DATA. -/
  shm : Memory
  /-- What falls inside the command in progress; empty between steps (log 8). -/
  mid : List MidStep
  /-- What the host, the PRU and the reset input do next (log 7). -/
  inputs : List Input
  /-- The word the register port returned to the host's last read (log 14). -/
  hostData : Word
  /-- The bytes the host's last MEM or SHM read returned (log 14). -/
  hostBytes : List Byte
  /-- The SHM bytes the PRU has read, newest first (log 14). -/
  pruSeen : List (Nat × Byte)
deriving DecidableEq, Repr

namespace State

/-- VLCCORE powered up with the parameters `p` and the contents `mem` and `shm` of the memories, and reset (R41,
70_reset_and_hazards.md R231). -/
def powerUp (p : Params) (mem shm : Memory) : State :=
  { cfg := p, a0 := 0, a1 := 0, a2 := 0, a3 := 0, result := 0, status := 0, finfo := 0, diag := 0, icur := 0,
    mem := mem, shm := shm, mid := [], inputs := [], hostData := 0, hostBytes := [], pruSeen := [] }

/-- The machine right after reset, no memory byte listed (log 1, log 5). -/
def reset : State := powerUp Config.parameters [] []

/-- The parameters are "checked once at construction and a configuration that breaks one is refused" (R8). -/
def construct (p : Params) (mem shm : Memory) : Host.Outcome State Fault Refusal :=
  if p.wellFormed then .next (powerUp p mem shm) else .refused .badConfiguration

end State
end Sys2Proof.Machine
end

