-- ==== Sys2Proof/Machine/Flags.lean ====
section
/-! DEFINITION. The STATUS register and its one flag (10_state.md R24, R32), and the fault causes (60_exceptions.md R201). -/

namespace Sys2Proof.Machine

/-- The fault causes of R201. -/
inductive Cause where
  | illegalCmd
  | lenMult3
  | lenMult6
  | manchLen
  | bitlen
  | hdrBitlen
  | memRange
  | overlap
deriving DecidableEq, Repr

/-- The CAUSE codes of R201. -/
def Cause.toByte : Cause → Byte
  | .illegalCmd => 0x01
  | .lenMult3 => 0x02
  | .lenMult6 => 0x03
  | .manchLen => 0x04
  | .bitlen => 0x05
  | .hdrBitlen => 0x06
  | .memRange => 0x07
  | .overlap => 0x08

/-- STATUS after a fault (R24): FOPC in bits 23:16, CAUSE in bits 15:8, FAULT in bit 0, the rest 0. -/
def faultStatus (c : Cause) (fopc : Byte) : Word :=
  fopc.setWidth 32 <<< 16 ||| c.toByte.setWidth 32 <<< 8 ||| 1#32

namespace State

/-- `STATUS.FAULT`, bit 0 (R24). -/
def faulted (s : State) : Bool := s.status.getLsbD 0

/-- `STATUS.CAUSE`, bits 15:8 (R24). -/
def causeField (s : State) : Byte := s.status.extractLsb' 8 8

/-- `STATUS.FOPC`, bits 23:16 (R24). -/
def fopcField (s : State) : Byte := s.status.extractLsb' 16 8

end State
end Sys2Proof.Machine
end

