-- ==== Sys2Proof/Machine/Operands.lean ====
section
/-! DEFINITION. How a command reads its operands (30_encoding.md R71) and the ranges it checks (00_scope.md R14), and the
fields of SHM (10_state.md R34 to R37). -/

namespace Sys2Proof.Machine

/-- `RangeOK(a, n)` (R14), in unbounded arithmetic. -/
def rangeOk (p : Params) (a n : Nat) : Bool := n == 0 || decide (a + n ≤ p.memSize)

/-- `Overlap(a, n, b, m)` (R14). -/
def overlap (a n b m : Nat) : Bool := decide (0 < n) && decide (0 < m) && decide (a < b + m) && decide (b < a + n)

/-- SHM offset of LENGTH (R34). -/
def lengthOff : Nat := 0

/-- SHM offset of HWCUR (R34). -/
def hwcurOff : Nat := 4

/-- SHM offset of DATA (R34). -/
def dataOff : Nat := 8

namespace State

/-- `x[0]` (R14): the whole 32 bits, unsigned (R71). -/
def x0 (s : State) : Nat := s.a0.toNat

/-- `x[1]` (R14). -/
def x1 (s : State) : Nat := s.a1.toNat

/-- `x[2]` (R14). -/
def x2 (s : State) : Nat := s.a2.toNat

/-- `x[3]` (R14). -/
def x3 (s : State) : Nat := s.a3.toNat

/-- `LENGTH` (R35). -/
def lengthField (s : State) : Word := s.shm.readWord lengthOff

/-- `HWCUR` (R36). -/
def hwcur (s : State) : Word := s.shm.readWord hwcurOff

/-- The SHM offset of the frame slot at the cursor (43_bytequeue.md R160 to R163). -/
def slotOff (s : State) : Nat := dataOff + s.icur.toNat

/-- `(ICUR + QF) mod CAP` (R161, R162). -/
def icurNext (s : State) : Word := wrap32 ((s.icur.toNat + s.cfg.qf) % s.cfg.cap)

/-- The MEM address of the byte that holds bit `A1` of the array at `A0`, unbounded (44_bitops.md R190). -/
def bitAddr (s : State) : Nat := s.x0 + s.x1 / 8

/-- The bit length in the header of the frame at `A0` (42_framer.md R142). -/
def frameHeader (s : State) : Nat := Codec.le (s.mem.readBytes s.x0 2)

end State
end Sys2Proof.Machine
end

