-- ==== Sys2Proof/Machine/Ops.lean ====
section
/-! DEFINITION. The named operations the meanings share: the setters of State, fault entry (60_exceptions.md R202), the
shape of every command (R15, R203, R204), reset (70_reset_and_hazards.md R231), and the register port's registers
(10_state.md R29). -/

namespace Sys2Proof.Machine
namespace State

def setMem (s : State) (m : Memory) : State := { s with mem := m }

def setShm (s : State) (m : Memory) : State := { s with shm := m }

def setResult (s : State) (v : Word) : State := { s with result := v }

def setDiag (s : State) (v : Word) : State := { s with diag := v }

def setIcur (s : State) (v : Word) : State := { s with icur := v }

def setMid (s : State) (l : List MidStep) : State := { s with mid := l }

def setInputs (s : State) (l : List Input) : State := { s with inputs := l }

def setHostData (s : State) (v : Word) : State := { s with hostData := v }

def setHostBytes (s : State) (bs : List Byte) : State := { s with hostBytes := bs }

def setPruSeen (s : State) (l : List (Nat × Byte)) : State := { s with pruSeen := l }

/-- Fault entry, `raise Fault(cause, info)` (R202): STATUS and FINFO are written and nothing else is. There is no vector,
no saved program counter and no return (R202, R206). -/
def latch (s : State) (c : Cause) (fopc : Byte) (info : Nat) : State :=
  { s with status := faultStatus c fopc, finfo := wrap32 info }

/-- Reset (R231): every register takes its value of R41; no byte of MEM or SHM is written; the parameters stand. -/
def toReset (s : State) : State :=
  { s with a0 := 0, a1 := 0, a2 := 0, a3 := 0, result := 0, status := 0, finfo := 0, diag := 0, icur := 0 }

end State

/-- An outcome with its next state changed by `f`. -/
def mapNext (f : State → State) : Host.Outcome State Fault Refusal → Host.Outcome State Fault Refusal
  | .next t => .next (f t)
  | .fault r => .fault r
  | .refused r => .refused r

/-- One check of a command: when it fails, the cause and the FINFO value of its fault (R201). -/
structure Check where
  fails : Bool
  cause : Cause
  info : Nat
deriving DecidableEq, Repr

/-- The first check that fails, in the order the command's rule lists them (R204). -/
def firstFailure (checks : List Check) : Option Check := checks.find? fun c => c.fails

/-- The shape of every command: nothing at all while STATUS.FAULT = 1 (R203); else the fault of the first check that
fails (R204), with no other write (R15, R202); else the effect. -/
def perform (fopc : Byte) (checks : State → List Check) (effect : State → State) (s : State) :
    Host.Outcome State Fault Refusal :=
  if s.faulted then .next s
  else match firstFailure (checks s) with
    | some c => .next (s.latch c.cause fopc c.info)
    | none => .next (effect s)

/-- No check (43_bytequeue.md R163 to R166). -/
def noChecks (_ : State) : List Check := []

/-- A CMD write of an illegal word (30_encoding.md R75): the fault ILLEGAL_CMD with FINFO the whole word. -/
def illegalCommand (w : Word) (s : State) : Host.Outcome State Fault Refusal :=
  perform (opcField w) (fun _ => [⟨true, .illegalCmd, w.toNat⟩]) id s

/-- The checks shared by the commands that read `n` MEM bytes at `src` and write `m` bytes at `dst`: input range, output
range, overlap (R204; R102, R103, R121, R122, R141). -/
def bufferChecks (p : Params) (src n dst m : Nat) : List Check :=
  [⟨!rangeOk p src n, .memRange, src⟩, ⟨!rangeOk p dst m, .memRange, dst⟩, ⟨overlap src n dst m, .overlap, dst⟩]

/-- A host read of the register port (10_state.md R29, R31): CMD and the reserved offsets read 0. -/
def portRead (s : State) (off : Nat) : Word :=
  match off with
  | 0x04 => s.a0
  | 0x08 => s.a1
  | 0x0C => s.a2
  | 0x10 => s.a3
  | 0x14 => s.result
  | 0x18 => s.status
  | 0x1C => s.finfo
  | 0x20 => s.diag
  | 0x24 => s.icur
  | 0x28 => wrap32 s.cfg.n
  | 0x2C => wrap32 s.cfg.qf
  | 0x30 => wrap32 s.cfg.cap
  | 0x34 => wrap32 s.cfg.bias
  | _ => 0

/-- A host write of the register port at an offset other than CMD (R29, R31, 20_memory.md R56): A0 to A3 store the value,
every other write has no effect. -/
def portWrite (s : State) (off : Nat) (v : Word) : State :=
  match off with
  | 0x04 => { s with a0 := v }
  | 0x08 => { s with a1 := v }
  | 0x0C => { s with a2 := v }
  | 0x10 => { s with a3 := v }
  | _ => s

/-- The register port takes aligned 32-bit accesses only (R53) and decodes 256 bytes (10_state.md R31). -/
def portRefusal (off width : Nat) : Option Refusal :=
  if width ≠ 4 ∨ off % 4 ≠ 0 then some .portAccess
  else if 256 ≤ off then some .beyondPort
  else none

end Sys2Proof.Machine
end

