-- ==== Sys2Proof/Machine/Agents.lean ====
section
/-! DEFINITION. The PRU's steps (20_memory.md R57), their interleaving with the SHM accesses of a command in progress
(R54, R60, R61), and the host's own accesses to the port and to MEM (R55, R56). -/

namespace Sys2Proof.Machine

/-- Why a PRU step is outside the model, if it is (R51, R57; log 11). -/
def pruRefusal (p : Params) : PruAct → Option Refusal
  | .writeCur _ => none
  | .readByte off => if off < dataOff + p.cap then none else some .pruOutsideShm
  | .writeByte off _ =>
    if off < hwcurOff then some .pruWritesLength
    else if off < dataOff then some .pruPartialCursor
    else if dataOff + p.cap ≤ off then some .pruOutsideShm
    else if p.qdir = .tx then some .pruWritesDataTx
    else none

/-- A PRU step that the model takes (R57); one that it refuses has no effect here and stops the machine in `takeInput`. -/
def pruStep (a : PruAct) (s : State) : State :=
  if (pruRefusal s.cfg a).isSome then s
  else match a with
    | .writeCur v => s.setShm (s.shm.writeWord hwcurOff v)
    | .readByte off => s.setPruSeen ((off, s.shm.read off) :: s.pruSeen)
    | .writeByte off b => s.setShm (s.shm.write off b)

/-- The first PRU step of a schedule that is outside the model, if there is one. -/
def midRefusal (p : Params) : List MidStep → Option Refusal
  | [] => none
  | .core _ :: rest => midRefusal p rest
  | .pru a :: rest => match pruRefusal p a with
    | some r => some r
    | none => midRefusal p rest

/-- The accesses `todo` of a command and the PRU's steps, in the order the schedule gives: the core's access `k` happens
where the schedule says, if it has not yet; those the schedule does not name follow at its end, in order (log 8). -/
def interleave (access : Nat → State → State) : List MidStep → List Nat → State → State
  | [], todo, s => todo.foldl (fun t k => access k t) s
  | .core k :: rest, todo, s =>
    if k ∈ todo then interleave access rest (todo.erase k) (access k s) else interleave access rest todo s
  | .pru a :: rest, todo, s => interleave access rest todo (pruStep a s)

/-- The `n` SHM accesses of a command, interleaved with the PRU steps that fall inside it, which are then used up. -/
def shmAccesses (n : Nat) (access : Nat → State → State) (s : State) : State :=
  interleave access s.mid (List.range n) (s.setMid [])

/-- The PRU steps inside a host write that made no SHM access. -/
def drainMid (s : State) : State := shmAccesses 0 (fun _ t => t) s

/-- `drainMid` after an outcome. -/
def drainOutcome : Host.Outcome State Fault Refusal → Host.Outcome State Fault Refusal := mapNext drainMid

/-- The SHM accesses below `n` that the schedule names, interleaved with the PRU steps between them, and no other: what a
command has done when a reset abandons it (70_reset_and_hazards.md R230, log 10). -/
def abandonedAccesses (n : Nat) (access : Nat → State → State) (s : State) : State :=
  interleave access s.mid ((List.range n).filter fun k => s.mid.contains (.core k)) (s.setMid [])

/-- A host read of the register port. -/
def hostPortRead (off width : Nat) (s : State) : Host.Outcome State Fault Refusal :=
  match portRefusal off width with
  | some r => .refused r
  | none => .next (s.setHostData (portRead s off))

/-- The host writes MEM directly (10_state.md R38, `WMEM` of R78). -/
def hostMemWrite (addr : Nat) (bytes : List Byte) (s : State) : Host.Outcome State Fault Refusal :=
  if rangeOk s.cfg addr bytes.length then .next (s.setMem (s.mem.writeBytes addr bytes)) else .fault .hostMemRange

/-- The host reads MEM directly (R38, `RMEM` of R78). -/
def hostMemRead (addr n : Nat) (s : State) : Host.Outcome State Fault Refusal :=
  if rangeOk s.cfg addr n then .next (s.setHostBytes (s.mem.readBytes addr n)) else .fault .hostMemRange

/-- The host reads `n` bytes of SHM (20_memory.md R51) in one step, no PRU step between them: DESIGN CHOICE, R51 speaks of
one byte and R54 of the core's accesses only (log 6). -/
def hostShmRead (off n : Nat) (s : State) : Host.Outcome State Fault Refusal :=
  if off + n ≤ dataOff + s.cfg.cap then .next (s.setHostBytes (s.shm.readBytes off n)) else .fault .hostShmRange

/-- A PRU step between host steps. -/
def pruInput (a : PruAct) (s : State) : Host.Outcome State Fault Refusal :=
  match pruRefusal s.cfg a with
  | some r => .refused r
  | none => .next (pruStep a s)

end Sys2Proof.Machine
end

