-- ==== Sys2Proof/Machine/BitOps.lean ====
section
/-! DEFINITION. BGET and BSET (44_bitops.md R190, R191). -/

namespace Sys2Proof.Machine

/-- The check of BGET and BSET (R190, R191): the byte that holds the bit. -/
def bitChecks (s : State) : List Check := [⟨!rangeOk s.cfg s.bitAddr 1, .memRange, s.bitAddr⟩]

/-- The effect of BGET once its check passes (R190): RESULT the bit, 0 or 1. -/
def bgetEffect (s : State) : State :=
  s.setResult (if Codec.bitOf (s.mem.read s.bitAddr) (s.x1 % 8) then 1 else 0)

/-- BGET (R190). -/
def execBget (s : State) : Host.Outcome State Fault Refusal := perform Instr.bget.opcode bitChecks bgetEffect s

/-- The effect of BSET once its check passes (R191): one bit of one byte, only `A2[0]` is used. -/
def bsetEffect (s : State) : State :=
  s.setMem (s.mem.write s.bitAddr (Codec.withBit (s.mem.read s.bitAddr) (s.x1 % 8) (s.a2.getLsbD 0)))

/-- BSET (R191). -/
def execBset (s : State) : Host.Outcome State Fault Refusal := perform Instr.bset.opcode bitChecks bsetEffect s

end Sys2Proof.Machine
end

