-- ==== Sys2Proof/Machine/BlockCode.lean ====
section
/-! DEFINITION. ENC and DEC (40_block_code.md R102, R103). -/

namespace Sys2Proof.Machine

/-- The checks of ENC (R102). -/
def encChecks (s : State) : List Check :=
  ⟨decide (s.x2 % 3 ≠ 0), .lenMult3, s.x2⟩ :: bufferChecks s.cfg s.x0 s.x2 s.x1 (2 * s.x2)

/-- The effect of ENC once its checks pass (R102): `2·len` bytes at `dst`. -/
def encEffect (s : State) : State :=
  s.setMem (s.mem.writeBytes s.x1 (Codec.encodeBytes s.cfg (s.mem.readBytes s.x0 s.x2)))

/-- ENC (R102). -/
def execEnc (s : State) : Host.Outcome State Fault Refusal := perform Instr.enc.opcode encChecks encEffect s

/-- The checks of DEC (R103). -/
def decChecks (s : State) : List Check :=
  ⟨decide (s.x2 % 6 ≠ 0), .lenMult6, s.x2⟩ :: bufferChecks s.cfg s.x0 s.x2 s.x1 (s.x2 / 2)

/-- The effect of DEC once its checks pass (R103): `len/2` bytes at `dst`, and DIAG the bits changed (R105). -/
def decEffect (s : State) : State :=
  let out := Codec.decodeBytes s.cfg (s.mem.readBytes s.x0 s.x2)
  (s.setMem (s.mem.writeBytes s.x1 out.1)).setDiag (wrap32 out.2)

/-- DEC (R103). -/
def execDec (s : State) : Host.Outcome State Fault Refusal := perform Instr.dec.opcode decChecks decEffect s

end Sys2Proof.Machine
end

