-- ==== Sys2Proof/Machine/ByteQueue.lean ====
section
/-! DEFINITION. PUSH, POP, PEEK, PRUCUR, GETLEN and SETLEN (43_bytequeue.md R161 to R166). Their SHM accesses are single
bytes of DATA and whole words of LENGTH and HWCUR, and the PRU's steps may fall between them (20_memory.md R54, R60, R61). -/

namespace Sys2Proof.Machine

/-- The check of PUSH (R161). -/
def pushChecks (s : State) : List Check := [⟨!rangeOk s.cfg s.x0 s.cfg.qf, .memRange, s.x0⟩]

/-- SHM access `k` of a PUSH of `qf` bytes from `src` to `slot` (R161, log 9): for `k < qf` data byte `k`; then the update of
LENGTH, one 32-bit read and one 32-bit write, between which nobody writes LENGTH (20_memory.md R62). -/
def pushAccess (src slot qf k : Nat) (s : State) : State :=
  if k < qf then s.setShm (s.shm.write (slot + k) (s.mem.read (src + k)))
  else s.setShm (s.shm.writeWord lengthOff (wrap32 (s.lengthField.toNat + qf)))

/-- The effect of PUSH once its check passes (R161). -/
def pushEffect (s : State) : State :=
  (shmAccesses (s.cfg.qf + 1) (pushAccess s.x0 s.slotOff s.cfg.qf) s).setIcur s.icurNext

/-- PUSH (R161). -/
def execPush (s : State) : Host.Outcome State Fault Refusal := perform Instr.push.opcode pushChecks pushEffect s

/-- A PUSH that a reset abandons (70_reset_and_hazards.md R230): the data bytes whose accesses the schedule names have
landed where it names them; the access of LENGTH, number `QF`, has not (log 10). -/
def abandonPush (s : State) : Host.Outcome State Fault Refusal :=
  perform Instr.push.opcode pushChecks
    (fun t => abandonedAccesses t.cfg.qf (pushAccess t.x0 t.slotOff t.cfg.qf) t) s

/-- The check of POP (R162). -/
def popChecks (s : State) : List Check := [⟨!rangeOk s.cfg s.x0 s.cfg.qf, .memRange, s.x0⟩]

/-- SHM access `k` of a POP to `dst` (R162, log 9): data byte `k` of the slot is read and goes to its MEM byte, which nobody
else sees before the command has completed (20_memory.md R54 (a)). -/
def popAccess (dst slot k : Nat) (s : State) : State :=
  s.setMem (s.mem.write (dst + k) (s.shm.read (slot + k)))

/-- The effect of POP once its check passes (R162). -/
def popEffect (s : State) : State :=
  (shmAccesses s.cfg.qf (popAccess s.x0 s.slotOff) s).setIcur s.icurNext

/-- POP (R162). -/
def execPop (s : State) : Host.Outcome State Fault Refusal := perform Instr.pop.opcode popChecks popEffect s

/-- The effect of PEEK (R163): it reads no SHM byte. -/
def peekEffect (s : State) : State := s.setResult (wrap32 s.slotOff)

/-- PEEK (R163). -/
def execPeek (s : State) : Host.Outcome State Fault Refusal := perform Instr.peek.opcode noChecks peekEffect s

/-- The translation of R164, the bias value itself special-cased as the source has it. -/
def translateCursor (p : Params) (raw : Word) : Word := if raw = wrap32 p.bias then 0 else raw - wrap32 p.bias

/-- The effect of PRUCUR (R164): one 32-bit read of HWCUR. -/
def prucurEffect (s : State) : State :=
  shmAccesses 1 (fun _ t => t.setResult (translateCursor t.cfg t.hwcur)) s

/-- PRUCUR (R164). -/
def execPrucur (s : State) : Host.Outcome State Fault Refusal := perform Instr.prucur.opcode noChecks prucurEffect s

/-- The effect of GETLEN (R165): one 32-bit read of LENGTH. -/
def getlenEffect (s : State) : State := shmAccesses 1 (fun _ t => t.setResult t.lengthField) s

/-- GETLEN (R165). -/
def execGetlen (s : State) : Host.Outcome State Fault Refusal := perform Instr.getlen.opcode noChecks getlenEffect s

/-- The effect of SETLEN (R166): one 32-bit write of LENGTH. -/
def setlenEffect (s : State) : State := shmAccesses 1 (fun _ t => t.setShm (t.shm.writeWord lengthOff t.a0)) s

/-- A SETLEN that a reset abandons (70_reset_and_hazards.md R230): LENGTH keeps its value (log 10). -/
def abandonSetlen (s : State) : Host.Outcome State Fault Refusal :=
  perform Instr.setlen.opcode noChecks (abandonedAccesses 0 fun _ t => t) s

/-- SETLEN (R166). -/
def execSetlen (s : State) : Host.Outcome State Fault Refusal := perform Instr.setlen.opcode noChecks setlenEffect s

end Sys2Proof.Machine
end

