-- ==== Sys2Proof/Machine/Framer.lean ====
section
/-! DEFINITION. PKT and DEPKT (42_framer.md R140 to R142). -/

namespace Sys2Proof.Machine

/-- The checks of PKT (R141). -/
def pktChecks (s : State) : List Check :=
  ⟨decide (8 * s.cfg.n < s.x2), .bitlen, s.x2⟩ :: bufferChecks s.cfg s.x0 (Codec.ceil8 s.x2) s.x1 s.cfg.frame

/-- The frame of R140 for a bit length and its data bytes: header, payload, zero padding. -/
def frameBytes (p : Params) (bitLength : Nat) (payload : List Byte) : List Byte :=
  Codec.toLE 2 bitLength ++ payload ++ List.replicate (p.n - payload.length) 0x00

/-- The effect of PKT once its checks pass (R141): all `FRAME` bytes at `frame`. -/
def pktEffect (s : State) : State :=
  s.setMem (s.mem.writeBytes s.x1 (frameBytes s.cfg s.x2 (s.mem.readBytes s.x0 (Codec.ceil8 s.x2))))

/-- PKT (R141). -/
def execPkt (s : State) : Host.Outcome State Fault Refusal := perform Instr.pkt.opcode pktChecks pktEffect s

/-- The checks of DEPKT (R142): the frame range before the header, which is read from the frame (R204). -/
def depktChecks (s : State) : List Check :=
  [⟨!rangeOk s.cfg s.x0 s.cfg.frame, .memRange, s.x0⟩,
   ⟨decide (8 * s.cfg.n < s.frameHeader), .hdrBitlen, s.frameHeader⟩,
   ⟨!rangeOk s.cfg s.x1 (Codec.ceil8 s.frameHeader), .memRange, s.x1⟩,
   ⟨overlap s.x0 s.cfg.frame s.x1 (Codec.ceil8 s.frameHeader), .overlap, s.x1⟩]

/-- The effect of DEPKT once its checks pass (R142): the payload's bytes at `data`, and RESULT the bit length. -/
def depktEffect (s : State) : State :=
  (s.setMem (s.mem.writeBytes s.x1 (s.mem.readBytes (s.x0 + 2) (Codec.ceil8 s.frameHeader)))).setResult
    (wrap32 s.frameHeader)

/-- DEPKT (R142). -/
def execDepkt (s : State) : Host.Outcome State Fault Refusal := perform Instr.depkt.opcode depktChecks depktEffect s

end Sys2Proof.Machine
end

