-- ==== Sys2Proof/Machine/LineCode.lean ====
section
/-! DEFINITION. MENC and MDEC (41_line_code.md R121, R122). -/

namespace Sys2Proof.Machine

/-- The checks of MENC (R121); `2·inLen` does not wrap. -/
def mencChecks (s : State) : List Check :=
  ⟨decide (s.x3 ≠ 2 * s.x2), .manchLen, s.x3⟩ :: bufferChecks s.cfg s.x0 s.x2 s.x1 s.x3

/-- The effect of MENC once its checks pass (R121): `outLen` bytes at `dst`. -/
def mencEffect (s : State) : State :=
  s.setMem (s.mem.writeBytes s.x1 (Codec.lineEncode (s.mem.readBytes s.x0 s.x2)))

/-- MENC (R121). -/
def execMenc (s : State) : Host.Outcome State Fault Refusal := perform Instr.menc.opcode mencChecks mencEffect s

/-- The checks of MDEC (R122). -/
def mdecChecks (s : State) : List Check :=
  ⟨decide (s.x2 ≠ 2 * s.x3), .manchLen, s.x3⟩ :: bufferChecks s.cfg s.x0 s.x2 s.x1 s.x3

/-- The effect of MDEC once its checks pass (R122): `outLen` bytes at `dst`, and DIAG the invalid pairs met (R123). -/
def mdecEffect (s : State) : State :=
  let out := Codec.lineDecode s.cfg (s.mem.readBytes s.x0 s.x2)
  (s.setMem (s.mem.writeBytes s.x1 out.1)).setDiag (wrap32 out.2)

/-- MDEC (R122). -/
def execMdec (s : State) : Host.Outcome State Fault Refusal := perform Instr.mdec.opcode mdecChecks mdecEffect s

end Sys2Proof.Machine
end

