-- ==== Sys2Proof/Machine/Dispatch.lean ====
section
/-! DEFINITION. exec: one arm per command of spec/opcode_table.json. -/

namespace Sys2Proof.Machine

def exec (i : Instr) (s : State) : Host.Outcome State Fault Refusal :=
  match i with
  | .enc => Sys2Proof.Machine.execEnc s
  | .dec => Sys2Proof.Machine.execDec s
  | .menc => Sys2Proof.Machine.execMenc s
  | .mdec => Sys2Proof.Machine.execMdec s
  | .pkt => Sys2Proof.Machine.execPkt s
  | .depkt => Sys2Proof.Machine.execDepkt s
  | .push => Sys2Proof.Machine.execPush s
  | .pop => Sys2Proof.Machine.execPop s
  | .peek => Sys2Proof.Machine.execPeek s
  | .prucur => Sys2Proof.Machine.execPrucur s
  | .getlen => Sys2Proof.Machine.execGetlen s
  | .setlen => Sys2Proof.Machine.execSetlen s
  | .bget => Sys2Proof.Machine.execBget s
  | .bset => Sys2Proof.Machine.execBset s

end Sys2Proof.Machine
end

