-- ==== Sys2Proof/Machine/Sequencer.lean ====
section
/-! DEFINITION. What one input does: a CMD write decodes and performs its command (30_encoding.md R70, R75); reset, also
during a command (70_reset_and_hazards.md R230). -/

namespace Sys2Proof.Machine

/-- A CMD write of the word `w` (R70, R73, R75). -/
def command (w : Word) (s : State) : Host.Outcome State Fault Refusal :=
  match decode w with
  | .ok i => exec i s
  | .error _ => illegalCommand w s

/-- A host write of the register port: at CMD it performs a command, inside which the steps `mid` fall; it has completed
when the command has (20_memory.md R55). -/
def hostPortWrite (off width : Nat) (v : Word) (mid : List MidStep) (s : State) : Host.Outcome State Fault Refusal :=
  match portRefusal off width, midRefusal s.cfg mid with
  | some r, _ => .refused r
  | none, some r => .refused r
  | none, none =>
    if off = 0 then drainOutcome (command v (s.setMid mid)) else .next (drainMid ((portWrite s off v).setMid mid))

/-- What the command `i` has done when a reset abandons it (R230): each MEM byte it would have written is old or, at the
addresses `memLanded`, new; each DATA byte of a PUSH is old or, where the schedule names its access, new; LENGTH keeps its
value from before the command; the PRU's steps fall where the schedule has them (20_memory.md R57, R60, R61; log 10). -/
def abandon (i : Instr) (memLanded : List Nat) (s : State) : Host.Outcome State Fault Refusal :=
  match i with
  | .push => abandonPush s
  | .setlen => abandonSetlen s
  | .enc | .dec | .menc | .mdec | .pkt | .depkt | .pop | .peek | .prucur | .getlen | .bget | .bset =>
    mapNext (fun t => t.setMem (s.mem.mix t.mem memLanded)) (exec i s)

/-- Reset during the command of the word `w` (R230), inside which the steps `mid` fall; no fault is recorded. -/
def abortCommand (w : Word) (mid : List MidStep) (memLanded : List Nat) (s : State) : Host.Outcome State Fault Refusal :=
  match midRefusal s.cfg mid, decode w with
  | some r, _ => .refused r
  | none, .ok i => mapNext State.toReset (drainOutcome (abandon i memLanded (s.setMid mid)))
  | none, .error _ => .next (drainMid (s.setMid mid)).toReset

/-- What one input does to the state it has been taken from. -/
def takeInput (inp : Input) (s : State) : Host.Outcome State Fault Refusal :=
  match inp with
  | .hostWrite off width v mid => hostPortWrite off width v mid s
  | .hostRead off width => hostPortRead off width s
  | .memWrite addr bytes => hostMemWrite addr bytes s
  | .memRead addr n => hostMemRead addr n s
  | .shmRead off n => hostShmRead off n s
  | .pru a => pruInput a s
  | .reset => .next s.toReset
  | .resetDuring w mid memLanded => abortCommand w mid memLanded s

end Sys2Proof.Machine
end

