-- ==== Sys2Proof/Machine/Step.lean ====
section
/-! DEFINITION. One step of the machine: the first pending input takes place (10_state.md R27: "each host write of the CMD
register performs exactly one command"). -/

namespace Sys2Proof.Machine

/-- One step. With nothing pending the core waits (70_reset_and_hazards.md R232), and nothing changes (log 7). -/
def step (s : State) : Host.Outcome State Fault Refusal :=
  match s.inputs with
  | [] => .next s
  | inp :: rest => takeInput inp (s.setInputs rest)

/-- `s` with a CMD write of the word `w` as the next thing the host does, no PRU step inside it (log 7). -/
def State.withFetchWord (s : State) (nbits w : Nat) : State :=
  s.setInputs (.hostWrite 0 4 (BitVec.ofNat 32 (w % 2 ^ nbits)) [] :: s.inputs)

end Sys2Proof.Machine
end

