-- ==== Sys2Proof/Machine/Assembler.lean ====
section
/-! DEFINITION. The host-side assembler lines of 30_encoding.md R77 and the pseudo-instructions of R78, as the inputs they
expand to. No part of VLCCORE: "each a host action and not a VLCCORE command". -/

namespace Sys2Proof.Machine

/-- One line of a host program (R77, R78). -/
inductive HostLine where
  | enc (src dst len : Word)
  | dec (src dst len : Word)
  | menc (src dst inLen outLen : Word)
  | mdec (src dst inLen outLen : Word)
  | pkt (data frame bitLength : Word)
  | depkt (frame data : Word)
  | push (src : Word)
  | pop (dst : Word)
  | peek
  | prucur
  | getlen
  | setlen (value : Word)
  | bget (base index : Word)
  | bset (base index value : Word)
  | wr (k : Fin 4) (v : Word)
  | cmdw (w : Word)
  | rd (off : Nat)
  | wmem (addr : Nat) (bytes : List Byte)
  | rmem (addr n : Nat)
  | pruWcur (v : Word)
  | reset
deriving DecidableEq, Repr

/-- One aligned 32-bit host write of argument register `k` (R77, offsets of 10_state.md R29). -/
def argWrite (k : Nat) (v : Word) : Input := .hostWrite (4 + 4 * k) 4 v []

/-- One aligned 32-bit host write of CMD. -/
def cmdWrite (w : Word) : Input := .hostWrite 0 4 w []

/-- The operands written to A0, A1, A2, A3 in that order, then the command word to CMD (R78). -/
def commandLine (i : Instr) (args : List Word) : List Input :=
  args.zipIdx.map (fun x => argWrite x.2 x.1) ++ [cmdWrite (encode i)]

/-- The host actions a line stands for, in order (R77, R78). -/
def HostLine.expand : HostLine → List Input
  | .enc src dst len => commandLine .enc [src, dst, len]
  | .dec src dst len => commandLine .dec [src, dst, len]
  | .menc src dst inLen outLen => commandLine .menc [src, dst, inLen, outLen]
  | .mdec src dst inLen outLen => commandLine .mdec [src, dst, inLen, outLen]
  | .pkt data frame bitLength => commandLine .pkt [data, frame, bitLength]
  | .depkt frame data => commandLine .depkt [frame, data]
  | .push src => commandLine .push [src]
  | .pop dst => commandLine .pop [dst]
  | .peek => commandLine .peek []
  | .prucur => commandLine .prucur []
  | .getlen => commandLine .getlen []
  | .setlen value => commandLine .setlen [value]
  | .bget base index => commandLine .bget [base, index]
  | .bset base index value => commandLine .bset [base, index, value]
  | .wr k v => [argWrite k.val v]
  | .cmdw w => [cmdWrite w]
  | .rd off => [.hostRead off 4]
  | .wmem addr bytes => [.memWrite addr bytes]
  | .rmem addr n => [.memRead addr n]
  | .pruWcur v => [.pru (.writeCur v)]
  | .reset => [.reset]

end Sys2Proof.Machine
end

