-- ==== Sys2Proof/Safety.lean ====
section
/-! DEFINITION. What the claims speak of: the invariant of VLCCORE's state, and runs of commands. -/

namespace Sys2Proof.Machine

/-- The invariant: what the spec says holds of VLCCORE's state between two steps. -/
structure State.Inv (s : State) : Prop where
  /-- The parameters meet every constraint (00_scope.md R8). -/
  cfgOk : s.cfg.wellFormed = true
  /-- MEM is in its canonical form. -/
  memWf : s.mem.wf
  /-- Nothing is listed outside `[0, MEM_SIZE)` (10_state.md R38). -/
  memBelow : s.mem.below s.cfg.memSize
  /-- SHM is in its canonical form. -/
  shmWf : s.shm.wf
  /-- Nothing is listed outside the `8 + CAP` bytes (R34). -/
  shmBelow : s.shm.below (dataOff + s.cfg.cap)
  /-- "Invariant: `ICUR mod QF = 0`" (R28). -/
  icurSlot : s.icur.toNat % s.cfg.qf = 0
  /-- "and `ICUR < CAP`" (R28). -/
  icurBelow : s.icur.toNat < s.cfg.cap
  /-- STATUS bits 7:1 and 31:24 read 0 (R24). -/
  statusReserved : s.status &&& 0xFF0000FE#32 = 0
  /-- STATUS and FINFO are 0 while FAULT = 0 (R24, R25). -/
  noFault : s.faulted = false → s.status = 0 ∧ s.finfo = 0
  /-- While FAULT = 1 the cause is one of R201's eight; "0x09 to 0xFF reserved, never raised". -/
  causeKnown : s.faulted = true → ∃ c : Cause, s.causeField = c.toByte
  /-- No command is in progress between steps (20_memory.md R55). -/
  idle : s.mid = []

/-- Bit `i` of the byte sequence at `base` (00_scope.md R11): the most significant bit of a byte comes first. -/
def Memory.bitAt (m : Memory) (base i : Nat) : Bool := Codec.bitOf (m.read (base + i / 8)) (i % 8)

/-- The codeword at `a`, most significant byte first (40_block_code.md R100, R103). -/
def Memory.codewordAt (m : Memory) (a : Nat) : Codeword :=
  Codec.codewordOf (m.read a) (m.read (a + 1)) (m.read (a + 2))

/-- `t` is `s` after the fault entry of 60_exceptions.md R202: STATUS and FINFO say so, and nothing else has changed. -/
def State.FaultedBy (s t : State) (c : Cause) (fopc : Byte) (info : Nat) : Prop :=
  t.faulted = true ∧ t.causeField = c.toByte ∧ t.fopcField = fopc ∧ t.finfo = wrap32 info ∧
  t = { s with status := t.status, finfo := t.finfo }

/-- A command that reads `n` MEM bytes at A0 and writes `m` at A1 passes its range and overlap checks (00_scope.md R14). -/
abbrev State.BuffersOk (s : State) (n m : Nat) : Prop :=
  rangeOk s.cfg s.x0 n = true ∧ rangeOk s.cfg s.x1 m = true ∧ overlap s.x0 n s.x1 m = false

/-- The argument registers a command reads, the cells of 30_encoding.md R71 that are not "-". -/
def readsArg : Instr → Nat → Bool
  | .enc, k | .dec, k | .pkt, k | .bset, k => decide (k ≤ 2)
  | .menc, k | .mdec, k => decide (k ≤ 3)
  | .depkt, k | .bget, k => decide (k ≤ 1)
  | .push, k | .pop, k | .setlen, k => decide (k = 0)
  | .peek, _ | .prucur, _ | .getlen, _ => false

/-- `s` with the value `v` in argument register `k`. -/
def State.withArg (s : State) (k : Fin 4) (v : Word) : State :=
  match k with
  | 0 => { s with a0 := v }
  | 1 => { s with a1 := v }
  | 2 => { s with a2 := v }
  | 3 => { s with a3 := v }

/-- The inputs that assert reset. -/
def assertsReset : Input → Bool
  | .reset | .resetDuring _ _ _ => true
  | _ => false

/-- The host's direct MEM writes of a list of inputs, and nothing else of it. -/
def memWritesOnly (m : Memory) : List Input → Memory
  | [] => m
  | .memWrite a bs :: rest => memWritesOnly (m.writeBytes a bs) rest
  | _ :: rest => memWritesOnly m rest

/-- The commands of a list one after another, no PRU step between them. -/
def execAll : List Instr → State → Host.Outcome State Fault Refusal
  | [], s => .next s
  | i :: rest, s => match exec i s with
    | .next t => execAll rest t
    | .fault r => .fault r
    | .refused r => .refused r

/-- The inputs of a list one after another. -/
def takeAll : List Input → State → Host.Outcome State Fault Refusal
  | [], s => .next s
  | inp :: rest, s => match takeInput inp s with
    | .next t => takeAll rest t
    | .fault r => .fault r
    | .refused r => .refused r

/-- The inputs of a host program, line by line (30_encoding.md R77, R78). -/
def programInputs (lines : List HostLine) : List Input := lines.flatMap HostLine.expand

/-- The SHM offsets that the PRU steps of a schedule write. -/
def pruWrites : List MidStep → List Nat
  | [] => []
  | .core _ :: rest => pruWrites rest
  | .pru (.writeCur _) :: rest => [hwcurOff, hwcurOff + 1, hwcurOff + 2, hwcurOff + 3] ++ pruWrites rest
  | .pru (.readByte _) :: rest => pruWrites rest
  | .pru (.writeByte off _) :: rest => off :: pruWrites rest

/-- The values the PRU steps of a schedule write to HWCUR. -/
def cursorWrites : List MidStep → List Word
  | [] => []
  | .core _ :: rest => cursorWrites rest
  | .pru (.writeCur v) :: rest => v :: cursorWrites rest
  | .pru (.readByte _) :: rest => cursorWrites rest
  | .pru (.writeByte _ _) :: rest => cursorWrites rest

/-- The values the PRU steps of a schedule write to the SHM byte at `off`. -/
def byteWrites (off : Nat) : List MidStep → List Byte
  | [] => []
  | .core _ :: rest => byteWrites off rest
  | .pru (.writeCur _) :: rest => byteWrites off rest
  | .pru (.readByte _) :: rest => byteWrites off rest
  | .pru (.writeByte o b) :: rest => if o = off then b :: byteWrites off rest else byteWrites off rest

end Sys2Proof.Machine
end

