-- ==== Sys2Proof/Certificates/Slice0/Obligations.lean ====
section
/-! DEFINITION. The statements for the provers. OBLIGATIONS.json lists each with the rule of spec/ it formalises. -/

open Sys2Proof Sys2Proof.Machine

/-! ### Encoding (30_encoding.md) -/

/-- R72: decoding an encoded command gives it back. -/
def Obligations.DecodeOfEncode : Prop := ∀ i : Instr, decode (encode i) = .ok i

/-- R73: a word selects exactly one row, its own, or is illegal; the legal words are 0x00000001 to 0x0000000E. -/
def Obligations.DecodeSelectsOneRow : Prop :=
  (∀ (w : Word) (i : Instr), decode w = .ok i ↔ w = encode i) ∧
  ∀ w : Word, (∃ i, decode w = .ok i) ↔ 0x00000001 ≤ w.toNat ∧ w.toNat ≤ 0x0000000E

/-- R72, the 14 words of the opcode map written out. -/
def Obligations.OpcodeMapWords : Prop :=
  decode 0x00000001#32 = .ok .enc ∧ decode 0x00000002#32 = .ok .dec ∧ decode 0x00000003#32 = .ok .menc ∧
  decode 0x00000004#32 = .ok .mdec ∧ decode 0x00000005#32 = .ok .pkt ∧ decode 0x00000006#32 = .ok .depkt ∧
  decode 0x00000007#32 = .ok .push ∧ decode 0x00000008#32 = .ok .pop ∧ decode 0x00000009#32 = .ok .peek ∧
  decode 0x0000000A#32 = .ok .prucur ∧ decode 0x0000000B#32 = .ok .getlen ∧ decode 0x0000000C#32 = .ok .setlen ∧
  decode 0x0000000D#32 = .ok .bget ∧ decode 0x0000000E#32 = .ok .bset

/-- R75: the illegal words are those with `RSV` not 0, and those with `OPC` = 0x00 or in 0x0F to 0xFF. -/
def Obligations.IllegalWordsAreExactlyThese : Prop :=
  ∀ w : Word,
    (decode w = .error .reservedBits ↔ rsvField w ≠ 0) ∧
    (decode w = .error .illegalOpcode ↔
      rsvField w = 0 ∧ (opcField w = 0x00 ∨ (0x0F ≤ (opcField w).toNat ∧ (opcField w).toNat ≤ 0xFF)))

/-! ### The step (20_memory.md R55, 30_encoding.md R70, R75) -/

/-- R70, R55: when the next input is a CMD write of a word that decodes to `i`, the step is `exec i` on the state that has
taken the input, the PRU steps of the write falling inside the command, and those left over after it. -/
def Obligations.StepRunsDecodedCommand : Prop :=
  (∀ (s : State) (w : Word) (i : Instr) (mid : List MidStep) (rest : List Input),
    s.inputs = .hostWrite 0 4 w mid :: rest → midRefusal s.cfg mid = none → decode w = .ok i →
    step s = drainOutcome (exec i ((s.setInputs rest).setMid mid))) ∧
  (∀ (s : State) (i : Instr), s.mid = [] →
    step (s.withFetchWord 32 (encode i).toNat) = drainOutcome (exec i s))

/-- R75, R202: a CMD write of an illegal word latches ILLEGAL_CMD with FINFO the whole word and FOPC its low byte, and
changes nothing else but what the PRU steps of the write change; so does the step that takes it. -/
def Obligations.IllegalCommandFaults : Prop :=
  (∀ (s : State) (w : Word) (mid : List MidStep), s.faulted = false → midRefusal s.cfg mid = none →
    (∀ i, w ≠ encode i) →
    ∃ t, takeInput (.hostWrite 0 4 w mid) s = .next t ∧
      (drainMid (s.setMid mid)).FaultedBy t .illegalCmd (opcField w) w.toNat) ∧
  (∀ (s : State) (w : Word) (rest : List Input), s.inputs = .hostWrite 0 4 w [] :: rest → s.mid = [] →
    s.faulted = false → (∀ i, w ≠ encode i) →
    ∃ t, step s = .next t ∧ (s.setInputs rest).FaultedBy t .illegalCmd (opcField w) w.toNat)

/-! ### Reset (70_reset_and_hazards.md) -/

/-- The invariant holds at reset (10_state.md R28, R24, R41; the parameters are the model's choice, log 1). -/
def Obligations.InvariantHoldsAtReset : Prop := State.reset.Inv

/-- Every step keeps the invariant. -/
def Obligations.StepKeepsInvariant : Prop := ∀ s t : State, s.Inv → step s = .next t → t.Inv

/-- R231: reset gives every register its listed value, keeps the parameters, and writes no byte of SHM or MEM. -/
def Obligations.ResetGivesListedValues : Prop :=
  ∀ s : State, ∃ t, takeInput .reset s = .next t ∧
    t.icur = 0 ∧ t.status = 0 ∧ t.faulted = false ∧ t.a0 = 0 ∧ t.a1 = 0 ∧ t.a2 = 0 ∧ t.a3 = 0 ∧
    t.result = 0 ∧ t.finfo = 0 ∧ t.diag = 0 ∧ t.cfg = s.cfg ∧ t.mem = s.mem ∧ t.shm = s.shm

/-- R230, R231: a reset during a command whose CMD write, with the PRU steps `mid` inside it, would give `t`. Each MEM byte
is old or as in `t`, in every combination; each DATA byte of a PUSH is as in `t` where the schedule names its access, and
every other is as the PRU steps alone leave it; LENGTH is as before the command (log 10); every register is reset. -/
def Obligations.ResetDuringCommand : Prop :=
  ∀ (s t : State) (w : Word) (mid : List MidStep) (memLanded : List Nat),
    takeInput (.hostWrite 0 4 w mid) s = .next t →
    ∃ u, takeInput (.resetDuring w mid memLanded) s = .next u ∧
      (∀ a, u.mem.read a = if a ∈ memLanded then t.mem.read a else s.mem.read a) ∧
      (∀ k, k < s.cfg.qf → w = encode .push → MidStep.core k ∈ mid →
        u.shm.read (s.slotOff + k) = t.shm.read (s.slotOff + k)) ∧
      (∀ off, dataOff ≤ off → (w = encode .push → ∀ k, k < s.cfg.qf → MidStep.core k ∈ mid → off ≠ s.slotOff + k) →
        u.shm.read off = (drainMid (s.setMid mid)).shm.read off) ∧
      u.lengthField = s.lengthField ∧ u.hwcur = t.hwcur ∧
      (w ≠ encode .push → u.pruSeen = (drainMid (s.setMid mid)).pruSeen) ∧
      u.a0 = 0 ∧ u.a1 = 0 ∧ u.a2 = 0 ∧ u.a3 = 0 ∧ u.result = 0 ∧ u.status = 0 ∧ u.faulted = false ∧ u.finfo = 0 ∧
      u.diag = 0 ∧ u.icur = 0 ∧ u.cfg = s.cfg ∧ u.mid = [] ∧ u.inputs = s.inputs

/-- R60, R230: a PRU that reads during a PUSH that a reset abandons may see the second byte of the slot new and then the
first byte still old, though the first byte lands too before the reset. -/
def Obligations.PruMaySeeAbandonedPushOutOfOrder : Prop :=
  ∀ s : State, s.Inv → s.faulted = false → rangeOk s.cfg s.x0 s.cfg.qf = true →
    ∃ sched u, takeInput (.resetDuring (encode .push) sched []) s = .next u ∧
      u.pruSeen = (s.slotOff, s.shm.read s.slotOff) :: (s.slotOff + 1, s.mem.read (s.x0 + 1)) :: s.pruSeen ∧
      u.shm.read s.slotOff = s.mem.read s.x0 ∧ u.shm.read (s.slotOff + 1) = s.mem.read (s.x0 + 1) ∧
      (∀ j, 2 ≤ j → j < s.cfg.qf → u.shm.read (s.slotOff + j) = s.shm.read (s.slotOff + j)) ∧
      u.lengthField = s.lengthField ∧ u.icur = 0

/-- R8: a configuration that breaks a constraint is refused at construction; one that breaks none gives a machine. -/
def Obligations.ConstructionChecksParameters : Prop :=
  ∀ (p : Params) (mem shm : Memory),
    (¬ (1 ≤ p.n ∧ (p.n + 2) % 3 = 0 ∧ 8 * p.n ≤ 65535 ∧ 2 * (p.n + 2) ≤ p.cap ∧ p.cap % (2 * (p.n + 2)) = 0 ∧
        8 + p.cap ≤ 2 ^ 32 ∧ p.bias < 2 ^ 32 ∧ 1 ≤ p.memSize ∧ p.memSize ≤ 2 ^ 32 ∧
        ∀ a b : Sym, a ≠ b → 7 ≤ Codec.dist (Codec.gen p a) (Codec.gen p b)) →
      State.construct p mem shm = .refused .badConfiguration) ∧
    ((1 ≤ p.n ∧ (p.n + 2) % 3 = 0 ∧ 8 * p.n ≤ 65535 ∧ 2 * (p.n + 2) ≤ p.cap ∧ p.cap % (2 * (p.n + 2)) = 0 ∧
        8 + p.cap ≤ 2 ^ 32 ∧ p.bias < 2 ^ 32 ∧ 1 ≤ p.memSize ∧ p.memSize ≤ 2 ^ 32 ∧
        ∀ a b : Sym, a ≠ b → 7 ≤ Codec.dist (Codec.gen p a) (Codec.gen p b)) →
      State.construct p mem shm = .next (State.powerUp p mem shm))

/-! ### The register port and the host's own accesses -/

/-- R29, R31: what a host read of the port returns, and that it has no other effect. -/
def Obligations.RegisterMapReads : Prop :=
  ∀ (s : State) (off : Nat), off % 4 = 0 → off < 256 →
    takeInput (.hostRead off 4) s = .next (s.setHostData
      (if off = 0x04 then s.a0 else if off = 0x08 then s.a1 else if off = 0x0C then s.a2 else if off = 0x10 then s.a3
       else if off = 0x14 then s.result else if off = 0x18 then s.status else if off = 0x1C then s.finfo
       else if off = 0x20 then s.diag else if off = 0x24 then s.icur
       else if off = 0x28 then BitVec.ofNat 32 s.cfg.n else if off = 0x2C then BitVec.ofNat 32 (2 * (s.cfg.n + 2))
       else if off = 0x30 then BitVec.ofNat 32 s.cfg.cap else if off = 0x34 then BitVec.ofNat 32 s.cfg.bias
       else 0))

/-- R56, R29, R31: a host write stores to A0..A3; a host write to any other offset but CMD has no effect. -/
def Obligations.RegisterMapWrites : Prop :=
  ∀ (s : State) (off : Nat) (v : Word), s.mid = [] → off % 4 = 0 → off < 256 → off ≠ 0 →
    takeInput (.hostWrite off 4 v []) s = .next
      (if off = 0x04 then { s with a0 := v } else if off = 0x08 then { s with a1 := v }
       else if off = 0x0C then { s with a2 := v } else if off = 0x10 then { s with a3 := v } else s)

/-- R53: a narrower, wider or misaligned host access to the register port is refused. -/
def Obligations.PortTakesAlignedWords : Prop :=
  ∀ (s : State) (off width : Nat) (v : Word) (mid : List MidStep), width ≠ 4 ∨ off % 4 ≠ 0 →
    takeInput (.hostRead off width) s = .refused .portAccess ∧
    takeInput (.hostWrite off width v mid) s = .refused .portAccess

/-- R38, R78 (WMEM, RMEM): the host's own MEM accesses. -/
def Obligations.HostReadsWhatItWrote : Prop :=
  ∀ (s : State) (a : Nat) (bs : List Byte), a + bs.length ≤ s.cfg.memSize →
    ∃ t u, takeInput (.memWrite a bs) s = .next t ∧ takeInput (.memRead a bs.length) t = .next u ∧
      u.hostBytes = bs ∧ t = s.setMem t.mem ∧ u = t.setHostBytes bs ∧
      ∀ x, x < a ∨ a + bs.length ≤ x → t.mem.read x = s.mem.read x

/-- R51: byte `k` of LENGTH and of HWCUR, as the host or the PRU reads it, holds bits 8k + 7 to 8k of the value; the PRU
writes HWCUR as one word; its write of part of HWCUR is refused. -/
def Obligations.ByteViewsOfSharedWords : Prop :=
  ∀ (s : State) (k : Nat) (b : Byte) (v : Word), k < 4 →
    takeInput (.shmRead k 1) s = .next (s.setHostBytes [s.lengthField.extractLsb' (8 * k) 8]) ∧
    takeInput (.shmRead (4 + k) 1) s = .next (s.setHostBytes [s.hwcur.extractLsb' (8 * k) 8]) ∧
    takeInput (.pru (.readByte k)) s = .next (s.setPruSeen ((k, s.lengthField.extractLsb' (8 * k) 8) :: s.pruSeen)) ∧
    takeInput (.pru (.readByte (4 + k))) s =
      .next (s.setPruSeen ((4 + k, s.hwcur.extractLsb' (8 * k) 8) :: s.pruSeen)) ∧
    (∃ t, takeInput (.pru (.writeCur v)) s = .next t ∧ t.hwcur = v) ∧
    takeInput (.pru (.writeByte (4 + k) b)) s = .refused .pruPartialCursor

/-- R77, R78: every assembler line writes its operands to A0, A1, A2, A3 in that order, leaves the argument registers it
does not name, and then runs its command. -/
def Obligations.AssemblerLineRunsCommand : Prop :=
  (∀ (s : State) (i : Instr) (args : List Word), args.length ≤ 4 →
    takeAll (commandLine i args) s = drainOutcome (exec i
      ({ s with a0 := args[0]?.getD s.a0, a1 := args[1]?.getD s.a1, a2 := args[2]?.getD s.a2,
                a3 := args[3]?.getD s.a3 }.setMid []))) ∧
  ∀ (s : State) (a b c d : Word),
    takeAll (HostLine.enc a b c).expand s = drainOutcome (exec .enc ({ s with a0 := a, a1 := b, a2 := c }.setMid [])) ∧
    takeAll (HostLine.dec a b c).expand s = drainOutcome (exec .dec ({ s with a0 := a, a1 := b, a2 := c }.setMid [])) ∧
    takeAll (HostLine.menc a b c d).expand s =
      drainOutcome (exec .menc ({ s with a0 := a, a1 := b, a2 := c, a3 := d }.setMid [])) ∧
    takeAll (HostLine.mdec a b c d).expand s =
      drainOutcome (exec .mdec ({ s with a0 := a, a1 := b, a2 := c, a3 := d }.setMid [])) ∧
    takeAll (HostLine.pkt a b c).expand s = drainOutcome (exec .pkt ({ s with a0 := a, a1 := b, a2 := c }.setMid [])) ∧
    takeAll (HostLine.depkt a b).expand s = drainOutcome (exec .depkt ({ s with a0 := a, a1 := b }.setMid [])) ∧
    takeAll (HostLine.push a).expand s = drainOutcome (exec .push ({ s with a0 := a }.setMid [])) ∧
    takeAll (HostLine.pop a).expand s = drainOutcome (exec .pop ({ s with a0 := a }.setMid [])) ∧
    takeAll HostLine.peek.expand s = drainOutcome (exec .peek (s.setMid [])) ∧
    takeAll HostLine.prucur.expand s = drainOutcome (exec .prucur (s.setMid [])) ∧
    takeAll HostLine.getlen.expand s = drainOutcome (exec .getlen (s.setMid [])) ∧
    takeAll (HostLine.setlen a).expand s = drainOutcome (exec .setlen ({ s with a0 := a }.setMid [])) ∧
    takeAll (HostLine.bget a b).expand s = drainOutcome (exec .bget ({ s with a0 := a, a1 := b }.setMid [])) ∧
    takeAll (HostLine.bset a b c).expand s = drainOutcome (exec .bset ({ s with a0 := a, a1 := b, a2 := c }.setMid []))

/-! ### The PRU (20_memory.md R51, R57) -/

/-- R57: the PRU may write HWCUR with any value, read any SHM byte, and write a DATA byte only when QDIR = RX; it never
writes LENGTH, never writes DATA when QDIR = TX, and touches neither MEM nor a register. R51: a write of part of HWCUR is
refused. -/
def Obligations.PruTouchesOnlyItsBytes : Prop :=
  (∀ (s : State) (v : Word), ∃ t, takeInput (.pru (.writeCur v)) s = .next t ∧ t.hwcur = v ∧ t = s.setShm t.shm ∧
    ∀ x, x < 4 ∨ 8 ≤ x → t.shm.read x = s.shm.read x) ∧
  (∀ (s : State) (off : Nat), off < 8 + s.cfg.cap →
    takeInput (.pru (.readByte off)) s = .next (s.setPruSeen ((off, s.shm.read off) :: s.pruSeen))) ∧
  (∀ (s : State) (off : Nat) (b : Byte), 8 ≤ off → off < 8 + s.cfg.cap → s.cfg.qdir = .rx →
    ∃ t, takeInput (.pru (.writeByte off b)) s = .next t ∧ t = s.setShm t.shm ∧ t.shm.read off = b ∧
      ∀ x, x ≠ off → t.shm.read x = s.shm.read x) ∧
  (∀ (s : State) (off : Nat) (b : Byte), 8 ≤ off → off < 8 + s.cfg.cap → s.cfg.qdir = .tx →
    takeInput (.pru (.writeByte off b)) s = .refused .pruWritesDataTx) ∧
  (∀ (s : State) (off : Nat) (b : Byte), off < 4 →
    takeInput (.pru (.writeByte off b)) s = .refused .pruWritesLength) ∧
  (∀ (s : State) (off : Nat) (b : Byte), 4 ≤ off → off < 8 →
    takeInput (.pru (.writeByte off b)) s = .refused .pruPartialCursor)

/-! ### Block code (40_block_code.md) -/

/-- R102, R100: ENC completes when its checks pass; each triad of input bytes gives two codewords of 3 bytes, most
significant byte first; no other byte of MEM and nothing else changes. -/
def Obligations.EncWritesCodewords : Prop :=
  ∀ s : State, s.faulted = false → s.x2 % 3 = 0 → s.BuffersOk s.x2 (2 * s.x2) →
    ∃ t, exec .enc s = .next t ∧ t = s.setMem t.mem ∧
      (∀ k, k < s.x2 / 3 →
        let b := fun j => s.mem.read (s.x0 + 3 * k + j)
        t.mem.codewordAt (s.x1 + 6 * k) = Codec.gen s.cfg (Codec.split (b 0) (b 1) (b 2)).1 ∧
        t.mem.codewordAt (s.x1 + 6 * k + 3) = Codec.gen s.cfg (Codec.split (b 0) (b 1) (b 2)).2) ∧
      ∀ a, a < s.x1 ∨ s.x1 + 2 * s.x2 ≤ a → t.mem.read a = s.mem.read a

/-- R103, R105: DEC completes when its checks pass; each pair of codewords gives the 3 bytes of its two symbols, DIAG is the
sum of the distances mod 2^32; no other byte of MEM and nothing else changes. -/
def Obligations.DecWritesSymbols : Prop :=
  ∀ s : State, s.faulted = false → s.x2 % 6 = 0 → s.BuffersOk s.x2 (s.x2 / 2) →
    ∃ t, exec .dec s = .next t ∧ t = (s.setMem t.mem).setDiag t.diag ∧
      (∀ k, k < s.x2 / 6 →
        t.mem.readBytes (s.x1 + 3 * k) 3 =
          Codec.join (Codec.symOf s.cfg (Codec.decw s.cfg (s.mem.codewordAt (s.x0 + 6 * k))).1)
            (Codec.symOf s.cfg (Codec.decw s.cfg (s.mem.codewordAt (s.x0 + 6 * k + 3))).1)) ∧
      t.diag = BitVec.ofNat 32
        ((List.range (s.x2 / 3)).map fun j => (Codec.decw s.cfg (s.mem.codewordAt (s.x0 + 3 * j))).2).sum ∧
      ∀ a, a < s.x1 ∨ s.x1 + s.x2 / 2 ≤ a → t.mem.read a = s.mem.read a

/-- R104: DECW takes a codeword no codeword is nearer than, the only one where there is one, and its distance; whatever
DEC_TIE is. -/
def Obligations.DecwTakesNearestCodeword : Prop :=
  ∀ (p : Params) (r : Codeword),
    (∃ s, Codec.gen p s = (Codec.decw p r).1) ∧
    (∀ s, Codec.dist r (Codec.decw p r).1 ≤ Codec.dist r (Codec.gen p s)) ∧
    (Codec.decw p r).2 = Codec.dist r (Codec.decw p r).1 ∧
    ∀ c, Codec.nearest p r = [c] → (Codec.decw p r).1 = c

/-- R106: bounded correction, for every generator that meets R12. -/
def Obligations.BoundedCorrection : Prop :=
  ∀ p : Params, p.genOk = true → ∀ (s : Sym) (e : Codeword), Codec.popcount e ≤ 3 →
    Codec.decw p (Codec.gen p s ^^^ e) = (Codec.gen p s, Codec.popcount e) ∧
    Codec.symOf p (Codec.decw p (Codec.gen p s ^^^ e)).1 = s

/-- R107: ENC and then DEC of what it wrote gives the bytes back with DIAG = 0. -/
def Obligations.EncDecRoundTrip : Prop :=
  ∀ (s : State) (a b c n : Word), s.cfg.genOk = true → s.faulted = false → n.toNat % 3 = 0 → 2 * n.toNat < 2 ^ 32 →
    rangeOk s.cfg a.toNat n.toNat = true → rangeOk s.cfg b.toNat (2 * n.toNat) = true →
    rangeOk s.cfg c.toNat n.toNat = true → overlap a.toNat n.toNat b.toNat (2 * n.toNat) = false →
    overlap b.toNat (2 * n.toNat) c.toNat n.toNat = false →
    ∃ t, takeAll (programInputs [.enc a b n, .dec b c (2 * n)]) s = .next t ∧ t.faulted = false ∧
      t.mem.readBytes c.toNat n.toNat = s.mem.readBytes a.toNat n.toNat ∧ t.diag = 0

/-- R109: the symbol of codeword `j` depends only on the 3 input bytes of codeword `j`. -/
def Obligations.DecIsLocalToItsCodeword : Prop :=
  ∀ (s s' t t' : State) (j : Nat), s.faulted = false → s'.faulted = false → s.cfg = s'.cfg → s.a0 = s'.a0 →
    s.a1 = s'.a1 → s.a2 = s'.a2 → s.x2 % 6 = 0 → s.BuffersOk s.x2 (s.x2 / 2) → j < s.x2 / 3 →
    (∀ d, d < 3 → s.mem.read (s.x0 + 3 * j + d) = s'.mem.read (s.x0 + 3 * j + d)) →
    exec .dec s = .next t → exec .dec s' = .next t' →
    ∀ b, b < 12 → t.mem.bitAt s.x1 (12 * j + b) = t'.mem.bitAt s.x1 (12 * j + b)

/-- R110, R192 (second sentence): the bits 12k to 12k + 11 of ENC's input are symbol `k`, most significant first, and the
bits 24k to 24k + 23 of its output are that symbol's codeword. -/
def Obligations.EncBitStreams : Prop :=
  ∀ (s t : State) (k : Nat) (sym : Sym), s.faulted = false → s.x2 % 3 = 0 → s.BuffersOk s.x2 (2 * s.x2) →
    k < 2 * (s.x2 / 3) → (∀ j, j < 12 → sym.getLsbD (11 - j) = s.mem.bitAt s.x0 (12 * k + j)) →
    exec .enc s = .next t →
    ∀ j, j < 24 → t.mem.bitAt s.x1 (24 * k + j) = (Codec.gen s.cfg sym).getLsbD (23 - j)

/-- R204, R102, R103: which fault ENC and DEC take, with its FINFO: the length first, then the input range, the output
range, the overlap. -/
def Obligations.BlockCodeFaultOrder : Prop :=
  ∀ s : State, s.faulted = false →
    (s.x2 % 3 ≠ 0 → ∃ t, exec .enc s = .next t ∧ s.FaultedBy t .lenMult3 0x01 s.x2) ∧
    (s.x2 % 3 = 0 → rangeOk s.cfg s.x0 s.x2 = false →
      ∃ t, exec .enc s = .next t ∧ s.FaultedBy t .memRange 0x01 s.x0) ∧
    (s.x2 % 3 = 0 → rangeOk s.cfg s.x0 s.x2 = true → rangeOk s.cfg s.x1 (2 * s.x2) = false →
      ∃ t, exec .enc s = .next t ∧ s.FaultedBy t .memRange 0x01 s.x1) ∧
    (s.x2 % 3 = 0 → rangeOk s.cfg s.x0 s.x2 = true → rangeOk s.cfg s.x1 (2 * s.x2) = true →
      overlap s.x0 s.x2 s.x1 (2 * s.x2) = true →
      ∃ t, exec .enc s = .next t ∧ s.FaultedBy t .overlap 0x01 s.x1) ∧
    (s.x2 % 6 ≠ 0 → ∃ t, exec .dec s = .next t ∧ s.FaultedBy t .lenMult6 0x02 s.x2) ∧
    (s.x2 % 6 = 0 → rangeOk s.cfg s.x0 s.x2 = false →
      ∃ t, exec .dec s = .next t ∧ s.FaultedBy t .memRange 0x02 s.x0) ∧
    (s.x2 % 6 = 0 → rangeOk s.cfg s.x0 s.x2 = true → rangeOk s.cfg s.x1 (s.x2 / 2) = false →
      ∃ t, exec .dec s = .next t ∧ s.FaultedBy t .memRange 0x02 s.x1) ∧
    (s.x2 % 6 = 0 → rangeOk s.cfg s.x0 s.x2 = true → rangeOk s.cfg s.x1 (s.x2 / 2) = true →
      overlap s.x0 s.x2 s.x1 (s.x2 / 2) = true →
      ∃ t, exec .dec s = .next t ∧ s.FaultedBy t .overlap 0x02 s.x1)

/-! ### Line code (41_line_code.md) -/

/-- R120, R121: MENC completes when its checks pass; input bit `i` gives output bits `2i` and `2i + 1`, 0 the pair 10 and 1
the pair 01; no other byte of MEM and nothing else changes. -/
def Obligations.MencWritesPairs : Prop :=
  ∀ s : State, s.faulted = false → s.x3 = 2 * s.x2 → s.BuffersOk s.x2 s.x3 →
    ∃ t, exec .menc s = .next t ∧ t = s.setMem t.mem ∧
      (∀ i, i < 8 * s.x2 →
        t.mem.bitAt s.x1 (2 * i) = !s.mem.bitAt s.x0 i ∧ t.mem.bitAt s.x1 (2 * i + 1) = s.mem.bitAt s.x0 i) ∧
      ∀ a, a < s.x1 ∨ s.x1 + s.x3 ≤ a → t.mem.read a = s.mem.read a

/-- R122, R123: MDEC completes when its checks pass; pair `i` gives output bit `i`, the pairs 00 and 11 give M00 and M11;
DIAG is the number of those pairs mod 2^32; no other byte of MEM and nothing else changes. -/
def Obligations.MdecWritesBits : Prop :=
  ∀ s : State, s.faulted = false → s.x2 = 2 * s.x3 → s.BuffersOk s.x2 s.x3 →
    ∃ t, exec .mdec s = .next t ∧ t = (s.setMem t.mem).setDiag t.diag ∧
      (∀ i, i < 8 * s.x3 → t.mem.bitAt s.x1 i =
        match s.mem.bitAt s.x0 (2 * i), s.mem.bitAt s.x0 (2 * i + 1) with
        | true, false => false
        | false, true => true
        | false, false => s.cfg.m00
        | true, true => s.cfg.m11) ∧
      t.diag = BitVec.ofNat 32 ((List.range (8 * s.x3)).countP fun i =>
        s.mem.bitAt s.x0 (2 * i) == s.mem.bitAt s.x0 (2 * i + 1)) ∧
      ∀ a, a < s.x1 ∨ s.x1 + s.x3 ≤ a → t.mem.read a = s.mem.read a

/-- R124: MENC and then MDEC of what it wrote gives the bytes back with DIAG = 0, for every M00 and M11. -/
def Obligations.MencMdecRoundTrip : Prop :=
  ∀ (s : State) (a b c n : Word), s.faulted = false → 2 * n.toNat < 2 ^ 32 →
    rangeOk s.cfg a.toNat n.toNat = true → rangeOk s.cfg b.toNat (2 * n.toNat) = true →
    rangeOk s.cfg c.toNat n.toNat = true → overlap a.toNat n.toNat b.toNat (2 * n.toNat) = false →
    overlap b.toNat (2 * n.toNat) c.toNat n.toNat = false →
    ∃ t, takeAll (programInputs [.menc a b n (2 * n), .mdec b c (2 * n) n]) s = .next t ∧ t.faulted = false ∧
      t.mem.readBytes c.toNat n.toNat = s.mem.readBytes a.toNat n.toNat ∧ t.diag = 0

/-- R125: every byte MENC writes has exactly four 1 bits, and no run of equal bits in its output is longer than 2; no byte
is 0x00 or 0xFF. -/
def Obligations.MencTransitionDensity : Prop :=
  ∀ s t : State, s.faulted = false → s.x3 = 2 * s.x2 → s.BuffersOk s.x2 s.x3 → exec .menc s = .next t →
    (∀ j, j < s.x3 → Codec.popcount (t.mem.read (s.x1 + j)) = 4 ∧ t.mem.read (s.x1 + j) ≠ 0x00 ∧
      t.mem.read (s.x1 + j) ≠ 0xFF) ∧
    ∀ i, i + 2 < 8 * s.x3 →
      ¬ (t.mem.bitAt s.x1 i = t.mem.bitAt s.x1 (i + 1) ∧ t.mem.bitAt s.x1 (i + 1) = t.mem.bitAt s.x1 (i + 2))

/-- R126: MENC and MDEC use no code table and no queue state: with another generator, SHM, ICUR, RESULT and DIAG before
them, they leave the same MEM and the same STATUS, and MDEC the same DIAG. -/
def Obligations.LineCodeIndependentOfBlockCode : Prop :=
  ∀ (s t t' : State) (gen : Vector Codeword 12) (shm : Memory) (icur result diag : Word), s.faulted = false →
    let s' : State :=
      { s with cfg := { s.cfg with gen := gen }, shm := shm, icur := icur, result := result, diag := diag }
    (exec .menc s = .next t → exec .menc s' = .next t' → t'.mem = t.mem ∧ t'.status = t.status ∧ t'.finfo = t.finfo) ∧
    (exec .mdec s = .next t → exec .mdec s' = .next t' → t'.mem = t.mem ∧ t'.status = t.status ∧ t'.finfo = t.finfo ∧
      (t.faulted = false → t'.diag = t.diag))

/-- R204, R121, R122: which fault MENC and MDEC take, with its FINFO. -/
def Obligations.LineCodeFaultOrder : Prop :=
  ∀ s : State, s.faulted = false →
    (s.x3 ≠ 2 * s.x2 → ∃ t, exec .menc s = .next t ∧ s.FaultedBy t .manchLen 0x03 s.x3) ∧
    (s.x3 = 2 * s.x2 → rangeOk s.cfg s.x0 s.x2 = false →
      ∃ t, exec .menc s = .next t ∧ s.FaultedBy t .memRange 0x03 s.x0) ∧
    (s.x3 = 2 * s.x2 → rangeOk s.cfg s.x0 s.x2 = true → rangeOk s.cfg s.x1 s.x3 = false →
      ∃ t, exec .menc s = .next t ∧ s.FaultedBy t .memRange 0x03 s.x1) ∧
    (s.x3 = 2 * s.x2 → rangeOk s.cfg s.x0 s.x2 = true → rangeOk s.cfg s.x1 s.x3 = true →
      overlap s.x0 s.x2 s.x1 s.x3 = true → ∃ t, exec .menc s = .next t ∧ s.FaultedBy t .overlap 0x03 s.x1) ∧
    (s.x2 ≠ 2 * s.x3 → ∃ t, exec .mdec s = .next t ∧ s.FaultedBy t .manchLen 0x04 s.x3) ∧
    (s.x2 = 2 * s.x3 → rangeOk s.cfg s.x0 s.x2 = false →
      ∃ t, exec .mdec s = .next t ∧ s.FaultedBy t .memRange 0x04 s.x0) ∧
    (s.x2 = 2 * s.x3 → rangeOk s.cfg s.x0 s.x2 = true → rangeOk s.cfg s.x1 s.x3 = false →
      ∃ t, exec .mdec s = .next t ∧ s.FaultedBy t .memRange 0x04 s.x1) ∧
    (s.x2 = 2 * s.x3 → rangeOk s.cfg s.x0 s.x2 = true → rangeOk s.cfg s.x1 s.x3 = true →
      overlap s.x0 s.x2 s.x1 s.x3 = true → ∃ t, exec .mdec s = .next t ∧ s.FaultedBy t .overlap 0x04 s.x1)

/-! ### Framer (42_framer.md) -/

/-- R140, R141, R144: PKT completes when its checks pass; header, whole data bytes, zero padding; no other byte of MEM and
nothing else changes. -/
def Obligations.PktWritesFrame : Prop :=
  ∀ s : State, s.faulted = false → s.x2 ≤ 8 * s.cfg.n → s.BuffersOk (Codec.ceil8 s.x2) (s.cfg.n + 2) →
    ∃ t, exec .pkt s = .next t ∧ t = s.setMem t.mem ∧
      t.mem.read s.x1 = BitVec.ofNat 8 s.x2 ∧ t.mem.read (s.x1 + 1) = BitVec.ofNat 8 (s.x2 / 256) ∧
      (∀ j, j < Codec.ceil8 s.x2 → t.mem.read (s.x1 + 2 + j) = s.mem.read (s.x0 + j)) ∧
      (∀ j, Codec.ceil8 s.x2 ≤ j → j < s.cfg.n → t.mem.read (s.x1 + 2 + j) = 0x00) ∧
      ∀ a, a < s.x1 ∨ s.x1 + (s.cfg.n + 2) ≤ a → t.mem.read a = s.mem.read a

/-- R142: DEPKT completes when its checks pass; the payload's whole bytes, RESULT the bit length; no other byte of MEM and
nothing else changes. -/
def Obligations.DepktWritesPayload : Prop :=
  ∀ (s : State) (h : Nat), h = (s.mem.read s.x0).toNat + 256 * (s.mem.read (s.x0 + 1)).toNat →
    s.faulted = false → rangeOk s.cfg s.x0 (s.cfg.n + 2) = true → h ≤ 8 * s.cfg.n →
    rangeOk s.cfg s.x1 (Codec.ceil8 h) = true → overlap s.x0 (s.cfg.n + 2) s.x1 (Codec.ceil8 h) = false →
    ∃ t, exec .depkt s = .next t ∧ t = (s.setMem t.mem).setResult (BitVec.ofNat 32 h) ∧
      (∀ j, j < Codec.ceil8 h → t.mem.read (s.x1 + j) = s.mem.read (s.x0 + 2 + j)) ∧
      ∀ a, a < s.x1 ∨ s.x1 + Codec.ceil8 h ≤ a → t.mem.read a = s.mem.read a

/-- R143: PKT and then DEPKT of the frame gives the whole bytes back and the bit length. -/
def Obligations.PktDepktRoundTrip : Prop :=
  ∀ (s : State) (d f e b : Word), s.faulted = false → b.toNat ≤ 8 * s.cfg.n → 8 * s.cfg.n ≤ 65535 →
    rangeOk s.cfg d.toNat (Codec.ceil8 b.toNat) = true → rangeOk s.cfg f.toNat (s.cfg.n + 2) = true →
    rangeOk s.cfg e.toNat (Codec.ceil8 b.toNat) = true →
    overlap d.toNat (Codec.ceil8 b.toNat) f.toNat (s.cfg.n + 2) = false →
    overlap f.toNat (s.cfg.n + 2) e.toNat (Codec.ceil8 b.toNat) = false →
    ∃ t, takeAll (programInputs [.pkt d f b, .depkt f e]) s = .next t ∧ t.faulted = false ∧ t.result = b ∧
      t.mem.readBytes e.toNat (Codec.ceil8 b.toNat) = s.mem.readBytes d.toNat (Codec.ceil8 b.toNat)

/-- R204, R141, R142: which fault PKT and DEPKT take, with its FINFO; DEPKT checks the frame range before the header. -/
def Obligations.FramerFaultOrder : Prop :=
  ∀ (s : State) (h nb : Nat), s.faulted = false →
    h = (s.mem.read s.x0).toNat + 256 * (s.mem.read (s.x0 + 1)).toNat → nb = (s.x2 + 7) / 8 →
    (8 * s.cfg.n < s.x2 → ∃ t, exec .pkt s = .next t ∧ s.FaultedBy t .bitlen 0x05 s.x2) ∧
    (s.x2 ≤ 8 * s.cfg.n → rangeOk s.cfg s.x0 nb = false →
      ∃ t, exec .pkt s = .next t ∧ s.FaultedBy t .memRange 0x05 s.x0) ∧
    (s.x2 ≤ 8 * s.cfg.n → rangeOk s.cfg s.x0 nb = true → rangeOk s.cfg s.x1 (s.cfg.n + 2) = false →
      ∃ t, exec .pkt s = .next t ∧ s.FaultedBy t .memRange 0x05 s.x1) ∧
    (s.x2 ≤ 8 * s.cfg.n → rangeOk s.cfg s.x0 nb = true → rangeOk s.cfg s.x1 (s.cfg.n + 2) = true →
      overlap s.x0 nb s.x1 (s.cfg.n + 2) = true → ∃ t, exec .pkt s = .next t ∧ s.FaultedBy t .overlap 0x05 s.x1) ∧
    (rangeOk s.cfg s.x0 (s.cfg.n + 2) = false → ∃ t, exec .depkt s = .next t ∧ s.FaultedBy t .memRange 0x06 s.x0) ∧
    (rangeOk s.cfg s.x0 (s.cfg.n + 2) = true → 8 * s.cfg.n < h →
      ∃ t, exec .depkt s = .next t ∧ s.FaultedBy t .hdrBitlen 0x06 h) ∧
    (rangeOk s.cfg s.x0 (s.cfg.n + 2) = true → h ≤ 8 * s.cfg.n → rangeOk s.cfg s.x1 ((h + 7) / 8) = false →
      ∃ t, exec .depkt s = .next t ∧ s.FaultedBy t .memRange 0x06 s.x1) ∧
    (rangeOk s.cfg s.x0 (s.cfg.n + 2) = true → h ≤ 8 * s.cfg.n → rangeOk s.cfg s.x1 ((h + 7) / 8) = true →
      overlap s.x0 (s.cfg.n + 2) s.x1 ((h + 7) / 8) = true →
      ∃ t, exec .depkt s = .next t ∧ s.FaultedBy t .overlap 0x06 s.x1)

/-! ### ByteQueue (43_bytequeue.md) -/

/-- R161: PUSH with no PRU step inside it: the slot at ICUR, LENGTH and ICUR, and nothing else. -/
def Obligations.PushWritesSlotLengthCursor : Prop :=
  ∀ s : State, s.faulted = false → s.mid = [] → rangeOk s.cfg s.x0 s.cfg.qf = true →
    ∃ t, exec .push s = .next t ∧ t = (s.setShm t.shm).setIcur t.icur ∧
      (∀ j, j < s.cfg.qf → t.shm.read (8 + s.icur.toNat + j) = s.mem.read (s.x0 + j)) ∧
      t.lengthField = BitVec.ofNat 32 (s.lengthField.toNat + s.cfg.qf) ∧
      t.icur = BitVec.ofNat 32 ((s.icur.toNat + s.cfg.qf) % s.cfg.cap) ∧
      ∀ x, 4 ≤ x → x < 8 + s.icur.toNat ∨ 8 + s.icur.toNat + s.cfg.qf ≤ x → t.shm.read x = s.shm.read x

/-- R60, R54: PUSH with any PRU steps inside it: LENGTH and ICUR as without them; each slot byte holds the core's byte or
one the PRU wrote meanwhile; every other byte that the PRU did not write is unchanged. -/
def Obligations.PushUnderPruSteps : Prop :=
  ∀ s : State, s.faulted = false → rangeOk s.cfg s.x0 s.cfg.qf = true →
    ∃ t, exec .push s = .next t ∧
      t = { s with shm := t.shm, icur := t.icur, mid := [], pruSeen := t.pruSeen } ∧
      (∀ j, j < s.cfg.qf → t.shm.read (8 + s.icur.toNat + j) = s.mem.read (s.x0 + j) ∨
        t.shm.read (8 + s.icur.toNat + j) ∈ byteWrites (8 + s.icur.toNat + j) s.mid) ∧
      t.lengthField = BitVec.ofNat 32 (s.lengthField.toNat + s.cfg.qf) ∧
      t.icur = BitVec.ofNat 32 ((s.icur.toNat + s.cfg.qf) % s.cfg.cap) ∧
      ∀ x, 4 ≤ x → x < 8 + s.icur.toNat ∨ 8 + s.icur.toNat + s.cfg.qf ≤ x → x ∉ pruWrites s.mid →
        t.shm.read x = s.shm.read x

/-- R162, R61: POP with any PRU steps inside it: each MEM byte gets the slot's byte or one the PRU wrote there meanwhile,
the slot's own byte when QDIR = TX; ICUR advances; LENGTH and every SHM byte the PRU did not write are unchanged. -/
def Obligations.PopCopiesSlot : Prop :=
  ∀ s : State, s.faulted = false → rangeOk s.cfg s.x0 s.cfg.qf = true →
    ∃ t, exec .pop s = .next t ∧
      t = { s with mem := t.mem, shm := t.shm, icur := t.icur, mid := [], pruSeen := t.pruSeen } ∧
      (∀ j, j < s.cfg.qf → t.mem.read (s.x0 + j) = s.shm.read (8 + s.icur.toNat + j) ∨
        t.mem.read (s.x0 + j) ∈ byteWrites (8 + s.icur.toNat + j) s.mid) ∧
      (s.cfg.qdir = .tx → ∀ j, j < s.cfg.qf → t.mem.read (s.x0 + j) = s.shm.read (8 + s.icur.toNat + j)) ∧
      (∀ a, a < s.x0 ∨ s.x0 + s.cfg.qf ≤ a → t.mem.read a = s.mem.read a) ∧
      t.icur = BitVec.ofNat 32 ((s.icur.toNat + s.cfg.qf) % s.cfg.cap) ∧
      t.lengthField = s.lengthField ∧
      ∀ x, x ∉ pruWrites s.mid → t.shm.read x = s.shm.read x

/-- R163: PEEK gives the SHM offset of the slot at the cursor, and changes nothing but RESULT. -/
def Obligations.PeekGivesSlotOffset : Prop :=
  ∀ s : State, s.faulted = false →
    exec .peek s = .next (s.setResult (BitVec.ofNat 32 (8 + s.icur.toNat))) ∧
    (s.icur.toNat < s.cfg.cap → 8 + s.cfg.cap ≤ 2 ^ 32 →
      (BitVec.ofNat 32 (8 + s.icur.toNat)).toNat = 8 + s.icur.toNat)

/-- R164, R54 (b): PRUCUR gives HWCUR - BIAS mod 2^32 for the value HWCUR held before the command, or one the PRU wrote
during it, whole; nothing but RESULT and what the PRU wrote changes. -/
def Obligations.PrucurTranslatesCursor : Prop :=
  ∀ s : State, s.faulted = false →
    ∃ t raw, exec .prucur s = .next t ∧ (raw = s.hwcur ∨ raw ∈ cursorWrites s.mid) ∧
      t.result = raw - BitVec.ofNat 32 s.cfg.bias ∧ (raw = BitVec.ofNat 32 s.cfg.bias → t.result = 0) ∧
      t = { s with result := t.result, shm := t.shm, mid := [], pruSeen := t.pruSeen } ∧
      (s.mid = [] → t = s.setResult (s.hwcur - BitVec.ofNat 32 s.cfg.bias)) ∧
      ∀ x, x ∉ pruWrites s.mid → t.shm.read x = s.shm.read x

/-- R170: the cursor translation vector of the source, with BIAS = 5; and R164's wrap for a raw value below BIAS, where the
source gives no value. -/
def Obligations.CursorTranslationVector : Prop :=
  ∀ s : State, s.faulted = false → s.mid = [] → s.cfg.bias = 5 →
    (s.hwcur = 5 → exec .prucur s = .next (s.setResult 0)) ∧
    (s.hwcur = 97 → exec .prucur s = .next (s.setResult 92)) ∧
    (s.hwcur = 189 → exec .prucur s = .next (s.setResult 184)) ∧
    (s.hwcur = 281 → exec .prucur s = .next (s.setResult 276)) ∧
    (s.hwcur = 0 → exec .prucur s = .next (s.setResult 0xFFFFFFFB))

/-- R165: GETLEN gives LENGTH, whatever PRU steps fall inside it; nothing but RESULT and what the PRU wrote changes. -/
def Obligations.GetlenGivesLength : Prop :=
  ∀ s : State, s.faulted = false →
    ∃ t, exec .getlen s = .next t ∧ t.result = s.lengthField ∧ t.lengthField = s.lengthField ∧
      t = { s with result := t.result, shm := t.shm, mid := [], pruSeen := t.pruSeen } ∧
      (s.mid = [] → t = s.setResult s.lengthField) ∧
      ∀ x, x ∉ pruWrites s.mid → t.shm.read x = s.shm.read x

/-- R166, R51: SETLEN writes LENGTH, byte `k` holding bits 8k + 7 to 8k of A0; no SHM byte but those and what the PRU wrote
changes. -/
def Obligations.SetlenWritesLength : Prop :=
  ∀ s : State, s.faulted = false →
    ∃ t, exec .setlen s = .next t ∧ t.lengthField = s.a0 ∧
      (∀ k, k < 4 → t.shm.read k = s.a0.extractLsb' (8 * k) 8) ∧
      t = { s with shm := t.shm, mid := [], pruSeen := t.pruSeen } ∧
      ∀ x, 4 ≤ x → x ∉ pruWrites s.mid → t.shm.read x = s.shm.read x

/-- R167: the cursor after any commands each of which is a PUSH or a POP, and LENGTH after pushes. -/
def Obligations.CursorProgression : Prop :=
  ∀ (s : State) (l : List Instr), s.Inv → s.faulted = false → rangeOk s.cfg s.x0 s.cfg.qf = true →
    (∀ i ∈ l, i = .push ∨ i = .pop) →
    ∃ t, execAll l s = .next t ∧
      t.icur.toNat = (s.icur.toNat + l.length * s.cfg.qf) % s.cfg.cap ∧
      t.lengthField = BitVec.ofNat 32 (s.lengthField.toNat + l.count .push * s.cfg.qf)

/-- R168: after pushes of the frames at the MEM addresses `srcs` from ICUR = 0, each slot holds the most recent frame that
went there. -/
def Obligations.OverwriteOnWrap : Prop :=
  ∀ (s : State) (srcs : List Word), s.Inv → s.faulted = false → s.icur = 0 →
    (∀ a ∈ srcs, rangeOk s.cfg a.toNat s.cfg.qf = true) →
    ∃ t, takeAll (programInputs (srcs.map .push)) s = .next t ∧ t.faulted = false ∧
      ∀ (i : Nat) (hi : i < srcs.length), srcs.length ≤ i + s.cfg.cap / s.cfg.qf →
        t.shm.readBytes (8 + i % (s.cfg.cap / s.cfg.qf) * s.cfg.qf) s.cfg.qf =
          s.mem.readBytes (srcs[i].toNat) s.cfg.qf

/-- R169: pushing `k` frames into a queue of `c` slots from ICUR = 0, a reset, and popping `k mod c` frames returns the last
`k mod c` frames pushed. -/
def Obligations.PopsAfterResetReturnLastFrames : Prop :=
  ∀ (s : State) (srcs : List Word) (d k c : Nat), s.Inv → s.faulted = false → s.icur = 0 →
    k = srcs.length → c = s.cfg.cap / s.cfg.qf → c < k →
    (∀ a ∈ srcs, rangeOk s.cfg a.toNat s.cfg.qf = true) → d + (k % c) * s.cfg.qf ≤ s.cfg.memSize →
    ∃ t, takeAll (programInputs (srcs.map .push ++ [.reset] ++
        (List.range (k % c)).map fun j => .pop (BitVec.ofNat 32 (d + j * s.cfg.qf)))) s = .next t ∧
      t.faulted = false ∧
      ∀ (j : Nat), j < k % c → ∀ a, srcs[c * (k / c) + j]? = some a →
        t.mem.readBytes (d + j * s.cfg.qf) s.cfg.qf = s.mem.readBytes a.toNat s.cfg.qf

/-- R60: the order in which PUSH and POP make their SHM accesses does not show once they have completed. -/
def Obligations.AccessOrderDoesNotShow : Prop :=
  ∀ (s : State) (order : List Nat), s.Inv → rangeOk s.cfg s.x0 s.cfg.qf = true →
    exec .push (s.setMid (order.map .core)) = mapNext (fun t => t.setMid (if s.faulted then order.map .core else []))
      (exec .push s) ∧
    exec .pop (s.setMid (order.map .core)) = mapNext (fun t => t.setMid (if s.faulted then order.map .core else []))
      (exec .pop s)

/-- R60, R236: a PRU that reads during PUSH may see the new LENGTH before the new data. -/
def Obligations.PruMaySeeLengthBeforeData : Prop :=
  ∀ s : State, s.Inv → s.faulted = false → rangeOk s.cfg s.x0 s.cfg.qf = true →
    ∃ sched t, exec .push (s.setMid sched) = .next t ∧ midRefusal s.cfg sched = none ∧
      t.pruSeen = (8 + s.icur.toNat, s.shm.read (8 + s.icur.toNat)) ::
        (0, BitVec.ofNat 8 (s.lengthField.toNat + s.cfg.qf)) :: s.pruSeen

/-- R204, R161, R162, R190, R191: the MEM_RANGE fault of PUSH, POP, BGET and BSET, with its FINFO. -/
def Obligations.QueueAndBitRangeFaults : Prop :=
  ∀ s : State, s.faulted = false →
    (rangeOk s.cfg s.x0 s.cfg.qf = false →
      (∃ t, exec .push s = .next t ∧ s.FaultedBy t .memRange 0x07 s.x0) ∧
      (∃ t, exec .pop s = .next t ∧ s.FaultedBy t .memRange 0x08 s.x0)) ∧
    (s.cfg.memSize ≤ s.x0 + s.x1 / 8 →
      (∃ t, exec .bget s = .next t ∧ s.FaultedBy t .memRange 0x0D (s.x0 + s.x1 / 8)) ∧
      (∃ t, exec .bset s = .next t ∧ s.FaultedBy t .memRange 0x0E (s.x0 + s.x1 / 8)))

/-! ### BitOps (44_bitops.md) -/

/-- R190: BGET gives the bit, 0 or 1, and changes nothing but RESULT. -/
def Obligations.BgetReadsBit : Prop :=
  ∀ s : State, s.faulted = false → s.x0 + s.x1 / 8 < s.cfg.memSize →
    exec .bget s = .next (s.setResult (if s.mem.bitAt s.x0 s.x1 then 1 else 0))

/-- R191: BSET writes `A2[0]` to the bit; the other 7 bits of the byte, every other byte and everything else stand. -/
def Obligations.BsetWritesBit : Prop :=
  ∀ s : State, s.faulted = false → s.x0 + s.x1 / 8 < s.cfg.memSize →
    ∃ t, exec .bset s = .next t ∧ t = s.setMem t.mem ∧ t.mem.bitAt s.x0 s.x1 = s.a2.getLsbD 0 ∧
      (∀ j, j < 8 → j ≠ s.x1 % 8 → Codec.bitOf (t.mem.read (s.x0 + s.x1 / 8)) j =
        Codec.bitOf (s.mem.read (s.x0 + s.x1 / 8)) j) ∧
      ∀ a, a ≠ s.x0 + s.x1 / 8 → t.mem.read a = s.mem.read a

/-- R192 (first sentence): BGET after BSET returns the bit set, and at every other index what it returned before. -/
def Obligations.BsetThenBget : Prop :=
  ∀ (s : State) (base i j v : Word), s.faulted = false → base.toNat + i.toNat / 8 < s.cfg.memSize →
    base.toNat + j.toNat / 8 < s.cfg.memSize →
    ∃ t u, takeAll (programInputs [.bset base i v, .bget base j]) s = .next t ∧
      takeAll (programInputs [.bget base j]) s = .next u ∧
      (j = i → t.result = (v.extractLsb' 0 1).setWidth 32) ∧ (j ≠ i → t.result = u.result)

/-! ### Faults and the whole machine (60_exceptions.md, 10_state.md) -/

/-- R203: while FAULT = 1 a CMD write performs nothing, whatever its word; the PRU steps of the write still happen. -/
def Obligations.FaultDropsCommands : Prop :=
  ∀ (s : State) (w : Word) (i : Instr), s.faulted = true → command w s = .next s ∧ exec i s = .next s ∧
    ∀ mid, midRefusal s.cfg mid = none → takeInput (.hostWrite 0 4 w mid) s = .next (drainMid (s.setMid mid))

/-- R203: under a latched fault, no inputs other than reset change STATUS, FINFO, RESULT, DIAG, ICUR or LENGTH; MEM holds
only what the host itself wrote. -/
def Obligations.FaultKeptUntilReset : Prop :=
  ∀ (l : List Input) (s t : State), s.faulted = true → (∀ inp ∈ l, assertsReset inp = false) → takeAll l s = .next t →
    t.status = s.status ∧ t.finfo = s.finfo ∧ t.result = s.result ∧ t.diag = s.diag ∧ t.icur = s.icur ∧
    t.cfg = s.cfg ∧ t.lengthField = s.lengthField ∧ t.mem = memWritesOnly s.mem l

/-- R41, the column "written by": every command completes, and writes only what its row of the table lets it write. -/
def Obligations.OnlyListedCommandsWrite : Prop :=
  ∀ (i : Instr) (s : State), ∃ t, exec i s = .next t ∧
    t.cfg = s.cfg ∧ t.a0 = s.a0 ∧ t.a1 = s.a1 ∧ t.a2 = s.a2 ∧ t.a3 = s.a3 ∧
    t.inputs = s.inputs ∧ t.hostData = s.hostData ∧ t.hostBytes = s.hostBytes ∧
    (i ∉ [.depkt, .peek, .prucur, .getlen, .bget] → t.result = s.result) ∧
    (t.faulted = false → t.status = s.status ∧ t.finfo = s.finfo) ∧
    (i ∉ [.dec, .mdec] → t.diag = s.diag) ∧
    (i ∉ [.push, .pop] → t.icur = s.icur) ∧
    (i ∉ [.enc, .dec, .menc, .mdec, .pkt, .depkt, .pop, .bset] → t.mem = s.mem) ∧
    (i ∉ [.push, .setlen] → t.lengthField = s.lengthField) ∧
    (cursorWrites s.mid = [] → t.hwcur = s.hwcur) ∧
    (i ≠ .push → ∀ x, 8 ≤ x → x ∉ pruWrites s.mid → t.shm.read x = s.shm.read x)

/-- R76: a command's behaviour does not depend on the argument registers it does not read, nor BSET's on `A2[31:1]`. -/
def Obligations.UnreadArgumentsDoNotMatter : Prop :=
  (∀ (i : Instr) (s : State) (k : Fin 4) (v : Word), readsArg i k.val = false →
    exec i (s.withArg k v) = mapNext (fun t => t.withArg k v) (exec i s)) ∧
  ∀ (s : State) (v : Word), v.getLsbD 0 = s.a2.getLsbD 0 →
    exec .bset (s.withArg 2 v) = mapNext (fun t => t.withArg 2 v) (exec .bset s)

/-- R205: whether a command faults, and how, does not depend on the bytes of MEM or SHM, for every command but DEPKT. -/
def Obligations.NoFaultFromData : Prop :=
  ∀ (i : Instr) (s t t' : State) (m h : Memory), i ≠ .depkt → exec i s = .next t →
    exec i ((s.setMem m).setShm h) = .next t' → t'.status = t.status ∧ t'.finfo = t.finfo
end

