-- ==== Sys2Proof/Laws/Codec.lean ====
section
/-! SUPPORT. The laws of the codec functions: lengths, bytes and codewords, the linearity of GEN, and DECW where one codeword
is nearer than all others. -/

namespace Sys2Proof.Codec

@[simp] theorem toLE_length (n v : Nat) : (toLE n v).length = n := by
  induction n generalizing v with
  | zero => rfl
  | succ n ih => simp [toLE, ih]

@[simp] theorem toBE_length (n v : Nat) : (toBE n v).length = n := by simp [toBE]

@[simp] theorem codewordBytes_length (c : Codeword) : (codewordBytes c).length = 3 := by simp [codewordBytes]

@[simp] theorem join_length (s0 s1 : Sym) : (join s0 s1).length = 3 := rfl

theorem codewordBytes_eq (c : Codeword) :
    codewordBytes c = [BitVec.ofNat 8 (c.toNat / 65536), BitVec.ofNat 8 (c.toNat / 256), BitVec.ofNat 8 c.toNat] := by
  simp [codewordBytes, toBE, toLE, Nat.div_div_eq_div_mul]

/-- The 3 bytes of a codeword read back as that codeword. -/
theorem codewordOf_codewordBytes (c : Codeword) (b0 b1 b2 : Byte) (h : codewordBytes c = [b0, b1, b2]) :
    codewordOf b0 b1 b2 = c := by
  rw [codewordBytes_eq] at h
  simp only [List.cons.injEq, and_true] at h
  obtain ⟨rfl, rfl, rfl⟩ := h
  apply BitVec.eq_of_toNat_eq
  have := c.isLt
  simp only [codewordOf, be, List.reverse_cons, List.reverse_nil, List.nil_append,
    List.cons_append, le, BitVec.toNat_ofNat]
  omega

theorem split_fst_toNat (b0 b1 b2 : Byte) : (split b0 b1 b2).1.toNat = b0.toNat * 16 + b1.toNat / 16 := by
  have := b1.isLt
  have e : b1.toNat >>> 4 % 16 = b1.toNat / 16 := by rw [Nat.shiftRight_eq_div_pow]; omega
  show (b0 ++ b1.extractLsb' 4 4).toNat = _
  rw [BitVec.toNat_append, BitVec.extractLsb'_toNat, e, Nat.shiftLeft_eq, ← Nat.shiftLeft_eq]
  rw [← Nat.shiftLeft_add_eq_or_of_lt (by omega : b1.toNat / 16 < 2 ^ 4), Nat.shiftLeft_eq]

theorem split_snd_toNat (b0 b1 b2 : Byte) : (split b0 b1 b2).2.toNat = b1.toNat % 16 * 256 + b2.toNat := by
  show (b1.extractLsb' 0 4 ++ b2).toNat = _
  rw [BitVec.toNat_append, BitVec.extractLsb'_toNat, ← Nat.shiftLeft_add_eq_or_of_lt b2.isLt, Nat.shiftLeft_eq]
  simp

theorem join_toNat (s0 s1 : Sym) : (join s0 s1).map BitVec.toNat =
    [s0.toNat / 16, s0.toNat % 16 * 16 + s1.toNat / 256, s1.toNat % 256] := by
  have h0 := s0.isLt
  have h1 := s1.isLt
  have e1 : s0.toNat >>> 4 % 2 ^ 8 = s0.toNat / 16 := by rw [Nat.shiftRight_eq_div_pow]; omega
  have e2 : s1.toNat >>> 8 % 2 ^ 4 = s1.toNat / 256 := by rw [Nat.shiftRight_eq_div_pow]; omega
  have e3 : (s0.extractLsb' 0 4 ++ s1.extractLsb' 8 4).toNat = s0.toNat % 16 * 16 + s1.toNat / 256 := by
    rw [BitVec.toNat_append, BitVec.extractLsb'_toNat, BitVec.extractLsb'_toNat, e2,
      ← Nat.shiftLeft_add_eq_or_of_lt (by omega : s1.toNat / 256 < 2 ^ 4), Nat.shiftLeft_eq]
    simp
  simp only [join, List.map_cons, List.map_nil, List.cons.injEq, and_true]
  refine ⟨?_, e3, ?_⟩
  · rw [BitVec.extractLsb'_toNat, e1]
  · rw [BitVec.extractLsb'_toNat]; simp

/-- `JOIN(SPLIT(b0, b1, b2)) = (b0, b1, b2)` (40_block_code.md R100). -/
theorem join_split (b0 b1 b2 : Byte) : join (split b0 b1 b2).1 (split b0 b1 b2).2 = [b0, b1, b2] := by
  have h : (join (split b0 b1 b2).1 (split b0 b1 b2).2).map BitVec.toNat = [b0, b1, b2].map BitVec.toNat := by
    have h0 := b0.isLt
    have h1 := b1.isLt
    have h2 := b2.isLt
    rw [join_toNat, split_fst_toNat, split_snd_toNat]
    simp only [List.map_cons, List.map_nil, List.cons.injEq, and_true]
    omega
  exact List.map_injective_iff.2 (fun x y e => BitVec.eq_of_toNat_eq e) h

@[simp] theorem encodeBytes_length (p : Params) (bs : List Byte) : (encodeBytes p bs).length = 6 * (bs.length / 3) := by
  induction bs using encodeBytes.induct with
  | case1 b0 b1 b2 rest ih => simp [encodeBytes, ih]; omega
  | case2 bs h =>
    have : bs.length < 3 := by
      match bs, h with
      | [], _ => simp
      | [_], _ => simp
      | [_, _], _ => simp
      | b0 :: b1 :: b2 :: rest, h => exact absurd rfl (h b0 b1 b2 rest)
    rw [encodeBytes]
    · simp; omega
    · exact h

@[simp] theorem decodeBytes_length (p : Params) (bs : List Byte) : (decodeBytes p bs).1.length = 3 * (bs.length / 6) := by
  induction bs using decodeBytes.induct p with
  | case1 b0 b1 b2 b3 b4 b5 rest ih => simp [decodeBytes, ih]; omega
  | case2 bs h =>
    have : bs.length < 6 := by
      match bs, h with
      | [], _ => simp
      | [_], _ => simp
      | [_, _], _ => simp
      | [_, _, _], _ => simp
      | [_, _, _, _], _ => simp
      | [_, _, _, _, _], _ => simp
      | b0 :: b1 :: b2 :: b3 :: b4 :: b5 :: rest, h => exact absurd rfl (h b0 b1 b2 b3 b4 b5 rest)
    rw [decodeBytes]
    · simp; omega
    · exact h

@[simp] theorem lineEncode_length (bs : List Byte) : (lineEncode bs).length = 2 * bs.length := by
  induction bs with
  | nil => rfl
  | cons b bs ih => simp [lineEncode, ih]; omega

@[simp] theorem lineDecode_length (p : Params) (bs : List Byte) : (lineDecode p bs).1.length = bs.length / 2 := by
  induction bs using lineDecode.induct p with
  | case1 b0 b1 rest ih => simp [lineDecode, ih]; omega
  | case2 bs h =>
    match bs, h with
    | [], _ => rfl
    | [_], _ => simp [lineDecode]
    | b0 :: b1 :: rest, h => exact absurd rfl (h b0 b1 rest)

/-- `GEN` is GF(2)-linear (00_scope.md R12 (a)). -/
theorem gen_xor (p : Params) (s t : Sym) : gen p (s ^^^ t) = gen p s ^^^ gen p t := by
  have step : ∀ (l : List Nat) (c d : Codeword),
      l.foldl (fun c i => if (s ^^^ t).getLsbD (11 - i) then c ^^^ genRow p i else c) (c ^^^ d) =
      l.foldl (fun c i => if s.getLsbD (11 - i) then c ^^^ genRow p i else c) c ^^^
      l.foldl (fun c i => if t.getLsbD (11 - i) then c ^^^ genRow p i else c) d := by
    intro l
    induction l with
    | nil => intro c d; rfl
    | cons i l ih =>
      intro c d
      simp only [List.foldl_cons]
      rw [← ih]
      congr 1
      rw [BitVec.getLsbD_xor]
      have hx : genRow p i ^^^ genRow p i = 0#24 := BitVec.xor_self
      cases s.getLsbD (11 - i) <;> cases t.getLsbD (11 - i) <;>
        simp only [Bool.false_xor, Bool.xor_false, Bool.true_xor, Bool.not_true, Bool.false_eq_true,
          if_false, if_true]
      · rw [BitVec.xor_assoc]
      · rw [BitVec.xor_assoc, BitVec.xor_assoc, BitVec.xor_comm (genRow p i) d]
      · rw [BitVec.xor_assoc, BitVec.xor_comm d, ← BitVec.xor_assoc (genRow p i), hx]
        simp
  have h := step (List.range 12) 0#24 0#24
  rwa [BitVec.xor_self] at h

theorem mem_code (p : Params) (c : Codeword) : c ∈ code p ↔ ∃ s, gen p s = c := by
  simp only [code, List.mem_map, List.mem_range]
  constructor
  · rintro ⟨n, -, rfl⟩; exact ⟨_, rfl⟩
  · rintro ⟨s, rfl⟩
    exact ⟨s.toNat, s.isLt, by simp⟩

theorem popcount_le {w : Nat} (v : BitVec w) : popcount v ≤ w := by
  simpa [popcount] using List.countP_le_length (l := List.range w) (p := fun i => v.getLsbD i)

theorem leastDist_le_init (r : Codeword) (m : Nat) (cs : List Codeword) : leastDist r m cs ≤ m := by
  induction cs generalizing m with
  | nil => exact le_rfl
  | cons c cs ih =>
    simp only [leastDist]
    split
    · exact le_trans (ih _) (by omega)
    · exact ih _

theorem leastDist_le (r : Codeword) (m : Nat) (cs : List Codeword) (c : Codeword) (h : c ∈ cs) :
    leastDist r m cs ≤ dist r c := by
  induction cs generalizing m with
  | nil => cases h
  | cons d cs ih =>
    simp only [leastDist]
    rcases List.mem_cons.1 h with rfl | h
    · split
      · exact leastDist_le_init _ _ _
      · exact le_trans (leastDist_le_init _ _ _) (by omega)
    · split <;> exact ih _ h

theorem leastDist_attained (r : Codeword) (m : Nat) (cs : List Codeword) :
    leastDist r m cs = m ∨ ∃ c ∈ cs, leastDist r m cs = dist r c := by
  induction cs generalizing m with
  | nil => exact .inl rfl
  | cons c cs ih =>
    simp only [leastDist]
    split
    · rcases ih (dist r c) with h | ⟨d, hd, h⟩
      · exact .inr ⟨c, by simp, h⟩
      · exact .inr ⟨d, by simp [hd], h⟩
    · rcases ih m with h | ⟨d, hd, h⟩
      · exact .inl h
      · exact .inr ⟨d, by simp [hd], h⟩

/-- The members of NEAREST are the codewords no codeword is nearer than (00_scope.md R13). -/
theorem mem_nearest (p : Params) (r c : Codeword) :
    c ∈ nearest p r ↔ c ∈ code p ∧ ∀ d ∈ code p, dist r c ≤ dist r d := by
  have hle : ∀ d ∈ code p, minDist p r ≤ dist r d := fun d hd => leastDist_le _ _ _ _ hd
  have hc0 : gen p 0 ∈ code p := (mem_code _ _).2 ⟨_, rfl⟩
  have hat : ∃ d ∈ code p, minDist p r = dist r d := by
    rcases leastDist_attained r 24 (code p) with h | h
    · exact ⟨_, hc0, le_antisymm (hle _ hc0) (by rw [minDist, h]; exact popcount_le _)⟩
    · exact h
  simp only [nearest, atDist, List.mem_filter, beq_iff_eq]
  constructor
  · rintro ⟨h1, h2⟩
    exact ⟨h1, fun d hd => h2 ▸ hle d hd⟩
  · rintro ⟨h1, h2⟩
    obtain ⟨d, hd, e⟩ := hat
    exact ⟨h1, le_antisymm (e ▸ h2 d hd) (hle c h1)⟩

/-- What DECW picks is a nearest codeword, whatever DEC_TIE is (R13, 40_block_code.md R104). -/
theorem pickNearest_mem (r : Codeword) (cs : List Codeword) (h : cs ≠ []) : pickNearest r cs ∈ cs := by
  unfold pickNearest
  split
  · simp
  · have hl : 0 < cs.length := List.length_pos_iff.2 h
    have hi : Config.decTie r % cs.length < cs.length := Nat.mod_lt _ hl
    rw [List.getD_eq_getElem?_getD, List.getElem?_eq_getElem hi]
    exact List.getElem_mem hi

theorem nearest_ne_nil (p : Params) (r : Codeword) : nearest p r ≠ [] := by
  have hc0 : gen p 0 ∈ code p := (mem_code _ _).2 ⟨_, rfl⟩
  rcases leastDist_attained r 24 (code p) with h | ⟨c, hc, h⟩
  · have hle := leastDist_le r 24 (code p) _ hc0
    refine List.ne_nil_of_mem (a := gen p 0) (List.mem_filter.2 ⟨hc0, ?_⟩)
    have := popcount_le (r ^^^ gen p 0)
    simp only [minDist, h, beq_iff_eq]
    rw [h] at hle
    exact le_antisymm this hle
  · exact List.ne_nil_of_mem (a := c) (List.mem_filter.2 ⟨hc, by simp [minDist, h]⟩)

/-- `DECW(r) = (c, dist(r, c))` where `c` is the only member of NEAREST (R104). -/
theorem decw_of_unique (p : Params) (r c : Codeword) (hc : c ∈ code p)
    (h : ∀ d ∈ code p, d ≠ c → dist r c < dist r d) : decw p r = (c, dist r c) := by
  have hm := pickNearest_mem r (nearest p r) (nearest_ne_nil p r)
  obtain ⟨h1, h2⟩ := (mem_nearest _ _ _).1 hm
  have : pickNearest r (nearest p r) = c := by
    by_contra hne
    exact absurd (h2 c hc) (by have := h _ h1 hne; omega)
  simp [decw, this]

theorem countP_or_le (l : List Nat) (f g h : Nat → Bool) (hf : ∀ i, f i = true → g i = true ∨ h i = true) :
    l.countP f ≤ l.countP g + l.countP h := by
  induction l with
  | nil => simp
  | cons i l ih =>
    have := hf i
    simp only [List.countP_cons]
    split <;> split <;> split <;> simp_all <;> omega

/-- The Hamming distance is a metric: the triangle inequality. -/
theorem dist_triangle (a b c : Codeword) : dist a b ≤ dist a c + dist c b := by
  refine countP_or_le _ _ _ _ fun i => ?_
  simp only [BitVec.getLsbD_xor]
  cases a.getLsbD i <;> cases b.getLsbD i <;> cases c.getLsbD i <;> simp

theorem dist_comm (a b : Codeword) : dist a b = dist b a := by simp [dist, BitVec.xor_comm]

theorem genOk_weight {p : Params} (h : p.genOk = true) (s : Sym) (hs : s ≠ 0) : 7 ≤ popcount (gen p s) := by
  have := List.all_eq_true.1 h s.toNat (List.mem_range.2 s.isLt)
  have hn : s.toNat ≠ 0 := fun e => hs (BitVec.eq_of_toNat_eq (by simpa using e))
  simpa [hn] using this

/-- Distinct symbols have codewords that differ in at least 7 places (00_scope.md R12 (c)). -/
theorem dist_gen_ge {p : Params} (h : p.genOk = true) (s t : Sym) (hst : s ≠ t) : 7 ≤ dist (gen p s) (gen p t) := by
  rw [dist, ← gen_xor]
  refine genOk_weight h _ fun e => hst ?_
  exact BitVec.xor_eq_zero_iff.1 e

/-- `GEN` is injective (R12 (b)). -/
theorem gen_injective {p : Params} (h : p.genOk = true) {s t : Sym} (e : gen p s = gen p t) : s = t := by
  by_contra hst
  have := dist_gen_ge h s t hst
  rw [e] at this
  simp [dist, popcount] at this

/-- `SYM(GEN(s)) = s` (R12). -/
theorem symOf_gen {p : Params} (h : p.genOk = true) (s : Sym) : symOf p (gen p s) = s := by
  unfold symOf
  cases hf : (List.range 4096).find? fun n => gen p (BitVec.ofNat 12 n) == gen p s with
  | none =>
    have := List.find?_eq_none.1 hf s.toNat (List.mem_range.2 s.isLt)
    simp at this
  | some n =>
    have := List.find?_some hf
    simpa using gen_injective h (by simpa using this)

end Sys2Proof.Codec
end

