-- ==== Sys2Proof/Laws/FastCode.lean ====
section
/-! SUPPORT. A fast form of the check that a generator meets 00_scope.md R12, proved equal in effect, so that it can be
evaluated for a concrete generator. -/

namespace Sys2Proof.Codec

/-- The XOR of the rows of a list that a bit function selects, the first row by the highest bit. -/
def rowSum (s : Nat → Bool) : List Codeword → Codeword
  | [] => 0#24
  | r :: rs => (if s rs.length then r else 0#24) ^^^ rowSum s rs

/-- All XORs of rows of a list. -/
def rowSums : List Codeword → List Codeword
  | [] => [0#24]
  | r :: rs => rowSums rs ++ (rowSums rs).map (r ^^^ ·)

/-- The number of 1 bits by shifts. -/
def onesOf (n : Nat) (w : Nat) : Nat := Nat.rec 0 (fun i a => Nat.add a (Nat.mod (Nat.shiftRight n i) 2)) w

/-- Every nonempty XOR of rows of a list has at least 7 one bits. -/
def rowsOk : List Codeword → Bool
  | [] => true
  | r :: rs => (rowSums rs).all (fun c => Nat.ble 7 (onesOf (r ^^^ c).toNat 24)) && rowsOk rs

theorem popcount_eq_onesOf {w : Nat} (v : BitVec w) : popcount v = onesOf v.toNat w := by
  have h : ∀ k, (List.range k).countP (fun i => v.getLsbD i) = onesOf v.toNat k := by
    intro k
    induction k with
    | zero => rfl
    | succ k ih =>
      have hb : (Nat.shiftRight v.toNat k) % 2 = if v.getLsbD k then 1 else 0 := by
        rw [BitVec.getLsbD, Nat.testBit_eq_decide_div_mod_eq, show Nat.shiftRight v.toNat k = v.toNat >>> k from rfl,
          Nat.shiftRight_eq_div_pow]
        have := Nat.mod_two_eq_zero_or_one (v.toNat / 2 ^ k)
        rcases this with e | e <;> simp [e]
      rw [List.range_succ, List.countP_append, ih]
      show _ = onesOf v.toNat k + (Nat.shiftRight v.toNat k) % 2
      rw [hb]
      cases hv : v.getLsbD k <;> simp [hv]
  exact h w

theorem rowSum_mem (s : Nat → Bool) (rs : List Codeword) : rowSum s rs ∈ rowSums rs := by
  induction rs with
  | nil => simp [rowSum, rowSums]
  | cons r rs ih =>
    simp only [rowSum, rowSums, List.mem_append, List.mem_map]
    cases s rs.length
    · left; simpa using ih
    · right; exact ⟨_, ih, by simp⟩

theorem rowsOk_weight (s : Nat → Bool) (rs : List Codeword) (h : rowsOk rs = true) (hs : ∃ i < rs.length, s i = true) :
    7 ≤ popcount (rowSum s rs) := by
  induction rs with
  | nil => obtain ⟨i, hi, -⟩ := hs; simp at hi
  | cons r rs ih =>
    simp only [rowsOk, Bool.and_eq_true, List.all_eq_true] at h
    simp only [rowSum]
    cases hb : s rs.length with
    | true =>
      have := h.1 _ (rowSum_mem s rs)
      rw [popcount_eq_onesOf]
      simpa using this
    | false =>
      obtain ⟨i, hi, e⟩ := hs
      have hlt : i < rs.length := by
        rcases Nat.lt_succ_iff_lt_or_eq.1 hi with h' | h'
        · exact h'
        · rw [h', hb] at e; cases e
      simpa using ih h.2 ⟨i, hlt, e⟩

theorem foldl_eq_rowSum (p : Params) (s : Nat → Bool) (k : Nat) (hk : k ≤ 12) (c : Codeword) :
    ((List.range 12).drop k).foldl (fun c i => if s (11 - i) then c ^^^ genRow p i else c) c =
      c ^^^ rowSum s (p.gen.toList.drop k) := by
  obtain ⟨d, rfl⟩ : ∃ d, k = 12 - d := ⟨12 - k, by omega⟩
  have hlen : p.gen.toList.length = 12 := by simp
  induction d generalizing c with
  | zero =>
    have h2 : p.gen.toList.drop 12 = [] := List.drop_eq_nil_of_le (by omega)
    simp only [Nat.sub_zero, h2, rowSum]
    show c = c ^^^ 0#24
    simp
  | succ d ih =>
    by_cases hd : d < 12
    · have hk' : 12 - (d + 1) < 12 := by omega
      have e1 : (List.range 12).drop (12 - (d + 1)) = (12 - (d + 1)) :: (List.range 12).drop (12 - d) := by
        rw [List.drop_eq_getElem_cons (by rw [List.length_range]; exact hk')]
        simp only [List.getElem_range]
        congr 2
        omega
      have e2 : p.gen.toList.drop (12 - (d + 1)) = genRow p (12 - (d + 1)) :: p.gen.toList.drop (12 - d) := by
        rw [List.drop_eq_getElem_cons (by omega)]
        congr 1
        · rw [genRow, List.getD_eq_getElem?_getD, List.getElem?_eq_getElem (by omega)]
          rfl
        · congr 1; omega
      have e3 : (p.gen.toList.drop (12 - d)).length = 11 - (12 - (d + 1)) := by
        rw [List.length_drop, hlen]; omega
      rw [e1, e2, List.foldl_cons, ih _ (by omega), rowSum, e3]
      cases s (11 - (12 - (d + 1))) <;> simp [BitVec.xor_assoc]
    · have e : 12 - (d + 1) = 12 - d := by omega
      rw [e]
      exact ih c (by omega)

theorem gen_eq_rowSum (p : Params) (s : Sym) : gen p s = rowSum (fun i => s.getLsbD i) p.gen.toList := by
  have h := foldl_eq_rowSum p (fun i => s.getLsbD i) 0 (by omega) 0#24
  simpa [gen] using h

/-- The fast check implies the check of `Params.genOk`. -/
theorem genOk_of_rowsOk (p : Params) (h : rowsOk p.gen.toList = true) : p.genOk = true := by
  refine List.all_eq_true.2 fun n hn => ?_
  have hlt : n < 4096 := List.mem_range.1 hn
  by_cases h0 : n = 0
  · simp [h0]
  · have hw : 7 ≤ popcount (gen p (BitVec.ofNat 12 n)) := by
      rw [gen_eq_rowSum]
      refine rowsOk_weight _ _ h ?_
      by_contra hno
      have hz : BitVec.ofNat 12 n = 0#12 := by
        refine BitVec.eq_of_getLsbD_eq fun i hi => ?_
        have hi' : i < p.gen.toList.length := by simpa using hi
        have : (BitVec.ofNat 12 n).getLsbD i ≠ true := fun e => hno ⟨i, hi', e⟩
        simpa using this
      have := congrArg BitVec.toNat hz
      simp only [BitVec.toNat_ofNat] at this
      omega
    simp [hw]

/-- The reference code of 40_block_code.md R101 meets R12. -/
theorem referenceRows_ok : rowsOk Config.referenceRows.toList = true := by decide +kernel

end Sys2Proof.Codec
end

