-- ==== Sys2Proof/Laws/Memory.lean ====
section
/-! SUPPORT. The laws of byte memories: read after write, and the canonical form, which every operation keeps. -/

namespace Sys2Proof.Machine.Memory

theorem read_insertAt_same (m : Memory) (a : Nat) (b : Byte) (h : ∀ c ∈ m, c.1 ≠ a) : (insertAt m a b).read a = b := by
  induction m with
  | nil => simp [insertAt, read]
  | cons c m ih =>
    obtain ⟨k, v⟩ := c
    have hk : a ≠ k := fun e => h (k, v) (by simp) e.symm
    simp only [insertAt]
    split
    · simp [read]
    · simp only [read, hk, if_false]
      exact ih fun c hc => h c (by simp [hc])

theorem read_insertAt_other (m : Memory) (a x : Nat) (b : Byte) (h : x ≠ a) : (insertAt m a b).read x = m.read x := by
  induction m with
  | nil => simp [insertAt, read, h]
  | cons c m ih =>
    obtain ⟨k, v⟩ := c
    simp only [insertAt]
    split
    · simp [read, h]
    · simp [read, ih]

theorem read_filter_other (m : Memory) (a x : Nat) (h : x ≠ a) : read (m.filter fun c => c.1 != a) x = m.read x := by
  induction m with
  | nil => rfl
  | cons c m ih =>
    obtain ⟨k, v⟩ := c
    by_cases hk : k = a
    · subst hk; simp [read, h, ih]
    · simp [hk, read, ih]

theorem read_filter_same (m : Memory) (a : Nat) : read (m.filter fun c => c.1 != a) a = unlisted := by
  induction m with
  | nil => rfl
  | cons c m ih =>
    obtain ⟨k, v⟩ := c
    by_cases hk : k = a
    · subst hk; simp [ih]
    · simp [hk, read, ih, Ne.symm hk]

/-- A read of the byte just written gives the value written. -/
@[simp] theorem read_write_same (m : Memory) (a : Nat) (b : Byte) : (m.write a b).read a = b := by
  unfold write
  by_cases hb : b = unlisted
  · simp [hb, read_filter_same]
  · simp only [hb, if_false]
    exact read_insertAt_same _ _ _ (by simp)

/-- A write leaves every other byte alone. -/
@[simp] theorem read_write_other (m : Memory) (a x : Nat) (b : Byte) (h : x ≠ a) : (m.write a b).read x = m.read x := by
  unfold write
  by_cases hb : b = unlisted
  · simp [hb, read_filter_other _ _ _ h]
  · simp only [hb, if_false]
    rw [read_insertAt_other _ _ _ _ h, read_filter_other _ _ _ h]

theorem read_write (m : Memory) (a x : Nat) (b : Byte) : (m.write a b).read x = if x = a then b else m.read x := by
  split
  · subst x; simp
  · simp [*]

theorem mem_insertAt (m : Memory) (a : Nat) (b : Byte) (c : Host.Cell) : c ∈ insertAt m a b ↔ c = (a, b) ∨ c ∈ m := by
  induction m with
  | nil => simp [insertAt]
  | cons d m ih =>
    simp only [insertAt]
    split
    · simp
    · simp [ih]; tauto

theorem mem_write {m : Memory} {a : Nat} {b : Byte} {c : Host.Cell} (h : c ∈ m.write a b) : c = (a, b) ∨ c ∈ m := by
  unfold write at h
  split at h
  · exact .inr (List.mem_of_mem_filter h)
  · rcases (mem_insertAt _ _ _ _).1 h with h | h
    · exact .inl h
    · exact .inr (List.mem_of_mem_filter h)

theorem pairwise_insertAt (m : Memory) (a : Nat) (b : Byte) (hm : m.Pairwise fun x y => x.1 < y.1)
    (ha : ∀ c ∈ m, c.1 ≠ a) : (insertAt m a b).Pairwise fun x y => x.1 < y.1 := by
  induction m with
  | nil => simp [insertAt]
  | cons d m ih =>
    obtain ⟨hd, hm'⟩ := List.pairwise_cons.1 hm
    have hda : d.1 ≠ a := ha d (by simp)
    simp only [insertAt]
    split
    · rename_i hlt
      refine List.pairwise_cons.2 ⟨fun c hc => ?_, hm⟩
      rcases List.mem_cons.1 hc with rfl | hc
      · exact hlt
      · exact lt_trans hlt (hd c hc)
    · rename_i hlt
      refine List.pairwise_cons.2 ⟨fun c hc => ?_, ih hm' fun c hc => ha c (by simp [hc])⟩
      rcases (mem_insertAt _ _ _ _).1 hc with rfl | hc
      · show d.1 < a; have : ¬ a < d.1 := hlt; omega
      · exact hd c hc

/-- A write keeps the canonical form. -/
theorem write_wf {m : Memory} (a : Nat) (b : Byte) (h : m.wf) : (m.write a b).wf := by
  obtain ⟨hs, hv⟩ := h
  refine ⟨?_, fun c hc => ?_⟩
  · unfold write
    split
    · exact hs.filter _
    · exact pairwise_insertAt _ _ _ (hs.filter _) (by simp)
  · unfold write at hc
    split at hc
    · exact hv c (List.mem_of_mem_filter hc)
    · rename_i hb
      rcases (mem_insertAt _ _ _ _).1 hc with rfl | hc
      · exact hb
      · exact hv c (List.mem_of_mem_filter hc)

/-- A write below a bound keeps every listed address below it. -/
theorem write_below {m : Memory} {n : Nat} (a : Nat) (b : Byte) (h : m.below n) (ha : a < n) : (m.write a b).below n := by
  intro c hc
  rcases mem_write hc with rfl | hc
  · exact ha
  · exact h c hc

/-- Writing the unlisted value keeps every listed address below a bound, wherever it goes. -/
theorem write_unlisted_below {m : Memory} {n : Nat} (a : Nat) (h : m.below n) : (m.write a unlisted).below n := by
  intro c hc
  simp only [write, if_true] at hc
  exact h c (List.mem_of_mem_filter hc)

@[simp] theorem readBytes_length (m : Memory) (a n : Nat) : (m.readBytes a n).length = n := by simp [readBytes]

theorem readBytes_getD (m : Memory) (a n k : Nat) (d : Byte) (h : k < n) : (m.readBytes a n).getD k d = m.read (a + k) := by
  simp [readBytes, List.getD_eq_getElem?_getD, h]

@[simp] theorem writeBytes_nil (m : Memory) (a : Nat) : m.writeBytes a [] = m := rfl

@[simp] theorem writeBytes_cons (m : Memory) (a : Nat) (b : Byte) (bs : List Byte) :
    m.writeBytes a (b :: bs) = (m.write a b).writeBytes (a + 1) bs := rfl

/-- What a byte reads as after `writeBytes`: the bytes written inside the range, the old ones outside. -/
theorem read_writeBytes (m : Memory) (a x : Nat) (bs : List Byte) :
    (m.writeBytes a bs).read x = if a ≤ x ∧ x < a + bs.length then bs.getD (x - a) 0 else m.read x := by
  induction bs generalizing m a with
  | nil =>
    simp
  | cons b bs ih =>
    rw [writeBytes_cons, ih, read_write]
    by_cases hxa : x = a
    · subst hxa; simp
    · by_cases h : a + 1 ≤ x ∧ x < a + 1 + bs.length
      · have h' : a ≤ x ∧ x < a + (b :: bs).length := by simp; omega
        have e : x - a = (x - (a + 1)) + 1 := by omega
        rw [if_pos h, if_pos h', e, List.getD_cons_succ]
      · have h' : ¬ (a ≤ x ∧ x < a + (b :: bs).length) := by simp; omega
        rw [if_neg h, if_neg h', if_neg hxa]

theorem read_writeBytes_outside (m : Memory) (a x : Nat) (bs : List Byte) (h : x < a ∨ a + bs.length ≤ x) :
    (m.writeBytes a bs).read x = m.read x := by
  rw [read_writeBytes, if_neg (by omega)]

theorem writeBytes_wf {m : Memory} (a : Nat) (bs : List Byte) (h : m.wf) : (m.writeBytes a bs).wf := by
  induction bs generalizing m a with
  | nil => exact h
  | cons b bs ih => exact ih _ (write_wf _ _ h)

theorem writeBytes_below {m : Memory} {n : Nat} (a : Nat) (bs : List Byte) (h : m.below n)
    (ha : bs = [] ∨ a + bs.length ≤ n) : (m.writeBytes a bs).below n := by
  induction bs generalizing m a with
  | nil => exact h
  | cons b bs ih =>
    have hl : a + (bs.length + 1) ≤ n := by simpa using ha
    refine ih _ (write_below _ _ h (by omega)) (.inr (by omega))

theorem toLE_length (n v : Nat) : (Codec.toLE n v).length = n := by
  induction n generalizing v with
  | zero => rfl
  | succ n ih => simp [Codec.toLE, ih]

/-- `LE(toLE_n(v)) = v mod 2^(8n)` (00_scope.md R14). -/
theorem le_toLE (n v : Nat) : Codec.le (Codec.toLE n v) = v % 2 ^ (8 * n) := by
  induction n generalizing v with
  | zero => simp [Codec.toLE, Codec.le, Nat.mod_one]
  | succ n ih =>
    have e : 2 ^ (8 * (n + 1)) = 256 * 2 ^ (8 * n) := by rw [Nat.mul_add, Nat.pow_add]; omega
    simp only [Codec.toLE, Codec.le, ih, BitVec.toNat_ofNat, e, Nat.mod_mul]

theorem readBytes_writeBytes (m : Memory) (a : Nat) (bs : List Byte) : (m.writeBytes a bs).readBytes a bs.length = bs := by
  apply List.ext_getElem
  · simp
  · intro i h1 h2
    simp only [readBytes, List.getElem_map, List.getElem_range, read_writeBytes]
    have : a ≤ a + i ∧ a + i < a + bs.length := by omega
    simp [this, List.getD_eq_getElem?_getD, h2]

theorem readBytes_congr {m m' : Memory} {a n : Nat} (h : ∀ x, a ≤ x → x < a + n → m.read x = m'.read x) :
    m.readBytes a n = m'.readBytes a n := by
  simp only [readBytes]
  refine List.map_congr_left fun k hk => h _ (by omega) ?_
  have := List.mem_range.1 hk
  omega

@[simp] theorem readWord_writeWord_same (m : Memory) (a : Nat) (v : Word) : (m.writeWord a v).readWord a = v := by
  have h := readBytes_writeBytes m a (Codec.toLE 4 v.toNat)
  rw [toLE_length] at h
  have hv : v.toNat % 2 ^ (8 * 4) = v.toNat := Nat.mod_eq_of_lt v.isLt
  simp only [readWord, writeWord, h, le_toLE, hv, wrap32, BitVec.ofNat_toNat]
  simp

theorem read_writeWord_outside (m : Memory) (a x : Nat) (v : Word) (h : x < a ∨ a + 4 ≤ x) :
    (m.writeWord a v).read x = m.read x :=
  read_writeBytes_outside _ _ _ _ (by rw [toLE_length]; exact h)

theorem readWord_congr {m m' : Memory} {a : Nat} (h : ∀ x, a ≤ x → x < a + 4 → m.read x = m'.read x) :
    m.readWord a = m'.readWord a := by
  simp only [readWord, readBytes_congr h]

theorem writeWord_wf {m : Memory} (a : Nat) (v : Word) (h : m.wf) : (m.writeWord a v).wf := writeBytes_wf _ _ h

theorem writeWord_below {m : Memory} {n : Nat} (a : Nat) (v : Word) (h : m.below n) (ha : a + 4 ≤ n) :
    (m.writeWord a v).below n :=
  writeBytes_below _ _ h (.inr (by rw [toLE_length]; exact ha))

theorem mix_cons (old new : Memory) (a : Nat) (l : List Nat) :
    old.mix new (a :: l) = (old.write a (new.read a)).mix new l := rfl

/-- Every byte of a mix is the old one or the new one, and new where it landed (70_reset_and_hazards.md R230). -/
theorem read_mix (old new : Memory) (l : List Nat) (x : Nat) :
    (old.mix new l).read x = if x ∈ l then new.read x else old.read x := by
  induction l generalizing old with
  | nil => simp [mix]
  | cons a l ih =>
    rw [mix_cons, ih, read_write]
    by_cases h1 : x ∈ l
    · simp [h1]
    · by_cases h2 : x = a
      · subst h2; simp [h1]
      · simp [h1, h2]

theorem mix_wf {old : Memory} (new : Memory) (l : List Nat) (h : old.wf) : (old.mix new l).wf := by
  induction l generalizing old with
  | nil => exact h
  | cons a l ih => exact ih (write_wf _ _ h)

theorem read_of_below {m : Memory} {n x : Nat} (h : m.below n) (hx : n ≤ x) : m.read x = unlisted := by
  induction m with
  | nil => rfl
  | cons c m ih =>
    obtain ⟨k, v⟩ := c
    have hk : k < n := h (k, v) (by simp)
    have : x ≠ k := by omega
    simp only [read, this, if_false]
    exact ih fun c hc => h c (by simp [hc])

theorem mix_below {old new : Memory} {n : Nat} (l : List Nat) (h : old.below n) (hn : new.below n) :
    (old.mix new l).below n := by
  induction l generalizing old with
  | nil => exact h
  | cons a l ih =>
    rw [mix_cons]
    refine ih ?_
    by_cases ha : a < n
    · exact write_below _ _ h ha
    · rw [read_of_below hn (not_lt.1 ha)]; exact write_unlisted_below _ h

theorem read_of_lt {m : Memory} {x : Nat} (h : ∀ c ∈ m, x < c.1) : m.read x = unlisted := by
  induction m with
  | nil => rfl
  | cons c m ih =>
    obtain ⟨k, v⟩ := c
    have hk : x < k := h (k, v) (by simp)
    have : x ≠ k := by omega
    simp only [read, this, if_false]
    exact ih fun c hc => h c (by simp [hc])

/-- Two memories in the canonical form that read the same are the same data. -/
theorem ext_of_wf {m m' : Memory} (h : m.wf) (h' : m'.wf) (hr : ∀ x, m.read x = m'.read x) : m = m' := by
  induction m generalizing m' with
  | nil =>
    cases m' with
    | nil => rfl
    | cons c m' =>
      exact absurd ((hr c.1).symm.trans rfl) (by simpa [read] using h'.2 c (by simp))
  | cons c m ih =>
    obtain ⟨k, v⟩ := c
    cases m' with
    | nil => exact absurd ((hr k).trans rfl) (by simpa [read] using h.2 (k, v) (by simp))
    | cons c' m' =>
      obtain ⟨k', v'⟩ := c'
      obtain ⟨hs, hm⟩ := List.pairwise_cons.1 h.1
      obtain ⟨hs', hm'⟩ := List.pairwise_cons.1 h'.1
      have hv := h.2 (k, v) (by simp)
      have hv' := h'.2 (k', v') (by simp)
      have hk : k = k' := by
        rcases lt_trichotomy k k' with hlt | heq | hlt
        · have e := hr k
          rw [read_of_lt (m := (k', v') :: m')] at e
          · exact absurd e (by simpa [read] using hv)
          · intro c hc
            rcases List.mem_cons.1 hc with rfl | hc
            · exact hlt
            · exact lt_trans hlt (hs' c hc)
        · exact heq
        · have e := hr k'
          rw [read_of_lt (m := (k, v) :: m)] at e
          · exact absurd e.symm (by simpa [read] using hv')
          · intro c hc
            rcases List.mem_cons.1 hc with rfl | hc
            · exact hlt
            · exact lt_trans hlt (hs c hc)
      subst hk
      have hvv : v = v' := by simpa [read] using hr k
      subst hvv
      congr 1
      refine ih ⟨hm, fun c hc => h.2 c (by simp [hc])⟩ ⟨hm', fun c hc => h'.2 c (by simp [hc])⟩ fun x => ?_
      by_cases hx : x = k
      · subst hx
        rw [read_of_lt hs, read_of_lt hs']
      · simpa [read, hx] using hr x

end Sys2Proof.Machine.Memory
end

