-- ==== Sys2Proof/Laws/State.lean ====
section
/-! SUPPORT. One lemma per field of State and per update of it, each true by definition. -/

namespace Sys2Proof.Machine.State

variable (s : State)

@[simp] theorem setMem_cfg (m : Memory) : (s.setMem m).cfg = s.cfg := rfl
@[simp] theorem setMem_a0 (m : Memory) : (s.setMem m).a0 = s.a0 := rfl
@[simp] theorem setMem_a1 (m : Memory) : (s.setMem m).a1 = s.a1 := rfl
@[simp] theorem setMem_a2 (m : Memory) : (s.setMem m).a2 = s.a2 := rfl
@[simp] theorem setMem_a3 (m : Memory) : (s.setMem m).a3 = s.a3 := rfl
@[simp] theorem setMem_result (m : Memory) : (s.setMem m).result = s.result := rfl
@[simp] theorem setMem_status (m : Memory) : (s.setMem m).status = s.status := rfl
@[simp] theorem setMem_finfo (m : Memory) : (s.setMem m).finfo = s.finfo := rfl
@[simp] theorem setMem_diag (m : Memory) : (s.setMem m).diag = s.diag := rfl
@[simp] theorem setMem_icur (m : Memory) : (s.setMem m).icur = s.icur := rfl
@[simp] theorem setMem_mem (m : Memory) : (s.setMem m).mem = m := rfl
@[simp] theorem setMem_shm (m : Memory) : (s.setMem m).shm = s.shm := rfl
@[simp] theorem setMem_mid (m : Memory) : (s.setMem m).mid = s.mid := rfl
@[simp] theorem setMem_inputs (m : Memory) : (s.setMem m).inputs = s.inputs := rfl
@[simp] theorem setMem_hostData (m : Memory) : (s.setMem m).hostData = s.hostData := rfl
@[simp] theorem setMem_hostBytes (m : Memory) : (s.setMem m).hostBytes = s.hostBytes := rfl
@[simp] theorem setMem_pruSeen (m : Memory) : (s.setMem m).pruSeen = s.pruSeen := rfl

@[simp] theorem setShm_cfg (m : Memory) : (s.setShm m).cfg = s.cfg := rfl
@[simp] theorem setShm_a0 (m : Memory) : (s.setShm m).a0 = s.a0 := rfl
@[simp] theorem setShm_a1 (m : Memory) : (s.setShm m).a1 = s.a1 := rfl
@[simp] theorem setShm_a2 (m : Memory) : (s.setShm m).a2 = s.a2 := rfl
@[simp] theorem setShm_a3 (m : Memory) : (s.setShm m).a3 = s.a3 := rfl
@[simp] theorem setShm_result (m : Memory) : (s.setShm m).result = s.result := rfl
@[simp] theorem setShm_status (m : Memory) : (s.setShm m).status = s.status := rfl
@[simp] theorem setShm_finfo (m : Memory) : (s.setShm m).finfo = s.finfo := rfl
@[simp] theorem setShm_diag (m : Memory) : (s.setShm m).diag = s.diag := rfl
@[simp] theorem setShm_icur (m : Memory) : (s.setShm m).icur = s.icur := rfl
@[simp] theorem setShm_mem (m : Memory) : (s.setShm m).mem = s.mem := rfl
@[simp] theorem setShm_shm (m : Memory) : (s.setShm m).shm = m := rfl
@[simp] theorem setShm_mid (m : Memory) : (s.setShm m).mid = s.mid := rfl
@[simp] theorem setShm_inputs (m : Memory) : (s.setShm m).inputs = s.inputs := rfl
@[simp] theorem setShm_hostData (m : Memory) : (s.setShm m).hostData = s.hostData := rfl
@[simp] theorem setShm_hostBytes (m : Memory) : (s.setShm m).hostBytes = s.hostBytes := rfl
@[simp] theorem setShm_pruSeen (m : Memory) : (s.setShm m).pruSeen = s.pruSeen := rfl

@[simp] theorem setResult_cfg (v : Word) : (s.setResult v).cfg = s.cfg := rfl
@[simp] theorem setResult_a0 (v : Word) : (s.setResult v).a0 = s.a0 := rfl
@[simp] theorem setResult_a1 (v : Word) : (s.setResult v).a1 = s.a1 := rfl
@[simp] theorem setResult_a2 (v : Word) : (s.setResult v).a2 = s.a2 := rfl
@[simp] theorem setResult_a3 (v : Word) : (s.setResult v).a3 = s.a3 := rfl
@[simp] theorem setResult_result (v : Word) : (s.setResult v).result = v := rfl
@[simp] theorem setResult_status (v : Word) : (s.setResult v).status = s.status := rfl
@[simp] theorem setResult_finfo (v : Word) : (s.setResult v).finfo = s.finfo := rfl
@[simp] theorem setResult_diag (v : Word) : (s.setResult v).diag = s.diag := rfl
@[simp] theorem setResult_icur (v : Word) : (s.setResult v).icur = s.icur := rfl
@[simp] theorem setResult_mem (v : Word) : (s.setResult v).mem = s.mem := rfl
@[simp] theorem setResult_shm (v : Word) : (s.setResult v).shm = s.shm := rfl
@[simp] theorem setResult_mid (v : Word) : (s.setResult v).mid = s.mid := rfl
@[simp] theorem setResult_inputs (v : Word) : (s.setResult v).inputs = s.inputs := rfl
@[simp] theorem setResult_hostData (v : Word) : (s.setResult v).hostData = s.hostData := rfl
@[simp] theorem setResult_hostBytes (v : Word) : (s.setResult v).hostBytes = s.hostBytes := rfl
@[simp] theorem setResult_pruSeen (v : Word) : (s.setResult v).pruSeen = s.pruSeen := rfl

@[simp] theorem setDiag_cfg (v : Word) : (s.setDiag v).cfg = s.cfg := rfl
@[simp] theorem setDiag_a0 (v : Word) : (s.setDiag v).a0 = s.a0 := rfl
@[simp] theorem setDiag_a1 (v : Word) : (s.setDiag v).a1 = s.a1 := rfl
@[simp] theorem setDiag_a2 (v : Word) : (s.setDiag v).a2 = s.a2 := rfl
@[simp] theorem setDiag_a3 (v : Word) : (s.setDiag v).a3 = s.a3 := rfl
@[simp] theorem setDiag_result (v : Word) : (s.setDiag v).result = s.result := rfl
@[simp] theorem setDiag_status (v : Word) : (s.setDiag v).status = s.status := rfl
@[simp] theorem setDiag_finfo (v : Word) : (s.setDiag v).finfo = s.finfo := rfl
@[simp] theorem setDiag_diag (v : Word) : (s.setDiag v).diag = v := rfl
@[simp] theorem setDiag_icur (v : Word) : (s.setDiag v).icur = s.icur := rfl
@[simp] theorem setDiag_mem (v : Word) : (s.setDiag v).mem = s.mem := rfl
@[simp] theorem setDiag_shm (v : Word) : (s.setDiag v).shm = s.shm := rfl
@[simp] theorem setDiag_mid (v : Word) : (s.setDiag v).mid = s.mid := rfl
@[simp] theorem setDiag_inputs (v : Word) : (s.setDiag v).inputs = s.inputs := rfl
@[simp] theorem setDiag_hostData (v : Word) : (s.setDiag v).hostData = s.hostData := rfl
@[simp] theorem setDiag_hostBytes (v : Word) : (s.setDiag v).hostBytes = s.hostBytes := rfl
@[simp] theorem setDiag_pruSeen (v : Word) : (s.setDiag v).pruSeen = s.pruSeen := rfl

@[simp] theorem setIcur_cfg (v : Word) : (s.setIcur v).cfg = s.cfg := rfl
@[simp] theorem setIcur_a0 (v : Word) : (s.setIcur v).a0 = s.a0 := rfl
@[simp] theorem setIcur_a1 (v : Word) : (s.setIcur v).a1 = s.a1 := rfl
@[simp] theorem setIcur_a2 (v : Word) : (s.setIcur v).a2 = s.a2 := rfl
@[simp] theorem setIcur_a3 (v : Word) : (s.setIcur v).a3 = s.a3 := rfl
@[simp] theorem setIcur_result (v : Word) : (s.setIcur v).result = s.result := rfl
@[simp] theorem setIcur_status (v : Word) : (s.setIcur v).status = s.status := rfl
@[simp] theorem setIcur_finfo (v : Word) : (s.setIcur v).finfo = s.finfo := rfl
@[simp] theorem setIcur_diag (v : Word) : (s.setIcur v).diag = s.diag := rfl
@[simp] theorem setIcur_icur (v : Word) : (s.setIcur v).icur = v := rfl
@[simp] theorem setIcur_mem (v : Word) : (s.setIcur v).mem = s.mem := rfl
@[simp] theorem setIcur_shm (v : Word) : (s.setIcur v).shm = s.shm := rfl
@[simp] theorem setIcur_mid (v : Word) : (s.setIcur v).mid = s.mid := rfl
@[simp] theorem setIcur_inputs (v : Word) : (s.setIcur v).inputs = s.inputs := rfl
@[simp] theorem setIcur_hostData (v : Word) : (s.setIcur v).hostData = s.hostData := rfl
@[simp] theorem setIcur_hostBytes (v : Word) : (s.setIcur v).hostBytes = s.hostBytes := rfl
@[simp] theorem setIcur_pruSeen (v : Word) : (s.setIcur v).pruSeen = s.pruSeen := rfl

@[simp] theorem setMid_cfg (l : List MidStep) : (s.setMid l).cfg = s.cfg := rfl
@[simp] theorem setMid_a0 (l : List MidStep) : (s.setMid l).a0 = s.a0 := rfl
@[simp] theorem setMid_a1 (l : List MidStep) : (s.setMid l).a1 = s.a1 := rfl
@[simp] theorem setMid_a2 (l : List MidStep) : (s.setMid l).a2 = s.a2 := rfl
@[simp] theorem setMid_a3 (l : List MidStep) : (s.setMid l).a3 = s.a3 := rfl
@[simp] theorem setMid_result (l : List MidStep) : (s.setMid l).result = s.result := rfl
@[simp] theorem setMid_status (l : List MidStep) : (s.setMid l).status = s.status := rfl
@[simp] theorem setMid_finfo (l : List MidStep) : (s.setMid l).finfo = s.finfo := rfl
@[simp] theorem setMid_diag (l : List MidStep) : (s.setMid l).diag = s.diag := rfl
@[simp] theorem setMid_icur (l : List MidStep) : (s.setMid l).icur = s.icur := rfl
@[simp] theorem setMid_mem (l : List MidStep) : (s.setMid l).mem = s.mem := rfl
@[simp] theorem setMid_shm (l : List MidStep) : (s.setMid l).shm = s.shm := rfl
@[simp] theorem setMid_mid (l : List MidStep) : (s.setMid l).mid = l := rfl
@[simp] theorem setMid_inputs (l : List MidStep) : (s.setMid l).inputs = s.inputs := rfl
@[simp] theorem setMid_hostData (l : List MidStep) : (s.setMid l).hostData = s.hostData := rfl
@[simp] theorem setMid_hostBytes (l : List MidStep) : (s.setMid l).hostBytes = s.hostBytes := rfl
@[simp] theorem setMid_pruSeen (l : List MidStep) : (s.setMid l).pruSeen = s.pruSeen := rfl

@[simp] theorem setInputs_cfg (l : List Input) : (s.setInputs l).cfg = s.cfg := rfl
@[simp] theorem setInputs_a0 (l : List Input) : (s.setInputs l).a0 = s.a0 := rfl
@[simp] theorem setInputs_a1 (l : List Input) : (s.setInputs l).a1 = s.a1 := rfl
@[simp] theorem setInputs_a2 (l : List Input) : (s.setInputs l).a2 = s.a2 := rfl
@[simp] theorem setInputs_a3 (l : List Input) : (s.setInputs l).a3 = s.a3 := rfl
@[simp] theorem setInputs_result (l : List Input) : (s.setInputs l).result = s.result := rfl
@[simp] theorem setInputs_status (l : List Input) : (s.setInputs l).status = s.status := rfl
@[simp] theorem setInputs_finfo (l : List Input) : (s.setInputs l).finfo = s.finfo := rfl
@[simp] theorem setInputs_diag (l : List Input) : (s.setInputs l).diag = s.diag := rfl
@[simp] theorem setInputs_icur (l : List Input) : (s.setInputs l).icur = s.icur := rfl
@[simp] theorem setInputs_mem (l : List Input) : (s.setInputs l).mem = s.mem := rfl
@[simp] theorem setInputs_shm (l : List Input) : (s.setInputs l).shm = s.shm := rfl
@[simp] theorem setInputs_mid (l : List Input) : (s.setInputs l).mid = s.mid := rfl
@[simp] theorem setInputs_inputs (l : List Input) : (s.setInputs l).inputs = l := rfl
@[simp] theorem setInputs_hostData (l : List Input) : (s.setInputs l).hostData = s.hostData := rfl
@[simp] theorem setInputs_hostBytes (l : List Input) : (s.setInputs l).hostBytes = s.hostBytes := rfl
@[simp] theorem setInputs_pruSeen (l : List Input) : (s.setInputs l).pruSeen = s.pruSeen := rfl

@[simp] theorem setHostData_cfg (v : Word) : (s.setHostData v).cfg = s.cfg := rfl
@[simp] theorem setHostData_a0 (v : Word) : (s.setHostData v).a0 = s.a0 := rfl
@[simp] theorem setHostData_a1 (v : Word) : (s.setHostData v).a1 = s.a1 := rfl
@[simp] theorem setHostData_a2 (v : Word) : (s.setHostData v).a2 = s.a2 := rfl
@[simp] theorem setHostData_a3 (v : Word) : (s.setHostData v).a3 = s.a3 := rfl
@[simp] theorem setHostData_result (v : Word) : (s.setHostData v).result = s.result := rfl
@[simp] theorem setHostData_status (v : Word) : (s.setHostData v).status = s.status := rfl
@[simp] theorem setHostData_finfo (v : Word) : (s.setHostData v).finfo = s.finfo := rfl
@[simp] theorem setHostData_diag (v : Word) : (s.setHostData v).diag = s.diag := rfl
@[simp] theorem setHostData_icur (v : Word) : (s.setHostData v).icur = s.icur := rfl
@[simp] theorem setHostData_mem (v : Word) : (s.setHostData v).mem = s.mem := rfl
@[simp] theorem setHostData_shm (v : Word) : (s.setHostData v).shm = s.shm := rfl
@[simp] theorem setHostData_mid (v : Word) : (s.setHostData v).mid = s.mid := rfl
@[simp] theorem setHostData_inputs (v : Word) : (s.setHostData v).inputs = s.inputs := rfl
@[simp] theorem setHostData_hostData (v : Word) : (s.setHostData v).hostData = v := rfl
@[simp] theorem setHostData_hostBytes (v : Word) : (s.setHostData v).hostBytes = s.hostBytes := rfl
@[simp] theorem setHostData_pruSeen (v : Word) : (s.setHostData v).pruSeen = s.pruSeen := rfl

@[simp] theorem setHostBytes_cfg (bs : List Byte) : (s.setHostBytes bs).cfg = s.cfg := rfl
@[simp] theorem setHostBytes_a0 (bs : List Byte) : (s.setHostBytes bs).a0 = s.a0 := rfl
@[simp] theorem setHostBytes_a1 (bs : List Byte) : (s.setHostBytes bs).a1 = s.a1 := rfl
@[simp] theorem setHostBytes_a2 (bs : List Byte) : (s.setHostBytes bs).a2 = s.a2 := rfl
@[simp] theorem setHostBytes_a3 (bs : List Byte) : (s.setHostBytes bs).a3 = s.a3 := rfl
@[simp] theorem setHostBytes_result (bs : List Byte) : (s.setHostBytes bs).result = s.result := rfl
@[simp] theorem setHostBytes_status (bs : List Byte) : (s.setHostBytes bs).status = s.status := rfl
@[simp] theorem setHostBytes_finfo (bs : List Byte) : (s.setHostBytes bs).finfo = s.finfo := rfl
@[simp] theorem setHostBytes_diag (bs : List Byte) : (s.setHostBytes bs).diag = s.diag := rfl
@[simp] theorem setHostBytes_icur (bs : List Byte) : (s.setHostBytes bs).icur = s.icur := rfl
@[simp] theorem setHostBytes_mem (bs : List Byte) : (s.setHostBytes bs).mem = s.mem := rfl
@[simp] theorem setHostBytes_shm (bs : List Byte) : (s.setHostBytes bs).shm = s.shm := rfl
@[simp] theorem setHostBytes_mid (bs : List Byte) : (s.setHostBytes bs).mid = s.mid := rfl
@[simp] theorem setHostBytes_inputs (bs : List Byte) : (s.setHostBytes bs).inputs = s.inputs := rfl
@[simp] theorem setHostBytes_hostData (bs : List Byte) : (s.setHostBytes bs).hostData = s.hostData := rfl
@[simp] theorem setHostBytes_hostBytes (bs : List Byte) : (s.setHostBytes bs).hostBytes = bs := rfl
@[simp] theorem setHostBytes_pruSeen (bs : List Byte) : (s.setHostBytes bs).pruSeen = s.pruSeen := rfl

@[simp] theorem setPruSeen_cfg (l : List (Nat × Byte)) : (s.setPruSeen l).cfg = s.cfg := rfl
@[simp] theorem setPruSeen_a0 (l : List (Nat × Byte)) : (s.setPruSeen l).a0 = s.a0 := rfl
@[simp] theorem setPruSeen_a1 (l : List (Nat × Byte)) : (s.setPruSeen l).a1 = s.a1 := rfl
@[simp] theorem setPruSeen_a2 (l : List (Nat × Byte)) : (s.setPruSeen l).a2 = s.a2 := rfl
@[simp] theorem setPruSeen_a3 (l : List (Nat × Byte)) : (s.setPruSeen l).a3 = s.a3 := rfl
@[simp] theorem setPruSeen_result (l : List (Nat × Byte)) : (s.setPruSeen l).result = s.result := rfl
@[simp] theorem setPruSeen_status (l : List (Nat × Byte)) : (s.setPruSeen l).status = s.status := rfl
@[simp] theorem setPruSeen_finfo (l : List (Nat × Byte)) : (s.setPruSeen l).finfo = s.finfo := rfl
@[simp] theorem setPruSeen_diag (l : List (Nat × Byte)) : (s.setPruSeen l).diag = s.diag := rfl
@[simp] theorem setPruSeen_icur (l : List (Nat × Byte)) : (s.setPruSeen l).icur = s.icur := rfl
@[simp] theorem setPruSeen_mem (l : List (Nat × Byte)) : (s.setPruSeen l).mem = s.mem := rfl
@[simp] theorem setPruSeen_shm (l : List (Nat × Byte)) : (s.setPruSeen l).shm = s.shm := rfl
@[simp] theorem setPruSeen_mid (l : List (Nat × Byte)) : (s.setPruSeen l).mid = s.mid := rfl
@[simp] theorem setPruSeen_inputs (l : List (Nat × Byte)) : (s.setPruSeen l).inputs = s.inputs := rfl
@[simp] theorem setPruSeen_hostData (l : List (Nat × Byte)) : (s.setPruSeen l).hostData = s.hostData := rfl
@[simp] theorem setPruSeen_hostBytes (l : List (Nat × Byte)) : (s.setPruSeen l).hostBytes = s.hostBytes := rfl
@[simp] theorem setPruSeen_pruSeen (l : List (Nat × Byte)) : (s.setPruSeen l).pruSeen = l := rfl

@[simp] theorem latch_cfg (c : Cause) (o : Byte) (k : Nat) : (s.latch c o k).cfg = s.cfg := rfl
@[simp] theorem latch_a0 (c : Cause) (o : Byte) (k : Nat) : (s.latch c o k).a0 = s.a0 := rfl
@[simp] theorem latch_a1 (c : Cause) (o : Byte) (k : Nat) : (s.latch c o k).a1 = s.a1 := rfl
@[simp] theorem latch_a2 (c : Cause) (o : Byte) (k : Nat) : (s.latch c o k).a2 = s.a2 := rfl
@[simp] theorem latch_a3 (c : Cause) (o : Byte) (k : Nat) : (s.latch c o k).a3 = s.a3 := rfl
@[simp] theorem latch_result (c : Cause) (o : Byte) (k : Nat) : (s.latch c o k).result = s.result := rfl
@[simp] theorem latch_status (c : Cause) (o : Byte) (k : Nat) : (s.latch c o k).status = faultStatus c o := rfl
@[simp] theorem latch_finfo (c : Cause) (o : Byte) (k : Nat) : (s.latch c o k).finfo = wrap32 k := rfl
@[simp] theorem latch_diag (c : Cause) (o : Byte) (k : Nat) : (s.latch c o k).diag = s.diag := rfl
@[simp] theorem latch_icur (c : Cause) (o : Byte) (k : Nat) : (s.latch c o k).icur = s.icur := rfl
@[simp] theorem latch_mem (c : Cause) (o : Byte) (k : Nat) : (s.latch c o k).mem = s.mem := rfl
@[simp] theorem latch_shm (c : Cause) (o : Byte) (k : Nat) : (s.latch c o k).shm = s.shm := rfl
@[simp] theorem latch_mid (c : Cause) (o : Byte) (k : Nat) : (s.latch c o k).mid = s.mid := rfl
@[simp] theorem latch_inputs (c : Cause) (o : Byte) (k : Nat) : (s.latch c o k).inputs = s.inputs := rfl
@[simp] theorem latch_hostData (c : Cause) (o : Byte) (k : Nat) : (s.latch c o k).hostData = s.hostData := rfl
@[simp] theorem latch_hostBytes (c : Cause) (o : Byte) (k : Nat) : (s.latch c o k).hostBytes = s.hostBytes := rfl
@[simp] theorem latch_pruSeen (c : Cause) (o : Byte) (k : Nat) : (s.latch c o k).pruSeen = s.pruSeen := rfl

@[simp] theorem toReset_cfg : s.toReset.cfg = s.cfg := rfl
@[simp] theorem toReset_a0 : s.toReset.a0 = 0 := rfl
@[simp] theorem toReset_a1 : s.toReset.a1 = 0 := rfl
@[simp] theorem toReset_a2 : s.toReset.a2 = 0 := rfl
@[simp] theorem toReset_a3 : s.toReset.a3 = 0 := rfl
@[simp] theorem toReset_result : s.toReset.result = 0 := rfl
@[simp] theorem toReset_status : s.toReset.status = 0 := rfl
@[simp] theorem toReset_finfo : s.toReset.finfo = 0 := rfl
@[simp] theorem toReset_diag : s.toReset.diag = 0 := rfl
@[simp] theorem toReset_icur : s.toReset.icur = 0 := rfl
@[simp] theorem toReset_mem : s.toReset.mem = s.mem := rfl
@[simp] theorem toReset_shm : s.toReset.shm = s.shm := rfl
@[simp] theorem toReset_mid : s.toReset.mid = s.mid := rfl
@[simp] theorem toReset_inputs : s.toReset.inputs = s.inputs := rfl
@[simp] theorem toReset_hostData : s.toReset.hostData = s.hostData := rfl
@[simp] theorem toReset_hostBytes : s.toReset.hostBytes = s.hostBytes := rfl
@[simp] theorem toReset_pruSeen : s.toReset.pruSeen = s.pruSeen := rfl

@[simp] theorem powerUp_cfg (p : Params) (m h : Memory) : (powerUp p m h).cfg = p := rfl
@[simp] theorem powerUp_a0 (p : Params) (m h : Memory) : (powerUp p m h).a0 = 0 := rfl
@[simp] theorem powerUp_a1 (p : Params) (m h : Memory) : (powerUp p m h).a1 = 0 := rfl
@[simp] theorem powerUp_a2 (p : Params) (m h : Memory) : (powerUp p m h).a2 = 0 := rfl
@[simp] theorem powerUp_a3 (p : Params) (m h : Memory) : (powerUp p m h).a3 = 0 := rfl
@[simp] theorem powerUp_result (p : Params) (m h : Memory) : (powerUp p m h).result = 0 := rfl
@[simp] theorem powerUp_status (p : Params) (m h : Memory) : (powerUp p m h).status = 0 := rfl
@[simp] theorem powerUp_finfo (p : Params) (m h : Memory) : (powerUp p m h).finfo = 0 := rfl
@[simp] theorem powerUp_diag (p : Params) (m h : Memory) : (powerUp p m h).diag = 0 := rfl
@[simp] theorem powerUp_icur (p : Params) (m h : Memory) : (powerUp p m h).icur = 0 := rfl
@[simp] theorem powerUp_mem (p : Params) (m h : Memory) : (powerUp p m h).mem = m := rfl
@[simp] theorem powerUp_shm (p : Params) (m h : Memory) : (powerUp p m h).shm = h := rfl
@[simp] theorem powerUp_mid (p : Params) (m h : Memory) : (powerUp p m h).mid = [] := rfl
@[simp] theorem powerUp_inputs (p : Params) (m h : Memory) : (powerUp p m h).inputs = [] := rfl
@[simp] theorem powerUp_hostData (p : Params) (m h : Memory) : (powerUp p m h).hostData = 0 := rfl
@[simp] theorem powerUp_hostBytes (p : Params) (m h : Memory) : (powerUp p m h).hostBytes = [] := rfl
@[simp] theorem powerUp_pruSeen (p : Params) (m h : Memory) : (powerUp p m h).pruSeen = [] := rfl

/-- FAULT is set by every fault (10_state.md R24). -/
@[simp] theorem latch_faulted (c : Cause) (o : Byte) (k : Nat) : (s.latch c o k).faulted = true := by
  simp [faulted, faultStatus]

/-- CAUSE is the cause's code (R24). -/
@[simp] theorem latch_causeField (c : Cause) (o : Byte) (k : Nat) : (s.latch c o k).causeField = c.toByte := by
  ext i hi
  have h1 : 8 + i < 16 := by omega
  have h2 : 8 + i < 32 := by omega
  simp [causeField, faultStatus, BitVec.getElem_extractLsb', h1, h2, BitVec.getLsbD_eq_getElem, hi]

/-- FOPC is the command's low byte (R24). -/
@[simp] theorem latch_fopcField (c : Cause) (o : Byte) (k : Nat) : (s.latch c o k).fopcField = o := by
  ext i hi
  have h1 : 16 + i < 32 := by omega
  have h2 : 16 + i - 8 = 8 + i := by omega
  simp [fopcField, faultStatus, BitVec.getElem_extractLsb', h1, h2, BitVec.getLsbD_eq_getElem, hi]

/-- Reset clears FAULT (70_reset_and_hazards.md R231). -/
@[simp] theorem toReset_faulted : s.toReset.faulted = false := by simp [faulted]

end Sys2Proof.Machine.State
end

