-- ==== Sys2Proof/Laws/Ops.lean ====
section
/-! SUPPORT. What the shared operations can do: the three cases of a command, its checks, and the ranges they check. -/

namespace Sys2Proof.Machine

theorem rangeOk_iff (p : Params) (a n : Nat) : rangeOk p a n = true ↔ n = 0 ∨ a + n ≤ p.memSize := by
  simp [rangeOk]

theorem overlap_iff (a n b m : Nat) : overlap a n b m = true ↔ 0 < n ∧ 0 < m ∧ a < b + m ∧ b < a + n := by
  simp [overlap, and_assoc]

/-- Every command answers a next state: the state itself under a latched fault, the state with the fault of the first check
that fails latched, or the effect. -/
theorem perform_cases (o : Byte) (checks : State → List Check) (effect : State → State) (s : State) :
    (s.faulted = true ∧ perform o checks effect s = .next s) ∨
    (s.faulted = false ∧ ∃ c, firstFailure (checks s) = some c ∧
      perform o checks effect s = .next (s.latch c.cause o c.info)) ∨
    (s.faulted = false ∧ firstFailure (checks s) = none ∧ perform o checks effect s = .next (effect s)) := by
  unfold perform
  cases hf : s.faulted with
  | true => exact .inl ⟨rfl, rfl⟩
  | false =>
    cases hc : firstFailure (checks s) with
    | some c => exact .inr (.inl ⟨rfl, c, rfl, rfl⟩)
    | none => exact .inr (.inr ⟨rfl, rfl, rfl⟩)

@[simp] theorem mapNext_next (f : State → State) (s : State) : mapNext f (.next s) = .next (f s) := rfl

@[simp] theorem drainOutcome_next (s : State) : drainOutcome (.next s) = .next (drainMid s) := rfl

/-- Every command answers a next state. -/
theorem perform_next (o : Byte) (checks : State → List Check) (effect : State → State) (s : State) :
    ∃ t, perform o checks effect s = .next t := by
  rcases perform_cases o checks effect s with ⟨-, h⟩ | ⟨-, c, -, h⟩ | ⟨-, -, h⟩ <;> exact ⟨_, h⟩

/-- A latched fault drops the command (60_exceptions.md R203). -/
theorem perform_faulted (o : Byte) (checks : State → List Check) (effect : State → State) (s : State)
    (h : s.faulted = true) : perform o checks effect s = .next s := by
  simp [perform, h]

theorem perform_pass (o : Byte) (checks : State → List Check) (effect : State → State) (s : State)
    (h : s.faulted = false) (hc : firstFailure (checks s) = none) : perform o checks effect s = .next (effect s) := by
  simp [perform, h, hc]

theorem perform_fail (o : Byte) (checks : State → List Check) (effect : State → State) (s : State) (c : Check)
    (h : s.faulted = false) (hc : firstFailure (checks s) = some c) :
    perform o checks effect s = .next (s.latch c.cause o c.info) := by
  simp [perform, h, hc]

@[simp] theorem firstFailure_nil : firstFailure [] = none := rfl

@[simp] theorem firstFailure_cons (c : Check) (cs : List Check) :
    firstFailure (c :: cs) = if c.fails then some c else firstFailure cs := by
  cases h : c.fails <;> simp [firstFailure, h]

/-- The three buffer checks pass exactly when both ranges lie in MEM and do not overlap. -/
theorem bufferChecks_pass (p : Params) (src n dst m : Nat) :
    firstFailure (bufferChecks p src n dst m) = none ↔
      rangeOk p src n = true ∧ rangeOk p dst m = true ∧ overlap src n dst m = false := by
  simp only [bufferChecks, firstFailure_cons, firstFailure_nil]
  cases rangeOk p src n <;> cases rangeOk p dst m <;> cases overlap src n dst m <;> simp

/-- A command that shares its shape: the meaning of an instruction is `perform` of its checks and its effect. -/
theorem exec_eq_perform (i : Instr) : ∃ checks effect, exec i = perform i.opcode checks effect := by
  cases i
  · exact ⟨encChecks, encEffect, rfl⟩
  · exact ⟨decChecks, decEffect, rfl⟩
  · exact ⟨mencChecks, mencEffect, rfl⟩
  · exact ⟨mdecChecks, mdecEffect, rfl⟩
  · exact ⟨pktChecks, pktEffect, rfl⟩
  · exact ⟨depktChecks, depktEffect, rfl⟩
  · exact ⟨pushChecks, pushEffect, rfl⟩
  · exact ⟨popChecks, popEffect, rfl⟩
  · exact ⟨noChecks, peekEffect, rfl⟩
  · exact ⟨noChecks, prucurEffect, rfl⟩
  · exact ⟨noChecks, getlenEffect, rfl⟩
  · exact ⟨noChecks, setlenEffect, rfl⟩
  · exact ⟨bitChecks, bgetEffect, rfl⟩
  · exact ⟨bitChecks, bsetEffect, rfl⟩

theorem exec_next (i : Instr) (s : State) : ∃ t, exec i s = .next t := by
  obtain ⟨checks, effect, h⟩ := exec_eq_perform i
  rw [h]
  exact perform_next _ _ _ _

/-- A command that a reset abandons answers a next state, whatever has landed (70_reset_and_hazards.md R230). -/
theorem abandon_next (i : Instr) (memLanded : List Nat) (s : State) : ∃ t, abandon i memLanded s = .next t := by
  cases i
  case push => exact perform_next _ _ _ _
  case setlen => exact perform_next Instr.setlen.opcode noChecks (abandonedAccesses 0 fun _ t => t) s
  all_goals
    obtain ⟨t, h⟩ := exec_next _ s
    exact ⟨_, by rw [abandon, h]; rfl⟩

/-- A reset during a command answers a next state unless a PRU step of the schedule is outside the model. -/
theorem abortCommand_next (w : Word) (mid : List MidStep) (memLanded : List Nat) (s : State)
    (h : midRefusal s.cfg mid = none) : ∃ t, abortCommand w mid memLanded s = .next t := by
  rw [abortCommand, h]
  cases decode w with
  | ok i =>
    obtain ⟨t, ht⟩ := abandon_next i memLanded (s.setMid mid)
    exact ⟨_, by simp only [ht]; rfl⟩
  | error e => exact ⟨_, rfl⟩

end Sys2Proof.Machine
end

