-- ==== Sys2Proof/Laws/Interleave.lean ====
section
/-! SUPPORT. What a PRU step and an interleaving of a command's SHM accesses with PRU steps can do. -/

namespace Sys2Proof.Machine

/-- What a PRU step can do: nothing, write HWCUR, read a byte of SHM, or write a byte of DATA when QDIR = RX
(20_memory.md R57). -/
theorem pruStep_cases (a : PruAct) (s : State) :
    pruStep a s = s ∨
    (∃ v, a = .writeCur v ∧ pruStep a s = s.setShm (s.shm.writeWord hwcurOff v)) ∨
    (∃ off, a = .readByte off ∧ off < dataOff + s.cfg.cap ∧
      pruStep a s = s.setPruSeen ((off, s.shm.read off) :: s.pruSeen)) ∨
    (∃ off b, a = .writeByte off b ∧ dataOff ≤ off ∧ off < dataOff + s.cfg.cap ∧ s.cfg.qdir = .rx ∧
      pruStep a s = s.setShm (s.shm.write off b)) := by
  unfold pruStep
  split
  · exact .inl rfl
  · rename_i h
    cases a with
    | writeCur v => exact .inr (.inl ⟨v, rfl, rfl⟩)
    | readByte off =>
      refine .inr (.inr (.inl ⟨off, rfl, ?_, rfl⟩))
      by_contra hn
      exact h (by simp [pruRefusal, hn])
    | writeByte off b =>
      simp only [pruRefusal] at h
      split at h
      · simp at h
      · rename_i h1
        split at h
        · simp at h
        · rename_i h2
          split at h
          · simp at h
          · rename_i h3
            split at h
            · simp at h
            · rename_i h4
              refine .inr (.inr (.inr ⟨off, b, rfl, by omega, by omega, ?_, rfl⟩))
              cases hq : s.cfg.qdir with
              | tx => exact absurd hq h4
              | rx => rfl

/-- A PRU step changes SHM and what the PRU has seen, and nothing else. -/
theorem pruStep_frame (a : PruAct) (s : State) :
    pruStep a s = { s with shm := (pruStep a s).shm, pruSeen := (pruStep a s).pruSeen } := by
  rcases pruStep_cases a s with h | ⟨v, -, h⟩ | ⟨off, -, -, h⟩ | ⟨off, b, -, -, -, -, h⟩ <;> rw [h] <;> rfl

@[simp] theorem pruStep_cfg (a : PruAct) (s : State) : (pruStep a s).cfg = s.cfg := by rw [pruStep_frame]
@[simp] theorem pruStep_mem (a : PruAct) (s : State) : (pruStep a s).mem = s.mem := by rw [pruStep_frame]
@[simp] theorem pruStep_icur (a : PruAct) (s : State) : (pruStep a s).icur = s.icur := by rw [pruStep_frame]
@[simp] theorem pruStep_mid (a : PruAct) (s : State) : (pruStep a s).mid = s.mid := by rw [pruStep_frame]
@[simp] theorem pruStep_status (a : PruAct) (s : State) : (pruStep a s).status = s.status := by rw [pruStep_frame]
@[simp] theorem pruStep_finfo (a : PruAct) (s : State) : (pruStep a s).finfo = s.finfo := by rw [pruStep_frame]

/-- A PRU step never writes LENGTH (R57). -/
theorem pruStep_read_length (a : PruAct) (s : State) (x : Nat) (hx : x < hwcurOff) :
    (pruStep a s).shm.read x = s.shm.read x := by
  rcases pruStep_cases a s with h | ⟨v, -, h⟩ | ⟨off, -, -, h⟩ | ⟨off, b, -, hd, -, -, h⟩ <;> rw [h]
  · exact Memory.read_writeWord_outside _ _ _ _ (.inl hx)
  · rfl
  · have : x ≠ off := by simp only [dataOff, hwcurOff] at *; omega
    simp [this]

/-- A PRU step writes no byte that its schedule does not name. -/
theorem pruStep_read_other (a : PruAct) (s : State) (x : Nat) (hx : x ∉ pruWrites [.pru a]) :
    (pruStep a s).shm.read x = s.shm.read x := by
  rcases pruStep_cases a s with h | ⟨v, rfl, h⟩ | ⟨off, -, -, h⟩ | ⟨off, b, rfl, -, -, -, h⟩ <;> rw [h]
  · refine Memory.read_writeWord_outside _ _ _ _ ?_
    simp [pruWrites] at hx
    omega
  · rfl
  · have : x ≠ off := by simpa [pruWrites] using hx
    simp [this]

/-- An interleaving keeps whatever every PRU step and every access of the command keeps. -/
theorem interleave_preserves {access : Nat → State → State} {P : State → Prop}
    (hp : ∀ a s, P s → P (pruStep a s)) (sched : List MidStep) (todo : List Nat)
    (ha : ∀ k ∈ todo, ∀ s, P s → P (access k s)) (s : State) (h : P s) : P (interleave access sched todo s) := by
  induction sched generalizing todo s with
  | nil =>
    simp only [interleave]
    induction todo generalizing s with
    | nil => exact h
    | cons k todo ih =>
      exact ih (fun j hj => ha j (by simp [hj])) _ (ha k (by simp) s h)
  | cons m sched ih =>
    cases m with
    | core k =>
      simp only [interleave]
      split
      · rename_i hk
        exact ih _ (fun j hj => ha j (List.mem_of_mem_erase hj)) _ (ha k hk s h)
      · exact ih _ ha s h
    | pru a => exact ih _ ha _ (hp a s h)

/-- With no PRU step inside it, a command makes its accesses in order. -/
theorem shmAccesses_of_mid_nil {access : Nat → State → State} (n : Nat) (s : State) (h : s.mid = []) :
    shmAccesses n access s = (List.range n).foldl (fun t k => access k t) s := by
  have : s.setMid [] = s := by cases s; simp_all [State.setMid]
  rw [shmAccesses, h, this, interleave]

theorem drainMid_of_mid_nil (s : State) (h : s.mid = []) : drainMid s = s := by
  rw [drainMid, shmAccesses_of_mid_nil _ _ h]; rfl

/-- What holds after `setMid []` and is kept by every PRU step and every access holds after the accesses. -/
theorem shmAccesses_preserves {access : Nat → State → State} {P : State → Prop} (n : Nat)
    (hp : ∀ a s, P s → P (pruStep a s)) (ha : ∀ k < n, ∀ s, P s → P (access k s)) (s : State) (h : P (s.setMid [])) :
    P (shmAccesses n access s) :=
  interleave_preserves hp _ _ (fun k hk => ha k (List.mem_range.1 hk)) _ h

/-- What holds after `setMid []` and is kept by every PRU step and every access holds of an abandoned command. -/
theorem abandonedAccesses_preserves {access : Nat → State → State} {P : State → Prop} (n : Nat)
    (hp : ∀ a s, P s → P (pruStep a s)) (ha : ∀ k < n, ∀ s, P s → P (access k s)) (s : State) (h : P (s.setMid [])) :
    P (abandonedAccesses n access s) :=
  interleave_preserves hp _ _ (fun k hk => ha k (List.mem_range.1 (List.mem_of_mem_filter hk))) _ h

/-- With no access to make, an abandoned command leaves what the PRU steps alone leave. -/
theorem abandonedAccesses_zero (access : Nat → State → State) (s : State) :
    abandonedAccesses 0 access s = shmAccesses 0 access s := rfl

theorem foldl_pushAccess (src slot qf n : Nat) (hn : n ≤ qf) (s : State) :
    (List.range n).foldl (fun t k => pushAccess src slot qf k t) s =
      s.setShm (s.shm.writeBytes slot (s.mem.readBytes src n)) := by
  induction n with
  | zero => rfl
  | succ n ih =>
    rw [List.range_succ, List.foldl_append, ih (by omega)]
    simp only [List.foldl_cons, List.foldl_nil, pushAccess, if_pos (show n < qf by omega), State.setShm_shm,
      State.setShm_mem, Memory.readBytes, List.range_succ, List.map_append, List.map_cons, List.map_nil]
    have : ∀ (m : Memory) (a : Nat) (l : List Byte) (b : Byte),
        m.writeBytes a (l ++ [b]) = (m.writeBytes a l).write (a + l.length) b := by
      intro m a l b
      induction l generalizing m a with
      | nil => simp
      | cons c l ih => simp [ih, Nat.add_assoc, Nat.add_comm 1]
    rw [this]
    simp [State.setShm]

end Sys2Proof.Machine
end

