-- ==== Sys2Proof/Laws/PerInstr.lean ====
section
/-! SUPPORT. Facts about every command as syntax, one lemma per constructor of `Instr`. -/

namespace Sys2Proof.Laws.EncodeFields

/-- The word of a command has `RSV` = 0 and its opcode in `OPC` (30_encoding.md R70, R72). -/
def Statement (i : Instr) : Prop := rsvField (encode i) = 0 ∧ opcField (encode i) = i.opcode

theorem enc : Statement .enc := ⟨rfl, rfl⟩
theorem dec : Statement .dec := ⟨rfl, rfl⟩
theorem menc : Statement .menc := ⟨rfl, rfl⟩
theorem mdec : Statement .mdec := ⟨rfl, rfl⟩
theorem pkt : Statement .pkt := ⟨rfl, rfl⟩
theorem depkt : Statement .depkt := ⟨rfl, rfl⟩
theorem push : Statement .push := ⟨rfl, rfl⟩
theorem pop : Statement .pop := ⟨rfl, rfl⟩
theorem peek : Statement .peek := ⟨rfl, rfl⟩
theorem prucur : Statement .prucur := ⟨rfl, rfl⟩
theorem getlen : Statement .getlen := ⟨rfl, rfl⟩
theorem setlen : Statement .setlen := ⟨rfl, rfl⟩
theorem bget : Statement .bget := ⟨rfl, rfl⟩
theorem bset : Statement .bset := ⟨rfl, rfl⟩

end Sys2Proof.Laws.EncodeFields
end

