-- ==== Sys2Proof/Tests/Slice0.lean ====
section
/-! SUPPORT. The model's own tests. Expected values are those of spec/95_test_vectors.md and of the examples of the rules,
with the configuration that file names; and for each statement with hypotheses a concrete state that meets them. -/

namespace Sys2Proof.Machine.Tests

/-- The configuration of 95_test_vectors.md (N = 43, CAP = 270, BIAS = 5, MEM_SIZE = 0x1000, M00 = M11 = 0, QDIR = TX). -/
def params : Params := { Config.parameters with m00 := false, m11 := false, qdir := .tx }

/-- The same with QDIR = RX. -/
def paramsRx : Params := { params with qdir := .rx }

/-- A machine after reset with memory contents and argument registers. -/
def start (mem shm : Memory) (a0 a1 a2 a3 : Word) : State :=
  { State.powerUp params mem shm with a0 := a0, a1 := a1, a2 := a2, a3 := a3 }

/-- A machine with a latched fault. -/
def faultedStart : State := (start [] [] 0 0 0 0).latch .lenMult3 0x01 4

/-- A field of the next state. -/
def out {α : Type} (f : State → α) : Host.Outcome State Fault Refusal → Option α
  | .next t => some (f t)
  | _ => none

/-- STATUS and FINFO of the next state. -/
def faultOut (o : Host.Outcome State Fault Refusal) : Option (Word × Word) := out (fun t => (t.status, t.finfo)) o

/-- The refusal of an outcome. -/
def refusalOf : Host.Outcome State Fault Refusal → Option Refusal
  | .refused r => some r
  | _ => none

/-! ### WellFormed: an ill-formed configuration for each check -/

theorem test_wf_payload : ({ params with n := 0 } : Params).payloadOk = false := by decide
theorem test_wf_triads : ({ params with n := 44 } : Params).triadsOk = false := by decide
theorem test_wf_header : ({ params with n := 8194 } : Params).headerOk = false := by decide
theorem test_wf_capacity : ({ params with cap := 0 } : Params).capacityOk = false := by decide
theorem test_wf_slots : ({ params with cap := 271 } : Params).slotsOk = false := by decide
theorem test_wf_region : ({ params with cap := 2 ^ 32 } : Params).regionOk = false := by decide
theorem test_wf_bias : ({ params with bias := 2 ^ 32 } : Params).biasOk = false := by decide
theorem test_wf_mem_low : ({ params with memSize := 0 } : Params).memOk = false := by decide
theorem test_wf_mem_high : ({ params with memSize := 2 ^ 32 + 1 } : Params).memOk = false := by decide
theorem test_wf_gen : ({ params with gen := Vector.replicate 12 0#24 } : Params).genOk = false := by decide +kernel
theorem test_wf_instr : Instr.bset.wellFormed = true := by decide

theorem genOk_params : params.genOk = true := Codec.genOk_of_rowsOk _ Codec.referenceRows_ok

theorem wellFormed_params : params.wellFormed = true := by
  simp only [Params.wellFormed, genOk_params, Bool.and_true]
  decide

/-! ### Decode: words written out from 30_encoding.md R70 and R72 -/

theorem test_decode_enc : decode 0b00000000000000000000000000000001#32 = .ok .enc := by rfl
theorem test_decode_dec : decode 0b00000000000000000000000000000010#32 = .ok .dec := by rfl
theorem test_decode_menc : decode 0b00000000000000000000000000000011#32 = .ok .menc := by rfl
theorem test_decode_mdec : decode 0b00000000000000000000000000000100#32 = .ok .mdec := by rfl
theorem test_decode_pkt : decode 0b00000000000000000000000000000101#32 = .ok .pkt := by rfl
theorem test_decode_depkt : decode 0b00000000000000000000000000000110#32 = .ok .depkt := by rfl
theorem test_decode_push : decode 0b00000000000000000000000000000111#32 = .ok .push := by rfl
theorem test_decode_pop : decode 0b00000000000000000000000000001000#32 = .ok .pop := by rfl
theorem test_decode_peek : decode 0b00000000000000000000000000001001#32 = .ok .peek := by rfl
theorem test_decode_prucur : decode 0b00000000000000000000000000001010#32 = .ok .prucur := by rfl
theorem test_decode_getlen : decode 0b00000000000000000000000000001011#32 = .ok .getlen := by rfl
theorem test_decode_setlen : decode 0b00000000000000000000000000001100#32 = .ok .setlen := by rfl
theorem test_decode_bget : decode 0b00000000000000000000000000001101#32 = .ok .bget := by rfl
theorem test_decode_bset : decode 0b00000000000000000000000000001110#32 = .ok .bset := by rfl
theorem test_decode_zero : decode 0x00000000#32 = .error .illegalOpcode := by rfl
theorem test_decode_0F : decode 0x0000000F#32 = .error .illegalOpcode := by rfl
theorem test_decode_rsv : decode 0x80000009#32 = .error .reservedBits := by rfl
theorem test_decode_table : decodeTableWord 32 14 = some .bset := by rfl

/-! ### Illegal words (L2-E) and reset -/

theorem test_illegal_rsv : faultOut (command 0x00000101 (start [] [] 0 0 0 0)) = some (0x00010101, 0x00000101) := by decide
theorem test_illegal_FF : faultOut (command 0x000000FF (start [] [] 0 0 0 0)) = some (0x00FF0101, 0x000000FF) := by decide
theorem test_dropped : out (fun t => (t.status, t.result)) (command 0x0000000B faultedStart) =
    some (0x00010201, 0) := by decide
theorem test_fetch : out (fun t => t.result) (step (State.reset.withFetchWord 32 9)) = some 8 := by decide

/-! ### Block code (L2-B) -/

def abc : Memory := [(0, 0x61), (1, 0x62), (2, 0x63)]

theorem test_enc : out (fun t => t.mem.readBytes 0x100 6) (exec .enc (start abc [] 0 0x100 3 0)) =
    some [0x61, 0x63, 0xD3, 0x26, 0x37, 0xD2] := by decide +kernel
theorem test_enc_overlap : faultOut (exec .enc (start [] [] 0 2 3 0)) = some (0x00010801, 0x2) := by decide

/-- A codeword within 3 bits of the received word is what DECW takes. -/
theorem decw_near (s : Sym) (r : Codeword) (hr : Codec.dist r (Codec.gen params s) ≤ 3) :
    Codec.decw params r = (Codec.gen params s, Codec.dist r (Codec.gen params s)) := by
  refine Codec.decw_of_unique _ _ _ ((Codec.mem_code _ _).2 ⟨s, rfl⟩) fun d hd hne => ?_
  obtain ⟨u, rfl⟩ := (Codec.mem_code _ _).1 hd
  have h1 := Codec.dist_gen_ge genOk_params s u fun e => hne (e ▸ rfl)
  have h2 := Codec.dist_triangle (Codec.gen params s) (Codec.gen params u) r
  rw [Codec.dist_comm (Codec.gen params s) r] at h2
  omega

def received : Memory := [(0, 0xE1), (1, 0x63), (2, 0xD2), (3, 0x26), (4, 0x37), (5, 0xC2)]

/-- DEC's bytes for one pair of codewords, from what DECW and the symbol look-up give for each. -/
theorem decode_pair (b0 b1 b2 b3 b4 b5 : Byte) (r0 r1 c0 c1 : Codeword) (s0 s1 : Sym) (n0 n1 : Nat)
    (h0 : Codec.codewordOf b0 b1 b2 = r0) (h1 : Codec.codewordOf b3 b4 b5 = r1)
    (d0 : Codec.decw params r0 = (c0, n0)) (d1 : Codec.decw params r1 = (c1, n1))
    (i0 : Codec.symOf params c0 = s0) (i1 : Codec.symOf params c1 = s1) :
    Codec.decodeBytes params [b0, b1, b2, b3, b4, b5] = (Codec.join s0 s1, n0 + n1) := by
  simp only [Codec.decodeBytes, h0, h1, d0, d1, i0, i1, List.append_nil, Nat.add_zero]

theorem decode_received : Codec.decodeBytes params [0xE1, 0x63, 0xD2, 0x26, 0x37, 0xC2] = ([0x61, 0x62, 0x63], 3) := by
  rw [decode_pair _ _ _ _ _ _ 0xE163D2 0x2637C2 _ _ _ _ _ _ (by decide) (by decide)
    (decw_near 0x616 0xE163D2 (by decide +kernel)) (decw_near 0x263 0x2637C2 (by decide +kernel))
    (Codec.symOf_gen genOk_params 0x616) (Codec.symOf_gen genOk_params 0x263)]
  decide +kernel

/-- DEC of `E1 63 D2 26 37 C2` (R103's example): `61 62 63`, DIAG = 3. -/
theorem test_dec : out (fun t => (t.mem.readBytes 0x100 3, t.diag)) (exec .dec (start received [] 0 0x100 6 0)) =
      some ([0x61, 0x62, 0x63], 3) := by
  have hr : received.readBytes 0 6 = [0xE1, 0x63, 0xD2, 0x26, 0x37, 0xC2] := by decide
  rw [show exec .dec = perform Instr.dec.opcode decChecks decEffect from rfl, perform_pass _ _ _ _ (by decide) (by decide)]
  simp only [decEffect, start, State.x0, State.x1, State.x2]
  simp only [State.powerUp_mem, State.powerUp_cfg]
  rw [show (0 : Word).toNat = 0 from rfl, show (6 : Word).toNat = 6 from rfl, hr, decode_received]
  decide
theorem test_dec_len3 : faultOut (exec .dec (start [] [] 0 0x100 3 0)) = some (0x00020301, 0x3) := by decide

/-! ### Line code (L2-L) -/

theorem test_menc : out (fun t => t.mem.readBytes 0x10 4) (exec .menc (start [(0, 0x12), (1, 0x34)] [] 0 0x10 2 4)) =
    some [0xA9, 0xA6, 0xA5, 0x9A] := by decide
theorem test_menc_length : faultOut (exec .menc (start [] [] 0 0x10 2 3)) = some (0x00030401, 0x3) := by decide
theorem test_mdec : out (fun t => (t.mem.readBytes 0x10 2, t.diag))
    (exec .mdec (start [(0, 0xA9), (1, 0xA6), (2, 0xA5), (3, 0x9A)] [] 0 0x10 4 2)) = some ([0x12, 0x34], 0) := by decide
theorem test_mdec_invalid : out (fun t => (t.mem.readBytes 0x38 1, t.diag))
    (exec .mdec { start [(0x30, 0x06), (0x31, 0xA9)] [] 0x30 0x38 2 1 with cfg := { params with m00 := true } }) =
      some ([0xE1], 2) := by decide

/-! ### Framer (L2-F) -/

theorem test_pkt : out (fun t => (t.mem.readBytes 0x100 6, t.mem.read 0x12D))
    (exec .pkt (start [(0, 0x12), (1, 0x34), (2, 0x5F), (0x110, 0xEE), (0x12D, 0xEE)] [] 0 0x100 20 0)) =
      some ([0x14, 0x00, 0x12, 0x34, 0x5F, 0x00], 0xEE) := by decide
theorem test_pkt_bitlen : faultOut (exec .pkt (start [] [] 0 0x100 345 0)) = some (0x00050501, 0x159) := by decide
theorem test_depkt : out (fun t => (t.mem.readBytes 0x200 3, t.result))
    (exec .depkt (start [(0x100, 0x0C), (0x102, 0xAB), (0x103, 0xCD), (0x104, 0xEE)] [] 0x100 0x200 0 0)) =
      some ([0xAB, 0xCD, 0x00], 12) := by decide
theorem test_depkt_header : faultOut (exec .depkt (start [(0x100, 0x59), (0x101, 0x01)] [] 0x100 0x200 0 0)) =
    some (0x00060601, 0x159) := by decide

/-! ### ByteQueue (L2-Q) -/

theorem test_push_wrap : out (fun t => (t.shm.read 188, t.shm.read 277, t.lengthField, t.icur))
    (exec .push { start [(0, 0x11), (89, 0x22)] [(0, 180)] 0 0 0 0 with icur := 180 }) =
      some (0x11, 0x22, 270, 0) := by decide +kernel
theorem test_push_length_wraps : out (fun t => (t.lengthField, t.icur))
    (exec .push (start [] [(0, 0xF0), (1, 0xFF), (2, 0xFF), (3, 0xFF)] 0 0 0 0)) = some (0x4A, 90) := by decide +kernel
theorem test_pop : out (fun t => (t.mem.read 0x300, t.mem.read 0x359, t.lengthField, t.icur))
    (exec .pop (start [] [(0, 7), (8, 0x11), (97, 0x22)] 0x300 0 0 0)) = some (0x11, 0x22, 7, 90) := by decide +kernel
theorem test_pop_range : faultOut (exec .pop (start [] [] 0xFB0 0 0 0)) = some (0x00080701, 0xFB0) := by decide
theorem test_peek : out (fun t => t.result) (exec .peek { start [] [] 0 0 0 0 with icur := 90 }) = some 98 := by decide
theorem test_prucur : out (fun t => t.result) (exec .prucur (start [] [(4, 97)] 0 0 0 0)) = some 92 := by decide
theorem test_prucur_below_bias : out (fun t => t.result) (exec .prucur (start [] [] 0 0 0 0)) = some 0xFFFFFFFB := by
  decide
theorem test_getlen : out (fun t => t.result) (exec .getlen (start [] [(0, 0x8C)] 0 0 0 0)) = some 140 := by decide
theorem test_setlen : out (fun t => t.shm.readBytes 0 4) (exec .setlen (start [] [] 0x12345678 0 0 0)) =
    some [0x78, 0x56, 0x34, 0x12] := by decide

/-- A PRUCUR with a PRU write of HWCUR before its read returns the new value (20_memory.md R54 (b)). -/
theorem test_prucur_during : out (fun t => t.result)
    (exec .prucur ((start [] [(4, 97)] 0 0 0 0).setMid [.pru (.writeCur 189), .core 0, .pru (.writeCur 281)])) =
      some 184 := by decide

/-- A POP while the PRU writes the slot (QDIR = RX) reads old and new bytes (20_memory.md R61). -/
theorem test_pop_torn : out (fun t => (t.mem.read 0x300, t.mem.read 0x301))
    (exec .pop { start [] [(8, 1), (9, 2)] 0x300 0 0 0 with
      cfg := paramsRx, mid := [.core 0, .pru (.writeByte 8 0x77), .pru (.writeByte 9 0x88)] }) = some (1, 0x88) := by
  decide +kernel

/-! ### BitOps (L2-T) -/

theorem test_bget : out (fun t => t.result) (exec .bget (start [(0x40, 0x61), (0x41, 0x80)] [] 0x40 8 0 0)) = some 1 := by
  decide
theorem test_bget_range : faultOut (exec .bget (start [] [] 0xFFFFFFFF 8 0 0)) = some (0x000D0701, 0) := by decide
theorem test_bset : out (fun t => t.mem.read 0x40) (exec .bset (start [(0x40, 0x61)] [] 0x40 0 1 0)) = some 0xE1 := by
  decide
theorem test_bset_value : out (fun t => t.mem.read 0x40) (exec .bset (start [(0x40, 0x61)] [] 0x40 7 2 0)) =
    some 0x60 := by decide

/-! ### Agents -/

theorem test_port_narrow : refusalOf (takeInput (.hostRead 0x14 2) (start [] [] 0 0 0 0)) = some .portAccess := by decide
theorem test_port_beyond : refusalOf (takeInput (.hostRead 0x100 4) (start [] [] 0 0 0 0)) = some .beyondPort := by decide
theorem test_cfg_qf : out (fun t => t.hostData) (takeInput (.hostRead 0x2C 4) (start [] [] 0 0 0 0)) = some 90 := by decide
theorem test_shm_read : out (fun t => t.hostBytes) (takeInput (.shmRead 4 4) (start [] [(4, 0xBD)] 0 0 0 0)) =
    some [0xBD, 0, 0, 0] := by decide
theorem test_pru_outside : refusalOf (takeInput (.pru (.readByte 278)) (start [] [] 0 0 0 0)) = some .pruOutsideShm := by
  decide
theorem test_abort : out (fun t => (t.mem.readBytes 0x10 2, t.a0, t.status))
    (takeInput (.resetDuring 0x00000003 [] [0x11]) (start [(0, 0x61)] [] 0 0x10 1 2)) = some ([0x00, 0xA9], 0, 0) := by
  decide

/-- A PUSH that a reset abandons, the PRU reading inside it: byte 1 of the slot has landed, LENGTH keeps 90 (R230). -/
theorem test_abandoned_push : out (fun t => (t.shm.readBytes 8 3, t.lengthField, t.icur, t.pruSeen))
    (takeInput (.resetDuring 7 [.core 1, .core 90, .pru (.readByte 9), .pru (.readByte 8)] [])
      (start [(0, 0x61), (1, 0x62), (2, 0x63)] [(0, 90), (8, 0x11)] 0 0 0 0)) =
      some ([0x11, 0x62, 0], 90, 0, [(8, 0x11), (9, 0x62)]) := by decide +kernel

/-- A POP that a reset abandons, the PRU writing the slot inside it (QDIR = RX): each MEM byte old or the byte read. -/
theorem test_abandoned_pop : out (fun t => (t.mem.readBytes 0x300 3, t.shm.readBytes 8 2))
    (takeInput (.resetDuring 8 [.core 0, .pru (.writeByte 8 0x77), .pru (.writeByte 9 0x88)] [0x300, 0x301])
      { start [] [(8, 1), (9, 2), (10, 3)] 0x300 0 0 0 with cfg := paramsRx }) =
      some ([1, 0x88, 0], [0x77, 0x88]) := by decide +kernel

/-- Program P1 of 95_test_vectors.md, lines 7 and 8: the PRU writes HWCUR, PRUCUR translates it. -/
theorem test_P1_cursor : out (fun t => (t.result, t.shm.readBytes 4 4))
    (takeAll (programInputs [.pruWcur 97, .prucur]) (start [] [] 0 0 0 0)) = some (92, [0x61, 0, 0, 0]) := by decide

/-! ### Witnesses: a state and operands that meet the hypotheses of each statement, clause by clause -/

/-- A state between steps that meets the invariant. -/
def idleState : State := start [(0, 0x61), (1, 0x62), (2, 0x63), (3, 0x0C)] [(0, 90), (4, 97), (8, 0x11)] 0 0x100 3 6

theorem witness_invariant : idleState.Inv where
  cfgOk := wellFormed_params
  memWf := by decide
  memBelow := by decide
  shmWf := by decide
  shmBelow := by decide
  icurSlot := by decide
  icurBelow := by decide
  statusReserved := by decide
  noFault := by decide
  causeKnown := fun h => absurd h (by decide)
  idle := rfl

theorem witness_StepRunsDecodedCommand :
    (∃ (s : State) (w : Word) (i : Instr) (mid : List MidStep) (rest : List Input),
      s.inputs = .hostWrite 0 4 w mid :: rest ∧ midRefusal s.cfg mid = none ∧ decode w = .ok i) ∧
    ∃ s : State, s.mid = [] :=
  ⟨⟨idleState.setInputs [.hostWrite 0 4 10 [.pru (.writeCur 5)], .reset], 10, .prucur, [.pru (.writeCur 5)], [.reset],
    rfl, rfl, rfl⟩, idleState, rfl⟩

theorem witness_IllegalCommandFaults : (∃ (s : State) (w : Word) (mid : List MidStep), s.faulted = false ∧ mid ≠ [] ∧
      midRefusal s.cfg mid = none ∧ ∀ i, w ≠ encode i) ∧
    ∃ (s : State) (w : Word) (rest : List Input), s.inputs = .hostWrite 0 4 w [] :: rest ∧ s.mid = [] ∧
      s.faulted = false ∧ ∀ i, w ≠ encode i :=
  ⟨⟨idleState, 0x0F, [.pru (.writeCur 5)], by decide, by decide, by decide, by intro i; cases i <;> decide⟩,
    idleState.setInputs [.hostWrite 0 4 0x101 []], 0x101, [], rfl, rfl, by decide, by intro i; cases i <;> decide⟩

theorem witness_StepKeepsInvariant : ∃ s t : State, s.Inv ∧ s.inputs = [] ∧ step s = .next t :=
  ⟨idleState, idleState, witness_invariant, rfl, rfl⟩

theorem witness_ResetDuringCommand :
    (∃ (s t : State) (w : Word) (mid : List MidStep) (k : Nat), takeInput (.hostWrite 0 4 w mid) s = .next t ∧
      k < s.cfg.qf ∧ w = encode .push ∧ MidStep.core k ∈ mid) ∧
    ∃ (s t : State) (w : Word) (mid : List MidStep), takeInput (.hostWrite 0 4 w mid) s = .next t ∧ mid ≠ [] ∧
      w ≠ encode .push :=
  ⟨⟨idleState, _, 7, [.core 1, .pru (.readByte 9)], 1, rfl, by decide, rfl, by decide⟩,
    idleState, _, 8, [.pru (.readByte 9)], rfl, by decide, by decide⟩

theorem witness_PruMaySeeAbandonedPushOutOfOrder : ∃ s : State, s.Inv ∧ s.faulted = false ∧
    rangeOk s.cfg s.x0 s.cfg.qf = true := ⟨idleState, witness_invariant, by decide⟩

theorem witness_AssemblerLineRunsCommand : ([] : List Word).length ≤ 4 ∧ ([1, 2, 3, 4] : List Word).length ≤ 4 := by
  decide

theorem witness_ConstructionChecksParameters : (∃ p : Params, ¬ (1 ≤ p.n)) ∧
    1 ≤ params.n ∧ (params.n + 2) % 3 = 0 ∧ 8 * params.n ≤ 65535 ∧ 2 * (params.n + 2) ≤ params.cap ∧
    params.cap % (2 * (params.n + 2)) = 0 ∧ 8 + params.cap ≤ 2 ^ 32 ∧ params.bias < 2 ^ 32 ∧ 1 ≤ params.memSize ∧
    params.memSize ≤ 2 ^ 32 ∧ ∀ a b : Sym, a ≠ b → 7 ≤ Codec.dist (Codec.gen params a) (Codec.gen params b) :=
  ⟨⟨{ params with n := 0 }, by decide⟩, by decide, by decide, by decide, by decide, by decide, by decide, by decide,
    by decide, by decide, fun a b h => Codec.dist_gen_ge genOk_params a b h⟩

theorem witness_RegisterMapReads : (0xFC % 4 = 0 ∧ 0xFC < 256) ∧ (0x00 % 4 = 0 ∧ 0x00 < 256) := by decide

theorem witness_RegisterMapWrites : ∃ (s : State) (off : Nat), s.mid = [] ∧ off % 4 = 0 ∧ off < 256 ∧ off ≠ 0 :=
  ⟨idleState, 0x10, by decide⟩

theorem witness_PortTakesAlignedWords : ((2 : Nat) ≠ 4 ∨ 0x14 % 4 ≠ 0) ∧ ((4 : Nat) ≠ 4 ∨ 0x15 % 4 ≠ 0) := by decide

theorem witness_HostReadsWhatItWrote : ∃ (s : State) (a : Nat) (bs : List Byte), a + bs.length ≤ s.cfg.memSize :=
  ⟨idleState, 0xFFE, [1, 2], by decide⟩

theorem witness_ByteViewsOfSharedWords : (3 : Nat) < 4 := by decide

theorem witness_PruTouchesOnlyItsBytes : (277 < 8 + idleState.cfg.cap) ∧
    (8 ≤ 277 ∧ 277 < 8 + paramsRx.cap ∧ paramsRx.qdir = .rx) ∧ (8 ≤ 8 ∧ 8 < 8 + params.cap ∧ params.qdir = .tx) ∧
    3 < 4 ∧ 4 ≤ 7 ∧ 7 < 8 := by decide

theorem witness_EncWritesCodewords : ∃ s : State, s.faulted = false ∧ s.x2 % 3 = 0 ∧ 0 < s.x2 ∧
    s.BuffersOk s.x2 (2 * s.x2) := ⟨start abc [] 0 3 3 0, by decide⟩

theorem witness_DecWritesSymbols : ∃ s : State, s.faulted = false ∧ s.x2 % 6 = 0 ∧ 0 < s.x2 ∧
    s.BuffersOk s.x2 (s.x2 / 2) := ⟨start abc [] 0 6 6 0, by decide⟩

theorem witness_DecwTakesNearestCodeword : ∃ (r c : Codeword), Codec.nearest params r = [c] := by
  refine ⟨Codec.gen params 0, Codec.gen params 0, ?_⟩
  have hm : ∀ d, d ∈ Codec.nearest params (Codec.gen params 0) → d = Codec.gen params 0 := by
    intro d hd
    obtain ⟨h1, h2⟩ := (Codec.mem_nearest _ _ _).1 hd
    have h3 := h2 _ ((Codec.mem_code _ _).2 ⟨0, rfl⟩)
    obtain ⟨u, rfl⟩ := (Codec.mem_code _ _).1 h1
    by_contra hne
    have h4 := Codec.dist_gen_ge genOk_params 0 u fun e => hne (e ▸ rfl)
    have h5 : Codec.dist (Codec.gen params 0) (Codec.gen params 0) = 0 := by simp [Codec.dist, Codec.popcount]
    omega
  have hnd : (Codec.nearest params (Codec.gen params 0)).Nodup := by
    refine List.Nodup.filter _ (List.Nodup.map_on ?_ List.nodup_range)
    intro x hx y hy e
    have := congrArg BitVec.toNat (Codec.gen_injective genOk_params e)
    simp only [BitVec.toNat_ofNat] at this
    have := List.mem_range.1 hx
    have := List.mem_range.1 hy
    omega
  have hne := Codec.nearest_ne_nil params (Codec.gen params 0)
  match h : Codec.nearest params (Codec.gen params 0), hne with
  | [c], _ =>
    rw [h] at hm
    rw [hm c (by simp)]
  | c :: d :: l, _ =>
    rw [h] at hnd hm
    have h1 := hm c (by simp)
    have h2 := hm d (by simp)
    simp [h1, h2] at hnd

theorem witness_BoundedCorrection : params.genOk = true ∧ Codec.popcount (0x801001#24) ≤ 3 := ⟨genOk_params, by decide⟩

theorem witness_EncDecRoundTrip : ∃ (s : State) (a b c n : Word), s.cfg.genOk = true ∧ s.faulted = false ∧
    n.toNat % 3 = 0 ∧ 0 < n.toNat ∧ 2 * n.toNat < 2 ^ 32 ∧ rangeOk s.cfg a.toNat n.toNat = true ∧
    rangeOk s.cfg b.toNat (2 * n.toNat) = true ∧ rangeOk s.cfg c.toNat n.toNat = true ∧
    overlap a.toNat n.toNat b.toNat (2 * n.toNat) = false ∧ overlap b.toNat (2 * n.toNat) c.toNat n.toNat = false :=
  ⟨idleState, 0, 3, 0, 3, genOk_params, by decide⟩

theorem witness_DecIsLocalToItsCodeword : ∃ (s s' t t' : State) (j : Nat), s ≠ s' ∧ s.faulted = false ∧ s'.faulted = false ∧
    s.cfg = s'.cfg ∧ s.a0 = s'.a0 ∧ s.a1 = s'.a1 ∧ s.a2 = s'.a2 ∧ s.x2 % 6 = 0 ∧ s.BuffersOk s.x2 (s.x2 / 2) ∧
    j < s.x2 / 3 ∧ (∀ d, d < 3 → s.mem.read (s.x0 + 3 * j + d) = s'.mem.read (s.x0 + 3 * j + d)) ∧
    exec .dec s = .next t ∧ exec .dec s' = .next t' :=
  ⟨start abc [] 0 6 6 0, start [(0, 0x77)] [] 0 6 6 0, _, _, 1, by decide, rfl, rfl, rfl, rfl, rfl, rfl, rfl,
    by decide, by decide, by decide, rfl, rfl⟩

theorem witness_EncBitStreams : ∃ (s t : State) (k : Nat) (sym : Sym), s.faulted = false ∧ s.x2 % 3 = 0 ∧
    s.BuffersOk s.x2 (2 * s.x2) ∧ k < 2 * (s.x2 / 3) ∧
    (∀ j, j < 12 → sym.getLsbD (11 - j) = s.mem.bitAt s.x0 (12 * k + j)) ∧ exec .enc s = .next t :=
  ⟨start abc [] 0 3 3 0, _, 1, 0x263, rfl, rfl, by decide, by decide, by decide, rfl⟩

theorem witness_BlockCodeFaultOrder :
    (let s := start [] [] 0xFFF 0x100 4 0; s.faulted = false ∧ s.x2 % 3 ≠ 0 ∧ s.x2 % 6 ≠ 0) ∧
    (let s := start [] [] 0xFFE 0 3 0; s.x2 % 3 = 0 ∧ rangeOk s.cfg s.x0 s.x2 = false) ∧
    (let s := start [] [] 0 0xFFB 3 0; s.x2 % 3 = 0 ∧ rangeOk s.cfg s.x0 s.x2 = true ∧
      rangeOk s.cfg s.x1 (2 * s.x2) = false) ∧
    (let s := start [] [] 0 2 3 0; s.x2 % 3 = 0 ∧ rangeOk s.cfg s.x0 s.x2 = true ∧ rangeOk s.cfg s.x1 (2 * s.x2) = true ∧
      overlap s.x0 s.x2 s.x1 (2 * s.x2) = true) ∧
    (let s := start [] [] 0xFFB 0 6 0; s.x2 % 6 = 0 ∧ rangeOk s.cfg s.x0 s.x2 = false) ∧
    (let s := start [] [] 0 0xFFE 6 0; s.x2 % 6 = 0 ∧ rangeOk s.cfg s.x0 s.x2 = true ∧
      rangeOk s.cfg s.x1 (s.x2 / 2) = false) ∧
    (let s := start [] [] 0x100 0x105 6 0; s.x2 % 6 = 0 ∧ rangeOk s.cfg s.x0 s.x2 = true ∧
      rangeOk s.cfg s.x1 (s.x2 / 2) = true ∧ overlap s.x0 s.x2 s.x1 (s.x2 / 2) = true) := by decide

theorem witness_MencWritesPairs : ∃ s t : State, s.faulted = false ∧ s.x3 = 2 * s.x2 ∧ 0 < s.x2 ∧ s.BuffersOk s.x2 s.x3 ∧
    exec .menc s = .next t := ⟨start abc [] 0 1 1 2, _, by decide, by decide, by decide, by decide, rfl⟩

theorem witness_MdecWritesBits : ∃ s : State, s.faulted = false ∧ s.x2 = 2 * s.x3 ∧ 0 < s.x2 ∧ s.BuffersOk s.x2 s.x3 :=
  ⟨start abc [] 0 2 2 1, by decide⟩

theorem witness_MencMdecRoundTrip : ∃ (s : State) (a b c n : Word), s.faulted = false ∧ 0 < n.toNat ∧
    2 * n.toNat < 2 ^ 32 ∧ rangeOk s.cfg a.toNat n.toNat = true ∧ rangeOk s.cfg b.toNat (2 * n.toNat) = true ∧
    rangeOk s.cfg c.toNat n.toNat = true ∧ overlap a.toNat n.toNat b.toNat (2 * n.toNat) = false ∧
    overlap b.toNat (2 * n.toNat) c.toNat n.toNat = false := ⟨idleState, 0, 3, 9, 3, by decide⟩

theorem witness_LineCodeIndependentOfBlockCode : ∃ (s t t' u u' : State) (gen : Vector Codeword 12),
    s.faulted = false ∧ s.cfg.gen ≠ gen ∧ exec .menc s = .next t ∧
    exec .menc { s with cfg := { s.cfg with gen := gen } } = .next t' ∧ exec .mdec s = .next u ∧
    exec .mdec { s with cfg := { s.cfg with gen := gen } } = .next u' :=
  ⟨start abc [] 0 1 1 2, _, _, _, _, Vector.replicate 12 0#24, rfl, by decide, rfl, rfl, rfl, rfl⟩

theorem witness_LineCodeFaultOrder :
    (let s := start [] [] 0 0x10 2 3; s.faulted = false ∧ s.x3 ≠ 2 * s.x2 ∧ s.x2 ≠ 2 * s.x3) ∧
    (let s := start [] [] 0x1000 0 1 2; s.x3 = 2 * s.x2 ∧ rangeOk s.cfg s.x0 s.x2 = false) ∧
    (let s := start [] [] 0 0xFFF 1 2; s.x3 = 2 * s.x2 ∧ rangeOk s.cfg s.x0 s.x2 = true ∧
      rangeOk s.cfg s.x1 s.x3 = false) ∧
    (let s := start [] [] 1 0 1 2; s.x3 = 2 * s.x2 ∧ rangeOk s.cfg s.x0 s.x2 = true ∧ rangeOk s.cfg s.x1 s.x3 = true ∧
      overlap s.x0 s.x2 s.x1 s.x3 = true) ∧
    (let s := start [] [] 0xFFF 0 2 1; s.x2 = 2 * s.x3 ∧ rangeOk s.cfg s.x0 s.x2 = false) ∧
    (let s := start [] [] 0 0x1000 2 1; s.x2 = 2 * s.x3 ∧ rangeOk s.cfg s.x0 s.x2 = true ∧
      rangeOk s.cfg s.x1 s.x3 = false) ∧
    (let s := start [] [] 0 1 2 1; s.x2 = 2 * s.x3 ∧ rangeOk s.cfg s.x0 s.x2 = true ∧ rangeOk s.cfg s.x1 s.x3 = true ∧
      overlap s.x0 s.x2 s.x1 s.x3 = true) := by decide

theorem witness_PktWritesFrame : ∃ s : State, s.faulted = false ∧ s.x2 ≤ 8 * s.cfg.n ∧ 0 < s.x2 ∧
    s.BuffersOk (Codec.ceil8 s.x2) (s.cfg.n + 2) := ⟨start abc [] 0 0x100 344 0, by decide⟩

theorem witness_DepktWritesPayload : ∃ (s : State) (h : Nat),
    h = (s.mem.read s.x0).toNat + 256 * (s.mem.read (s.x0 + 1)).toNat ∧ 0 < h ∧ s.faulted = false ∧
    rangeOk s.cfg s.x0 (s.cfg.n + 2) = true ∧ h ≤ 8 * s.cfg.n ∧ rangeOk s.cfg s.x1 (Codec.ceil8 h) = true ∧
    overlap s.x0 (s.cfg.n + 2) s.x1 (Codec.ceil8 h) = false :=
  ⟨start [(0, 0x58), (1, 0x01)] [] 0 45 0 0, 344, by decide⟩

theorem witness_PktDepktRoundTrip : ∃ (s : State) (d f e b : Word), s.faulted = false ∧ 0 < b.toNat ∧
    b.toNat ≤ 8 * s.cfg.n ∧ 8 * s.cfg.n ≤ 65535 ∧ rangeOk s.cfg d.toNat (Codec.ceil8 b.toNat) = true ∧
    rangeOk s.cfg f.toNat (s.cfg.n + 2) = true ∧ rangeOk s.cfg e.toNat (Codec.ceil8 b.toNat) = true ∧
    overlap d.toNat (Codec.ceil8 b.toNat) f.toNat (s.cfg.n + 2) = false ∧
    overlap f.toNat (s.cfg.n + 2) e.toNat (Codec.ceil8 b.toNat) = false := ⟨idleState, 0, 0x10, 0x100, 20, by decide⟩

theorem witness_FramerFaultOrder :
    (let s := start [] [] 0 0x100 345 0; s.faulted = false ∧ 8 * s.cfg.n < s.x2) ∧
    (let s := start [] [] 0xFFF 0 9 0; s.x2 ≤ 8 * s.cfg.n ∧ rangeOk s.cfg s.x0 ((s.x2 + 7) / 8) = false) ∧
    (let s := start [] [] 0 0xFD4 8 0; s.x2 ≤ 8 * s.cfg.n ∧ rangeOk s.cfg s.x0 ((s.x2 + 7) / 8) = true ∧
      rangeOk s.cfg s.x1 (s.cfg.n + 2) = false) ∧
    (let s := start [] [] 0 2 24 0; s.x2 ≤ 8 * s.cfg.n ∧ rangeOk s.cfg s.x0 ((s.x2 + 7) / 8) = true ∧
      rangeOk s.cfg s.x1 (s.cfg.n + 2) = true ∧ overlap s.x0 ((s.x2 + 7) / 8) s.x1 (s.cfg.n + 2) = true) ∧
    (let s := start [] [] 0xFE0 0 0 0; rangeOk s.cfg s.x0 (s.cfg.n + 2) = false) ∧
    (let s := start [(0, 0x59), (1, 0x01)] [] 0 0x200 0 0; rangeOk s.cfg s.x0 (s.cfg.n + 2) = true ∧
      8 * s.cfg.n < (s.mem.read s.x0).toNat + 256 * (s.mem.read (s.x0 + 1)).toNat) ∧
    (let s := start [(0, 0x09)] [] 0 0xFFF 0 0; rangeOk s.cfg s.x0 (s.cfg.n + 2) = true ∧ 9 ≤ 8 * s.cfg.n ∧
      rangeOk s.cfg s.x1 ((9 + 7) / 8) = false) ∧
    (let s := start [(0, 0x09)] [] 0 44 0 0; rangeOk s.cfg s.x0 (s.cfg.n + 2) = true ∧ 9 ≤ 8 * s.cfg.n ∧
      rangeOk s.cfg s.x1 ((9 + 7) / 8) = true ∧ overlap s.x0 (s.cfg.n + 2) s.x1 ((9 + 7) / 8) = true) := by decide

theorem witness_PushWritesSlotLengthCursor : ∃ s : State, s.Inv ∧ s.faulted = false ∧ s.mid = [] ∧
    rangeOk s.cfg s.x0 s.cfg.qf = true := ⟨idleState, witness_invariant, by decide⟩

theorem witness_PushUnderPruSteps : ∃ s : State, s.faulted = false ∧ s.mid ≠ [] ∧ rangeOk s.cfg s.x0 s.cfg.qf = true :=
  ⟨{ idleState with cfg := paramsRx, mid := [.core 0, .pru (.writeByte 8 1), .pru (.writeByte 9 2)] }, by decide⟩

theorem witness_PopCopiesSlot : ∃ s : State, s.faulted = false ∧ s.mid ≠ [] ∧ s.cfg.qdir = .tx ∧
    rangeOk s.cfg s.x0 s.cfg.qf = true := ⟨idleState.setMid [.core 3, .pru (.readByte 8)], by decide⟩

theorem witness_PeekGivesSlotOffset : ∃ s : State, s.faulted = false ∧ s.icur.toNat < s.cfg.cap ∧ 8 + s.cfg.cap ≤ 2 ^ 32 :=
  ⟨idleState.setIcur 180, by decide⟩

theorem witness_PrucurTranslatesCursor : ∃ s u : State, s.faulted = false ∧ s.mid = [] ∧ u.faulted = false ∧
    u.hwcur = BitVec.ofNat 32 u.cfg.bias := ⟨idleState, start [] [(4, 5)] 0 0 0 0, by decide⟩

theorem witness_CursorTranslationVector : ∀ v : Word, v ∈ [5, 97, 189, 281, 0] → ∃ s : State, s.faulted = false ∧
    s.mid = [] ∧ s.cfg.bias = 5 ∧ s.hwcur = v := by
  intro v hv
  simp only [List.mem_cons, List.not_mem_nil, or_false] at hv
  rcases hv with rfl | rfl | rfl | rfl | rfl
  · exact ⟨start [] [(4, 5)] 0 0 0 0, by decide⟩
  · exact ⟨start [] [(4, 97)] 0 0 0 0, by decide⟩
  · exact ⟨start [] [(4, 189)] 0 0 0 0, by decide⟩
  · exact ⟨start [] [(4, 25), (5, 1)] 0 0 0 0, by decide⟩
  · exact ⟨start [] [] 0 0 0 0, by decide⟩

theorem witness_GetlenGivesLength : ∃ s : State, s.faulted = false ∧ s.mid = [] := ⟨idleState, by decide⟩

theorem witness_SetlenWritesLength : ∃ s : State, s.faulted = false ∧ s.a0 ≠ 0 := ⟨start [] [] 0x12345678 0 0 0, by decide⟩

theorem witness_CursorProgression : ∃ (s : State) (l : List Instr), s.Inv ∧ s.faulted = false ∧
    rangeOk s.cfg s.x0 s.cfg.qf = true ∧ (∀ i ∈ l, i = .push ∨ i = .pop) ∧ l ≠ [] :=
  ⟨idleState, [.push, .pop], witness_invariant, rfl, rfl, by simp, by simp⟩

theorem sources_ok : ∀ a ∈ ([0, 0x100, 0x200, 0x300] : List Word), rangeOk idleState.cfg a.toNat idleState.cfg.qf = true := by
  intro a ha
  simp only [List.mem_cons, List.not_mem_nil, or_false] at ha
  rcases ha with rfl | rfl | rfl | rfl <;> rfl

theorem witness_OverwriteOnWrap : ∃ (s : State) (srcs : List Word), s.Inv ∧ s.faulted = false ∧ s.icur = 0 ∧
    (∀ a ∈ srcs, rangeOk s.cfg a.toNat s.cfg.qf = true) ∧ s.cfg.cap / s.cfg.qf < srcs.length :=
  ⟨idleState, [0, 0x100, 0x200, 0x300], witness_invariant, rfl, rfl, sources_ok, by decide +kernel⟩

theorem witness_PopsAfterResetReturnLastFrames : ∃ (s : State) (srcs : List Word) (d k c : Nat), s.Inv ∧
    s.faulted = false ∧ s.icur = 0 ∧ k = srcs.length ∧ c = s.cfg.cap / s.cfg.qf ∧ c < k ∧
    (∀ a ∈ srcs, rangeOk s.cfg a.toNat s.cfg.qf = true) ∧ d + (k % c) * s.cfg.qf ≤ s.cfg.memSize :=
  ⟨idleState, [0, 0x100, 0x200, 0x300], 0x400, 4, 3, witness_invariant, rfl, rfl, rfl, by decide, by decide, sources_ok,
    by decide⟩

theorem witness_AccessOrderDoesNotShow : ∃ s : State, s.Inv ∧ rangeOk s.cfg s.x0 s.cfg.qf = true :=
  ⟨idleState, witness_invariant, by decide⟩

theorem witness_PruMaySeeLengthBeforeData : ∃ s : State, s.Inv ∧ s.faulted = false ∧ rangeOk s.cfg s.x0 s.cfg.qf = true :=
  ⟨idleState, witness_invariant, by decide⟩

theorem witness_QueueAndBitRangeFaults :
    (let s := start [] [] 0xFA7 0 0 0; s.faulted = false ∧ rangeOk s.cfg s.x0 s.cfg.qf = false) ∧
    (let s := start [] [] 0 0x8000 0 0; s.faulted = false ∧ s.cfg.memSize ≤ s.x0 + s.x1 / 8) := by decide

theorem witness_BgetReadsBit : ∃ s : State, s.faulted = false ∧ s.x0 + s.x1 / 8 < s.cfg.memSize :=
  ⟨start abc [] 0xFFF 7 0 0, by decide⟩

theorem witness_BsetWritesBit : ∃ (s : State) (j : Nat), s.faulted = false ∧ s.x0 + s.x1 / 8 < s.cfg.memSize ∧ j < 8 ∧
    j ≠ s.x1 % 8 := ⟨start abc [] 0xFFF 7 1 0, 0, by decide⟩

theorem witness_BsetThenBget : ∃ (s : State) (base i j : Word), s.faulted = false ∧
    base.toNat + i.toNat / 8 < s.cfg.memSize ∧ base.toNat + j.toNat / 8 < s.cfg.memSize ∧ j ≠ i :=
  ⟨idleState, 0xFFE, 0, 15, by decide⟩

theorem witness_FaultDropsCommands : faultedStart.faulted = true ∧
    midRefusal faultedStart.cfg [.pru (.writeCur 5)] = none := by decide

theorem witness_FaultKeptUntilReset : ∃ (l : List Input) (s t : State), s.faulted = true ∧
    (∀ inp ∈ l, assertsReset inp = false) ∧ takeAll l s = .next t :=
  ⟨[.hostWrite 0 4 12 [], .memWrite 0 [1]], faultedStart, _, by decide, by decide, rfl⟩

theorem witness_OnlyListedCommandsWrite : cursorWrites idleState.mid = [] := rfl

theorem witness_UnreadArgumentsDoNotMatter : readsArg .push 1 = false ∧
    (3 : Word).getLsbD 0 = ({ idleState with a2 := 1 } : State).a2.getLsbD 0 := by decide

theorem witness_NoFaultFromData : ∃ (s t t' : State) (m h : Memory), exec .push s = .next t ∧
    exec .push ((s.setMem m).setShm h) = .next t' := ⟨idleState, _, _, [], [], rfl, rfl⟩

end Sys2Proof.Machine.Tests
end

section
/-! The check at construction (00_scope.md R8, R12): the executable test of a configuration says what R8 and R12 say. -/

namespace Sys2Proof.Codec

@[simp] theorem gen_zero (p : Params) : gen p 0#12 = 0#24 := by
  have h := gen_xor p 0#12 0#12
  rwa [BitVec.xor_self, BitVec.xor_self] at h

/-- The weight of a codeword is its distance from the codeword of the symbol 0. -/
theorem dist_gen_zero (p : Params) (s : Sym) : dist (gen p s) (gen p 0#12) = popcount (gen p s) := by
  rw [dist, gen_zero, BitVec.xor_zero]

/-- For a linear code, minimum weight 7 is R12's minimum distance 7 (log 19). -/
theorem genOk_iff (p : Params) : p.genOk = true ↔ ∀ a b : Sym, a ≠ b → 7 ≤ dist (gen p a) (gen p b) := by
  refine ⟨dist_gen_ge, fun h => List.all_eq_true.2 fun n hn => ?_⟩
  by_cases h0 : n = 0
  · simp [h0]
  · have hlt : n < 4096 := List.mem_range.1 hn
    have hne : BitVec.ofNat 12 n ≠ 0#12 := fun e => h0 <| by
      simpa [Nat.mod_eq_of_lt hlt] using congrArg BitVec.toNat e
    have hw := h _ 0#12 hne
    rw [dist_gen_zero] at hw
    simp [hw]

end Sys2Proof.Codec

namespace Sys2Proof.Machine

/-- `Params.wellFormed` decides the constraints of R8, with the distance of R12 for the generator. -/
theorem wellFormed_iff (p : Params) : p.wellFormed = true ↔
    1 ≤ p.n ∧ (p.n + 2) % 3 = 0 ∧ 8 * p.n ≤ 65535 ∧ 2 * (p.n + 2) ≤ p.cap ∧ p.cap % (2 * (p.n + 2)) = 0 ∧
      8 + p.cap ≤ 2 ^ 32 ∧ p.bias < 2 ^ 32 ∧ 1 ≤ p.memSize ∧ p.memSize ≤ 2 ^ 32 ∧
      ∀ a b : Sym, a ≠ b → 7 ≤ Codec.dist (Codec.gen p a) (Codec.gen p b) := by
  simp only [Params.wellFormed, Params.payloadOk, Params.triadsOk, Params.headerOk, Params.capacityOk, Params.slotsOk,
    Params.regionOk, Params.biasOk, Params.memOk, Bool.and_eq_true, decide_eq_true_eq, Codec.genOk_iff, and_assoc]
  rw [Params.qf]

theorem construct_of_wellFormed {p : Params} (h : p.wellFormed = true) (mem shm : Memory) :
    State.construct p mem shm = .next (State.powerUp p mem shm) := if_pos h

theorem construct_of_not_wellFormed {p : Params} (h : ¬ p.wellFormed = true) (mem shm : Memory) :
    State.construct p mem shm = .refused .badConfiguration := if_neg h

/-- Settles O12: `construct` branches on `Params.wellFormed`, which decides the constraints of R8 and R12. -/
theorem constructionChecksParameters : Obligations.ConstructionChecksParameters := fun p mem shm =>
  ⟨fun h => construct_of_not_wellFormed (mt (wellFormed_iff p).1 h) mem shm,
    fun h => construct_of_wellFormed ((wellFormed_iff p).2 h) mem shm⟩

end Sys2Proof.Machine
end

section
/-! How every command is put together, and what holds after it if its effect keeps it. -/

namespace Sys2Proof.Machine

/-- The checks of a command. -/
def commandChecks : Instr → State → List Check
  | .enc => encChecks
  | .dec => decChecks
  | .menc => mencChecks
  | .mdec => mdecChecks
  | .pkt => pktChecks
  | .depkt => depktChecks
  | .push => pushChecks
  | .pop => popChecks
  | .peek | .prucur | .getlen | .setlen => noChecks
  | .bget | .bset => bitChecks

/-- The effect of a command whose checks pass. -/
def commandEffect : Instr → State → State
  | .enc => encEffect
  | .dec => decEffect
  | .menc => mencEffect
  | .mdec => mdecEffect
  | .pkt => pktEffect
  | .depkt => depktEffect
  | .push => pushEffect
  | .pop => popEffect
  | .peek => peekEffect
  | .prucur => prucurEffect
  | .getlen => getlenEffect
  | .setlen => setlenEffect
  | .bget => bgetEffect
  | .bset => bsetEffect

/-- The meaning of a command is `perform` of its own checks and its own effect. -/
theorem exec_eq (i : Instr) (s : State) : exec i s = perform i.opcode (commandChecks i) (commandEffect i) s := by
  cases i <;> rfl

/-- What holds before a command, after its fault entry and after its effect holds of its next state. -/
theorem perform_keeps {P : State → Prop} {o : Byte} {checks : State → List Check} {effect : State → State} {s t : State}
    (h : perform o checks effect s = .next t) (hs : P s) (hl : ∀ c k, P (s.latch c o k))
    (he : firstFailure (checks s) = none → P (effect s)) : P t := by
  rcases perform_cases o checks effect s with ⟨-, e⟩ | ⟨-, c, -, e⟩ | ⟨-, hc, e⟩ <;> cases h.symm.trans e
  · exact hs
  · exact hl _ _
  · exact he hc

/-- `perform_keeps` for a command. -/
theorem exec_keeps {P : State → Prop} {i : Instr} {s t : State} (h : exec i s = .next t) (hs : P s)
    (hl : ∀ c o k, P (s.latch c o k)) (he : firstFailure (commandChecks i s) = none → P (commandEffect i s)) : P t :=
  perform_keeps ((exec_eq i s).symm.trans h) hs (fun c => hl c _) he

theorem mapNext_eq_next {f : State → State} {o : Host.Outcome State Fault Refusal} {t : State}
    (h : mapNext f o = .next t) : ∃ u, o = .next u ∧ f u = t := by
  cases o with
  | next u => exact ⟨u, rfl, by simpa using h⟩
  | fault r => cases h
  | refused r => cases h

/-- An interleaving keeps whatever the PRU steps of its own schedule and the accesses of the command keep. -/
theorem interleave_keeps {access : Nat → State → State} {P : State → Prop} (sched : List MidStep) (todo : List Nat)
    (hp : ∀ a, .pru a ∈ sched → ∀ s, P s → P (pruStep a s)) (ha : ∀ k s, P s → P (access k s)) (s : State) (h : P s) :
    P (interleave access sched todo s) := by
  induction sched generalizing todo s with
  | nil => exact List.foldlRecOn todo _ h fun t ht k _ => ha k t ht
  | cons m sched ih =>
    have hp' : ∀ a, .pru a ∈ sched → ∀ s, P s → P (pruStep a s) := fun a hm => hp a (List.mem_cons_of_mem _ hm)
    cases m with
    | core k =>
      simp only [interleave]
      split
      · exact ih _ hp' _ (ha k s h)
      · exact ih _ hp' _ h
    | pru a => exact ih _ hp' _ (hp a List.mem_cons_self s h)

end Sys2Proof.Machine
end

section
/-! What a command leaves unchanged (10_state.md R41). -/

namespace Sys2Proof.Machine

/-- What the command `i` leaves unchanged between `s` and `t`, outside SHM: the column "written by" of
10_state.md R41. -/
structure CommandFrame (i : Instr) (s t : State) : Prop where
  cfg : t.cfg = s.cfg
  a0 : t.a0 = s.a0
  a1 : t.a1 = s.a1
  a2 : t.a2 = s.a2
  a3 : t.a3 = s.a3
  inputs : t.inputs = s.inputs
  hostData : t.hostData = s.hostData
  hostBytes : t.hostBytes = s.hostBytes
  result : i ∉ [.depkt, .peek, .prucur, .getlen, .bget] → t.result = s.result
  fault : t.faulted = false → t.status = s.status ∧ t.finfo = s.finfo
  diag : i ∉ [.dec, .mdec] → t.diag = s.diag
  icur : i ∉ [.push, .pop] → t.icur = s.icur
  mem : i ∉ [.enc, .dec, .menc, .mdec, .pkt, .depkt, .pop, .bset] → t.mem = s.mem

namespace CommandFrame

variable {i : Instr} {s t : State}

theorem refl (i : Instr) (s : State) : CommandFrame i s s := by constructor <;> simp

theorem latch (i : Instr) (s : State) (c : Cause) (o : Byte) (k : Nat) : CommandFrame i s (s.latch c o k) := by
  constructor <;> simp

theorem setShm (h : CommandFrame i s t) (m : Memory) : CommandFrame i s (t.setShm m) := { h with }

theorem setMid (h : CommandFrame i s t) (l : List MidStep) : CommandFrame i s (t.setMid l) := { h with }

theorem setResult (h : CommandFrame i s t) (v : Word) (hi : i ∈ [.depkt, .peek, .prucur, .getlen, .bget]) :
    CommandFrame i s (t.setResult v) := { h with result := fun hn => absurd hi hn }

theorem setDiag (h : CommandFrame i s t) (v : Word) (hi : i ∈ [.dec, .mdec]) : CommandFrame i s (t.setDiag v) :=
  { h with diag := fun hn => absurd hi hn }

theorem setIcur (h : CommandFrame i s t) (v : Word) (hi : i ∈ [.push, .pop]) : CommandFrame i s (t.setIcur v) :=
  { h with icur := fun hn => absurd hi hn }

theorem setMem (h : CommandFrame i s t) (m : Memory) (hi : i ∈ [.enc, .dec, .menc, .mdec, .pkt, .depkt, .pop, .bset]) :
    CommandFrame i s (t.setMem m) := { h with mem := fun hn => absurd hi hn }

theorem pruStep (h : CommandFrame i s t) (a : PruAct) : CommandFrame i s (pruStep a t) := by
  rw [pruStep_frame]
  exact { h with }

/-- The SHM accesses of a command stay in its frame when each of them does. -/
theorem shmAccesses (n : Nat) {access : Nat → State → State}
    (ha : ∀ k u, CommandFrame i s u → CommandFrame i s (access k u)) : CommandFrame i s (shmAccesses n access s) :=
  shmAccesses_preserves n (fun a _ h => h.pruStep a) (fun k _ => ha k) s ((refl i s).setMid [])

/-- The effect of every command stays in the frame that R41 gives it. -/
theorem commandEffect (i : Instr) (s : State) : CommandFrame i s (commandEffect i s) := by
  have h := refl i s
  cases i with
  | enc | menc | pkt | bset => exact h.setMem _ (by decide)
  | dec | mdec => exact (h.setMem _ (by decide)).setDiag _ (by decide)
  | depkt => exact (h.setMem _ (by decide)).setResult _ (by decide)
  | peek | bget => exact h.setResult _ (by decide)
  | prucur | getlen => exact shmAccesses 1 fun _ _ hu => hu.setResult _ (by decide)
  | setlen => exact shmAccesses 1 fun _ _ hu => hu.setShm _
  | pop => exact (shmAccesses _ fun _ _ hu => hu.setMem _ (by decide)).setIcur _ (by decide)
  | push =>
    refine (shmAccesses _ fun k u hu => ?_).setIcur _ (by decide)
    unfold pushAccess
    split <;> exact hu.setShm _

end CommandFrame

/-- Every command, faulting or not, stays in its frame. -/
theorem exec_frame {i : Instr} {s t : State} (h : exec i s = .next t) : CommandFrame i s t :=
  exec_keeps h (.refl i s) (.latch i s) fun _ => .commandEffect i s

/-- The bytes of SHM that the core itself may write in a command: LENGTH and DATA in a PUSH, LENGTH in a SETLEN. -/
def coreMayWrite : Instr → Nat → Prop
  | .push, x => x < hwcurOff ∨ dataOff ≤ x
  | .setlen, x => x < hwcurOff
  | _, _ => False

/-- The core never writes HWCUR (10_state.md R36). -/
theorem not_coreMayWrite_cursor (i : Instr) {x : Nat} (hx : hwcurOff ≤ x) (hx' : x < dataOff) : ¬ coreMayWrite i x := by
  cases i with
  | push => exact not_or.2 ⟨not_lt.2 hx, not_le.2 hx'⟩
  | setlen => exact not_lt.2 hx
  | _ => exact id

theorem not_coreMayWrite_of_not_mem {i : Instr} (hi : i ∉ [.push, .setlen]) (x : Nat) : ¬ coreMayWrite i x := by
  cases i with
  | push | setlen => exact absurd hi (by decide)
  | _ => exact id

/-- Past LENGTH, only PUSH writes SHM. -/
theorem not_coreMayWrite_of_ne_push {i : Instr} (hi : i ≠ .push) {x : Nat} (hx : hwcurOff ≤ x) :
    ¬ coreMayWrite i x := by
  cases i with
  | push => exact absurd rfl hi
  | setlen => exact not_lt.2 hx
  | _ => exact id

/-- The accesses of a PUSH write the slot, which lies in DATA, and LENGTH. -/
theorem pushAccess_read (src slot qf k x : Nat) (s : State) (hslot : dataOff ≤ slot) (hx : hwcurOff ≤ x)
    (hx' : x < dataOff) : (pushAccess src slot qf k s).shm.read x = s.shm.read x := by
  unfold pushAccess
  split
  · exact Memory.read_write_other _ _ _ _ (by omega)
  · exact Memory.read_writeWord_outside _ _ _ _ (.inr hx)

/-- A command leaves a byte of SHM alone that neither the core nor a PRU step inside the command writes. -/
theorem exec_read_shm {i : Instr} {s t : State} {x : Nat} (h : exec i s = .next t) (hc : ¬ coreMayWrite i x)
    (hp : ∀ a, .pru a ∈ s.mid → ∀ u, (pruStep a u).shm.read x = u.shm.read x) : t.shm.read x = s.shm.read x := by
  have accesses : ∀ n access, (∀ k u, (access k u).shm.read x = u.shm.read x) →
      (shmAccesses n access s).shm.read x = s.shm.read x := fun n access ha =>
    interleave_keeps (P := fun u => u.shm.read x = s.shm.read x) _ _ (fun a hm u hu => (hp a hm u).trans hu)
      (fun k u hu => (ha k u).trans hu) _ rfl
  refine exec_keeps (P := fun u => u.shm.read x = s.shm.read x) h rfl (fun _ _ _ => rfl) fun _ => ?_
  cases i with
  | enc | dec | menc | mdec | pkt | depkt | peek | bget | bset => rfl
  | prucur | getlen | pop => exact accesses _ _ fun _ _ => rfl
  | setlen =>
    exact accesses _ _ fun _ _ => Memory.read_writeWord_outside _ _ _ _ (.inr (not_lt.1 hc))
  | push =>
    obtain ⟨hx, hx'⟩ := not_or.1 hc
    exact accesses _ _ fun k u =>
      pushAccess_read _ _ _ k x u (Nat.le_add_right _ _) (not_lt.1 hx) (not_le.1 hx')

/-- Only a write of HWCUR changes a byte of HWCUR (20_memory.md R51, R57). -/
theorem pruStep_read_cursor (a : PruAct) (s : State) (x : Nat) (ha : ∀ v, a ≠ .writeCur v) (hx : x < dataOff) :
    (pruStep a s).shm.read x = s.shm.read x := by
  rcases pruStep_cases a s with h | ⟨v, e, -⟩ | ⟨off, -, -, h⟩ | ⟨off, b, -, hoff, -, -, h⟩
  · rw [h]
  · exact absurd e (ha v)
  · rw [h]; rfl
  · rw [h]
    exact Memory.read_write_other _ _ _ _ (by omega)

theorem mem_cursorWrites {sched : List MidStep} {v : Word} (h : .pru (.writeCur v) ∈ sched) :
    v ∈ cursorWrites sched := by
  induction sched using cursorWrites.induct with
  | case1 => cases h
  | case3 w rest ih =>
    rcases List.mem_cons.1 h with h | h
    · cases h
      exact List.mem_cons_self
    · exact List.mem_cons_of_mem _ (ih h)
  | case2 _ rest ih | case4 _ rest ih | case5 _ _ rest ih =>
    exact ih ((List.mem_cons.1 h).resolve_left nofun)

theorem pruWrites_cons (m : MidStep) (sched : List MidStep) :
    pruWrites (m :: sched) = pruWrites [m] ++ pruWrites sched := by
  match m with
  | .core _ | .pru (.writeCur _) | .pru (.readByte _) | .pru (.writeByte _ _) => rfl

theorem mem_pruWrites {sched : List MidStep} {m : MidStep} {x : Nat} (hm : m ∈ sched) (hx : x ∈ pruWrites [m]) :
    x ∈ pruWrites sched := by
  induction sched with
  | nil => cases hm
  | cons n sched ih =>
    rw [pruWrites_cons, List.mem_append]
    rcases List.mem_cons.1 hm with rfl | hm
    · exact .inl hx
    · exact .inr (ih hm)

/-- Settles O57: every effect stays in its `CommandFrame`, and a byte of SHM changes only by the core's accesses and by
the PRU steps of the schedule. -/
theorem onlyListedCommandsWrite : Obligations.OnlyListedCommandsWrite := by
  intro i s
  obtain ⟨t, h⟩ := exec_next i s
  obtain ⟨cfg, a0, a1, a2, a3, inputs, hostData, hostBytes, result, fault, diag, icur, mem⟩ := exec_frame h
  refine ⟨t, h, cfg, a0, a1, a2, a3, inputs, hostData, hostBytes, result, fault, diag, icur, mem, ?_, ?_, ?_⟩
  · exact fun hi => Memory.readWord_congr fun x _ hx =>
      exec_read_shm h (not_coreMayWrite_of_not_mem hi x) fun a _ u => pruStep_read_length a u x hx
  · intro hnone
    refine Memory.readWord_congr fun x hx hx' => exec_read_shm h (not_coreMayWrite_cursor i hx hx') fun a ha u =>
      pruStep_read_cursor a u x (fun v hv => ?_) hx'
    have hv' := mem_cursorWrites (hv ▸ ha)
    rw [hnone] at hv'
    cases hv'
  · intro hi x hx hm
    have hx' : hwcurOff ≤ x := le_trans (by decide) hx
    exact exec_read_shm h (not_coreMayWrite_of_ne_push hi hx') fun a ha u =>
      pruStep_read_other a u x fun hw => hm (mem_pruWrites ha hw)

end Sys2Proof.Machine
end

section
/-! The invariant `State.Inv`: it holds of a machine powered up with well-formed parameters, and every step keeps it. -/

namespace Sys2Proof.Machine

/-- CAP is a whole number of slots (00_scope.md R8). -/
theorem qf_dvd_cap {p : Params} (h : p.wellFormed = true) : p.qf ∣ p.cap := by
  obtain ⟨-, -, -, -, hslots, -⟩ := (wellFormed_iff p).1 h
  exact Nat.dvd_of_mod_eq_zero hslots

theorem cap_pos {p : Params} (h : p.wellFormed = true) : 0 < p.cap := by
  obtain ⟨-, -, -, hcap, -⟩ := (wellFormed_iff p).1 h
  omega

/-- Every offset below CAP fits a register (R8). -/
theorem cap_lt {p : Params} (h : p.wellFormed = true) : p.cap < 2 ^ 32 := by
  obtain ⟨-, -, -, -, -, hregion, -⟩ := (wellFormed_iff p).1 h
  omega

/-- A cursor that starts a slot leaves room for that slot below CAP (10_state.md R28). -/
theorem slot_fits {c q cap : Nat} (hq : c % q = 0) (hcap : q ∣ cap) (hlt : c < cap) : c + q ≤ cap := by
  obtain ⟨a, rfl⟩ := Nat.dvd_of_mod_eq_zero hq
  obtain ⟨b, rfl⟩ := hcap
  have hab : a + 1 ≤ b := Nat.lt_of_mul_lt_mul_left hlt
  calc q * a + q = q * (a + 1) := (Nat.mul_succ q a).symm
    _ ≤ q * b := Nat.mul_le_mul_left q hab

/-- STATUS after a fault keeps its reserved bits 0 (10_state.md R24). -/
theorem faultStatus_reserved (c : Cause) (o : Byte) : faultStatus c o &&& 0xFF0000FE#32 = 0 := by
  have hcause : c.toByte.setWidth 32 <<< 8 &&& 0xFF0000FE#32 = 0#32 := by cases c <;> decide
  have hfopc : o.setWidth 32 <<< 16 &&& 0xFF0000FE#32 = 0#32 := by decide +revert
  have hfault : 1#32 &&& 0xFF0000FE#32 = 0#32 := by decide
  rw [faultStatus, BitVec.and_or_distrib_right, BitVec.and_or_distrib_right, hfopc, hcause, hfault]
  rfl

namespace State

theorem powerUp_inv {p : Params} {mem shm : Memory} (hp : p.wellFormed = true) (hm : mem.wf) (hmb : mem.below p.memSize)
    (hs : shm.wf) (hsb : shm.below (dataOff + p.cap)) : (powerUp p mem shm).Inv where
  cfgOk := hp
  memWf := hm
  memBelow := hmb
  shmWf := hs
  shmBelow := hsb
  icurSlot := Nat.zero_mod _
  icurBelow := cap_pos hp
  statusReserved := BitVec.zero_and
  noFault := fun _ => ⟨rfl, rfl⟩
  causeKnown := fun h => absurd h (by simp [faulted])
  idle := rfl

end State

theorem wellFormed_parameters : Config.parameters.wellFormed = true := by
  have h : Config.parameters.genOk = true := Codec.genOk_of_rowsOk _ Codec.referenceRows_ok
  simp only [Params.wellFormed, h, Bool.and_true]
  decide

/-- Settles O7: no memory byte is listed, and every register is 0. -/
theorem invariantHoldsAtReset : Obligations.InvariantHoldsAtReset :=
  State.powerUp_inv wellFormed_parameters ⟨.nil, nofun⟩ nofun ⟨.nil, nofun⟩ nofun

namespace State.Inv

variable {s : State}

theorem setInputs (h : s.Inv) (l : List Input) : (s.setInputs l).Inv := { h with }

theorem setHostData (h : s.Inv) (v : Word) : (s.setHostData v).Inv := { h with }

theorem setHostBytes (h : s.Inv) (bs : List Byte) : (s.setHostBytes bs).Inv := { h with }

theorem setPruSeen (h : s.Inv) (l : List (Nat × Byte)) : (s.setPruSeen l).Inv := { h with }

theorem setResult (h : s.Inv) (v : Word) : (s.setResult v).Inv := { h with }

theorem setDiag (h : s.Inv) (v : Word) : (s.setDiag v).Inv := { h with }

theorem setMem (h : s.Inv) {m : Memory} (hm : m.wf) (hb : m.below s.cfg.memSize) : (s.setMem m).Inv :=
  { h with memWf := hm, memBelow := hb }

theorem setShm (h : s.Inv) {m : Memory} (hm : m.wf) (hb : m.below (dataOff + s.cfg.cap)) : (s.setShm m).Inv :=
  { h with shmWf := hm, shmBelow := hb }

theorem setIcur (h : s.Inv) {v : Word} (hq : v.toNat % s.cfg.qf = 0) (hv : v.toNat < s.cfg.cap) : (s.setIcur v).Inv :=
  { h with icurSlot := hq, icurBelow := hv }

theorem portWrite (h : s.Inv) (off : Nat) (v : Word) : (portWrite s off v).Inv := by
  unfold Machine.portWrite
  split <;> exact { h with }

theorem latch (h : s.Inv) (c : Cause) (o : Byte) (k : Nat) : (s.latch c o k).Inv :=
  { h with
    statusReserved := faultStatus_reserved c o
    noFault := fun hf => absurd (s.latch_faulted c o k) (by simp [hf])
    causeKnown := fun _ => ⟨c, s.latch_causeField c o k⟩ }

theorem toReset (h : s.Inv) : s.toReset.Inv :=
  { h with
    icurSlot := Nat.zero_mod _
    icurBelow := cap_pos h.cfgOk
    statusReserved := BitVec.zero_and
    noFault := fun _ => ⟨rfl, rfl⟩
    causeKnown := fun hf => absurd s.toReset_faulted (by simp [hf]) }

theorem clearMid (h : s.Inv) : (s.setMid []).Inv := { h with idle := rfl }

/-- What holds between steps holds of the state a command starts in, its schedule set aside. -/
theorem withMid (h : s.Inv) (mid : List MidStep) : ((s.setMid mid).setMid []).Inv := h.clearMid

/-- A write of bytes to a range that `RangeOK` admits keeps the invariant. -/
theorem writeMem (h : s.Inv) {a : Nat} {bs : List Byte} (hr : rangeOk s.cfg a bs.length = true) :
    (s.setMem (s.mem.writeBytes a bs)).Inv :=
  h.setMem (Memory.writeBytes_wf _ _ h.memWf) <| Memory.writeBytes_below _ _ h.memBelow <|
    ((rangeOk_iff _ _ _).1 hr).imp_left List.eq_nil_of_length_eq_zero

theorem writeMemByte (h : s.Inv) {a : Nat} (b : Byte) (ha : a < s.cfg.memSize) : (s.setMem (s.mem.write a b)).Inv :=
  h.setMem (Memory.write_wf _ _ h.memWf) (Memory.write_below _ _ h.memBelow ha)

theorem writeShmByte (h : s.Inv) {x : Nat} (b : Byte) (hx : x < dataOff + s.cfg.cap) :
    (s.setShm (s.shm.write x b)).Inv :=
  h.setShm (Memory.write_wf _ _ h.shmWf) (Memory.write_below _ _ h.shmBelow hx)

/-- LENGTH and HWCUR lie in SHM whatever CAP is (10_state.md R34). -/
theorem writeShmWord (h : s.Inv) {x : Nat} (v : Word) (hx : x + 4 ≤ dataOff) : (s.setShm (s.shm.writeWord x v)).Inv :=
  h.setShm (Memory.writeWord_wf _ _ h.shmWf) (Memory.writeWord_below _ _ h.shmBelow (by omega))

theorem pruStep (h : s.Inv) (a : PruAct) : (pruStep a s).Inv := by
  rcases pruStep_cases a s with e | ⟨v, -, e⟩ | ⟨off, -, -, e⟩ | ⟨off, b, -, -, hoff, -, e⟩ <;> rw [e]
  · exact h
  · exact h.writeShmWord v (by decide)
  · exact h.setPruSeen _
  · exact h.writeShmByte b hoff

/-- The slot at the cursor lies in DATA (10_state.md R37). -/
theorem slotOff_le (h : s.Inv) : s.slotOff + s.cfg.qf ≤ dataOff + s.cfg.cap := by
  rw [slotOff, Nat.add_assoc]
  exact Nat.add_le_add_left (slot_fits h.icurSlot (qf_dvd_cap h.cfgOk) h.icurBelow) _

/-- The next cursor of R161 and R162 starts a slot below CAP again (10_state.md R28). -/
theorem icurNext (h : s.Inv) : s.icurNext.toNat % s.cfg.qf = 0 ∧ s.icurNext.toNat < s.cfg.cap := by
  have hlt : (s.icur.toNat + s.cfg.qf) % s.cfg.cap < s.cfg.cap := Nat.mod_lt _ (cap_pos h.cfgOk)
  have hv : s.icurNext.toNat = (s.icur.toNat + s.cfg.qf) % s.cfg.cap :=
    (BitVec.toNat_ofNat _ _).trans (Nat.mod_eq_of_lt (hlt.trans (cap_lt h.cfgOk)))
  rw [hv]
  exact ⟨by rw [Nat.mod_mod_of_dvd _ (qf_dvd_cap h.cfgOk), Nat.add_mod_right, h.icurSlot], hlt⟩

end State.Inv

/-! A command runs in a state that still holds its schedule, so what it keeps is the invariant of `s.setMid []`. -/

variable {s t : State}

/-- An interleaving keeps the invariant when every access does in a state with the command's own parameters. -/
theorem interleave_inv {access : Nat → State → State} (sched : List MidStep) (todo : List Nat)
    (ha : ∀ k ∈ todo, ∀ u, u.Inv → u.cfg = s.cfg → (access k u).Inv ∧ (access k u).cfg = s.cfg)
    (h : (s.setMid []).Inv) : (interleave access sched todo (s.setMid [])).Inv ∧
      (interleave access sched todo (s.setMid [])).cfg = s.cfg :=
  interleave_preserves (P := fun u => u.Inv ∧ u.cfg = s.cfg)
    (fun a _ hu => ⟨hu.1.pruStep a, (pruStep_cfg a _).trans hu.2⟩) sched todo (fun k hk u hu => ha k hk u hu.1 hu.2) _ ⟨h, rfl⟩

theorem drainMid_inv (h : (s.setMid []).Inv) : (drainMid s).Inv :=
  (interleave_inv _ _ (fun _ _ _ hu hc => ⟨hu, hc⟩) h).1

/-- The accesses of a PUSH write the slot at the cursor and LENGTH, so they keep the invariant in any order. -/
theorem interleave_pushAccess_inv (sched : List MidStep) (todo : List Nat) (h : (s.setMid []).Inv) :
    (interleave (pushAccess s.x0 s.slotOff s.cfg.qf) sched todo (s.setMid [])).Inv ∧
      (interleave (pushAccess s.x0 s.slotOff s.cfg.qf) sched todo (s.setMid [])).cfg = s.cfg := by
  have hslot : s.slotOff + s.cfg.qf ≤ dataOff + s.cfg.cap := h.slotOff_le
  refine interleave_inv _ _ (fun k _ u hu hc => ?_) h
  unfold pushAccess
  split
  · exact ⟨hu.writeShmByte _ (by rw [hc]; omega), hc⟩
  · exact ⟨hu.writeShmWord _ (by decide), hc⟩

theorem firstFailure_cons_eq_none {c : Check} {cs : List Check} :
    firstFailure (c :: cs) = none ↔ c.fails = false ∧ firstFailure cs = none := by
  rw [firstFailure_cons]
  cases c.fails <;> simp

/-- The output range of a command that passes its buffer checks lies in MEM. -/
theorem rangeOk_of_bufferChecks {c : Check} {p : Params} {src n dst m : Nat}
    (hc : firstFailure (c :: bufferChecks p src n dst m) = none) : c.fails = false ∧ rangeOk p dst m = true := by
  obtain ⟨hlen, hbuf⟩ := firstFailure_cons_eq_none.1 hc
  exact ⟨hlen, ((bufferChecks_pass _ _ _ _ _).1 hbuf).2.1⟩

/-- A command whose only check is a MEM range passes it only when that range lies in MEM. -/
theorem rangeOk_of_check {p : Params} {a n : Nat} {c : Cause} {info : Nat}
    (hc : firstFailure [⟨!rangeOk p a n, c, info⟩] = none) : rangeOk p a n = true := by
  simpa using (firstFailure_cons_eq_none.1 hc).1

theorem encEffect_inv (h : (s.setMid []).Inv) (hc : firstFailure (encChecks s) = none) :
    ((encEffect s).setMid []).Inv := by
  obtain ⟨hlen, hdst⟩ := rangeOk_of_bufferChecks hc
  have hmul : s.x2 % 3 = 0 := by simpa using hlen
  have hout : (Codec.encodeBytes s.cfg (s.mem.readBytes s.x0 s.x2)).length = 2 * s.x2 := by simp; omega
  exact h.writeMem (hout ▸ hdst)

theorem decEffect_inv (h : (s.setMid []).Inv) (hc : firstFailure (decChecks s) = none) :
    ((decEffect s).setMid []).Inv := by
  obtain ⟨hlen, hdst⟩ := rangeOk_of_bufferChecks hc
  have hmul : s.x2 % 6 = 0 := by simpa using hlen
  have hout : (Codec.decodeBytes s.cfg (s.mem.readBytes s.x0 s.x2)).1.length = s.x2 / 2 := by simp; omega
  exact (h.writeMem (hout ▸ hdst)).setDiag _

theorem mencEffect_inv (h : (s.setMid []).Inv) (hc : firstFailure (mencChecks s) = none) :
    ((mencEffect s).setMid []).Inv := by
  obtain ⟨hlen, hdst⟩ := rangeOk_of_bufferChecks hc
  have htwo : s.x3 = 2 * s.x2 := by simpa using hlen
  have hout : (Codec.lineEncode (s.mem.readBytes s.x0 s.x2)).length = s.x3 := by simp [htwo]
  exact h.writeMem (hout ▸ hdst)

theorem mdecEffect_inv (h : (s.setMid []).Inv) (hc : firstFailure (mdecChecks s) = none) :
    ((mdecEffect s).setMid []).Inv := by
  obtain ⟨hlen, hdst⟩ := rangeOk_of_bufferChecks hc
  have htwo : s.x2 = 2 * s.x3 := by simpa using hlen
  have hout : (Codec.lineDecode s.cfg (s.mem.readBytes s.x0 s.x2)).1.length = s.x3 := by simp; omega
  exact (h.writeMem (hout ▸ hdst)).setDiag _

/-- A frame whose payload fits is `FRAME` bytes long (42_framer.md R140). -/
theorem frameBytes_length {p : Params} {payload : List Byte} (hn : payload.length ≤ p.n) (len : Nat) :
    (frameBytes p len payload).length = p.frame := by
  simp [frameBytes, Params.frame]
  omega

theorem pktEffect_inv (h : (s.setMid []).Inv) (hc : firstFailure (pktChecks s) = none) :
    ((pktEffect s).setMid []).Inv := by
  obtain ⟨hlen, hdst⟩ := rangeOk_of_bufferChecks hc
  have hbits : s.x2 ≤ 8 * s.cfg.n := by simpa using hlen
  have hn : (s.mem.readBytes s.x0 (Codec.ceil8 s.x2)).length ≤ s.cfg.n := by
    rw [Memory.readBytes_length, Codec.ceil8]
    omega
  exact h.writeMem ((frameBytes_length hn s.x2).symm ▸ hdst)

theorem depktEffect_inv (h : (s.setMid []).Inv) (hc : firstFailure (depktChecks s) = none) :
    ((depktEffect s).setMid []).Inv := by
  obtain ⟨-, hc⟩ := firstFailure_cons_eq_none.1 hc
  obtain ⟨-, hc⟩ := firstFailure_cons_eq_none.1 hc
  obtain ⟨hdst, -⟩ := firstFailure_cons_eq_none.1 hc
  have hdst : rangeOk s.cfg s.x1 (Codec.ceil8 s.frameHeader) = true := by simpa using hdst
  exact (h.writeMem ((Memory.readBytes_length _ _ _).symm ▸ hdst)).setResult _

theorem bsetEffect_inv (h : (s.setMid []).Inv) (hc : firstFailure (bitChecks s) = none) :
    ((bsetEffect s).setMid []).Inv := by
  have hr := (rangeOk_iff _ _ _).1 (rangeOk_of_check hc)
  exact h.writeMemByte _ (hr.resolve_left one_ne_zero)

theorem pushEffect_inv (h : (s.setMid []).Inv) : ((pushEffect s).setMid []).Inv := by
  obtain ⟨hu, hcfg⟩ := interleave_pushAccess_inv s.mid (List.range (s.cfg.qf + 1)) h
  obtain ⟨hq, hlt⟩ := h.icurNext
  exact (hu.setIcur (hcfg.symm ▸ hq) (hcfg.symm ▸ hlt)).clearMid

theorem popEffect_inv (h : (s.setMid []).Inv) (hc : firstFailure (popChecks s) = none) :
    ((popEffect s).setMid []).Inv := by
  have hr := (rangeOk_iff _ _ _).1 (rangeOk_of_check hc)
  obtain ⟨hu, hcfg⟩ := interleave_inv (access := popAccess s.x0 s.slotOff) s.mid (List.range s.cfg.qf)
    (fun k hk u hu hc => ⟨hu.writeMemByte _ (by have := List.mem_range.1 hk; rw [hc]; omega), hc⟩) h
  obtain ⟨hq, hlt⟩ := h.icurNext
  exact (hu.setIcur (hcfg.symm ▸ hq) (hcfg.symm ▸ hlt)).clearMid

theorem commandEffect_inv (i : Instr) (h : (s.setMid []).Inv) (hc : firstFailure (commandChecks i s) = none) :
    ((commandEffect i s).setMid []).Inv := by
  cases i with
  | enc => exact encEffect_inv h hc
  | dec => exact decEffect_inv h hc
  | menc => exact mencEffect_inv h hc
  | mdec => exact mdecEffect_inv h hc
  | pkt => exact pktEffect_inv h hc
  | depkt => exact depktEffect_inv h hc
  | push => exact pushEffect_inv h
  | pop => exact popEffect_inv h hc
  | peek | bget => exact h.setResult _
  | prucur | getlen =>
    refine (interleave_inv _ _ ?_ h).1.clearMid
    exact fun _ _ _ hu hc => ⟨hu.setResult _, hc⟩
  | setlen =>
    refine (interleave_inv _ _ ?_ h).1.clearMid
    exact fun _ _ _ hu hc => ⟨hu.writeShmWord _ (by decide), hc⟩
  | bset => exact bsetEffect_inv h hc

theorem perform_inv {o : Byte} {checks : State → List Check} {effect : State → State} (h : (s.setMid []).Inv)
    (he : firstFailure (checks s) = none → ((effect s).setMid []).Inv) (ht : perform o checks effect s = .next t) :
    (t.setMid []).Inv :=
  perform_keeps (P := fun u => (u.setMid []).Inv) ht h (fun _ _ => h.latch _ _ _) he

theorem exec_inv {i : Instr} (h : (s.setMid []).Inv) (ht : exec i s = .next t) : (t.setMid []).Inv :=
  perform_inv h (commandEffect_inv i h) ((exec_eq i s).symm.trans ht)

theorem command_inv {w : Word} (h : (s.setMid []).Inv) (ht : command w s = .next t) : (t.setMid []).Inv := by
  unfold command at ht
  split at ht
  · exact exec_inv h ht
  · exact perform_inv h (fun _ => h) ht

theorem hostPortWrite_inv {off width : Nat} {v : Word} {mid : List MidStep} (h : s.Inv)
    (ht : hostPortWrite off width v mid s = .next t) : t.Inv := by
  unfold hostPortWrite at ht
  split at ht
  · cases ht
  · cases ht
  · split at ht
    · obtain ⟨u, hu, rfl⟩ := mapNext_eq_next ht
      exact drainMid_inv (command_inv (h.withMid mid) hu)
    · cases ht
      exact drainMid_inv ((h.portWrite off v).withMid mid)

theorem abandonPush_inv (h : (s.setMid []).Inv) (ht : abandonPush s = .next t) : (t.setMid []).Inv :=
  perform_inv h (fun _ => (interleave_pushAccess_inv _ _ h).1.clearMid) ht

theorem abandonSetlen_inv (h : (s.setMid []).Inv) (ht : abandonSetlen s = .next t) : (t.setMid []).Inv :=
  perform_inv h (fun _ => (drainMid_inv h).clearMid) ht

/-- What a command has done when a reset abandons it keeps the invariant, whatever has landed
(70_reset_and_hazards.md R230). -/
theorem abandon_inv {i : Instr} {memLanded : List Nat} (h : (s.setMid []).Inv) (ht : abandon i memLanded s = .next t) :
    (t.setMid []).Inv := by
  cases i with
  | push => exact abandonPush_inv h ht
  | setlen => exact abandonSetlen_inv h ht
  | _ =>
    obtain ⟨u, hu, rfl⟩ := mapNext_eq_next ht
    have hold : s.mem.below u.cfg.memSize := (exec_frame hu).cfg ▸ h.memBelow
    have hnew := exec_inv h hu
    exact hnew.setMem (Memory.mix_wf _ _ h.memWf) (Memory.mix_below _ hold hnew.memBelow)

theorem abortCommand_inv {w : Word} {mid : List MidStep} {memLanded : List Nat} (h : s.Inv)
    (ht : abortCommand w mid memLanded s = .next t) : t.Inv := by
  unfold abortCommand at ht
  split at ht
  · cases ht
  · obtain ⟨v, hv, rfl⟩ := mapNext_eq_next ht
    obtain ⟨u, hu, rfl⟩ := mapNext_eq_next hv
    exact (drainMid_inv (abandon_inv (h.withMid mid) hu)).toReset
  · cases ht
    exact (drainMid_inv (h.withMid mid)).toReset

theorem hostPortRead_inv {off width : Nat} (h : s.Inv) (ht : hostPortRead off width s = .next t) : t.Inv := by
  unfold hostPortRead at ht
  split at ht <;> cases ht
  exact h.setHostData _

theorem hostMemWrite_inv {a : Nat} {bs : List Byte} (h : s.Inv) (ht : hostMemWrite a bs s = .next t) : t.Inv := by
  unfold hostMemWrite at ht
  split at ht <;> cases ht
  exact h.writeMem ‹_›

theorem hostMemRead_inv {a n : Nat} (h : s.Inv) (ht : hostMemRead a n s = .next t) : t.Inv := by
  unfold hostMemRead at ht
  split at ht <;> cases ht
  exact h.setHostBytes _

theorem hostShmRead_inv {off n : Nat} (h : s.Inv) (ht : hostShmRead off n s = .next t) : t.Inv := by
  unfold hostShmRead at ht
  split at ht <;> cases ht
  exact h.setHostBytes _

theorem pruInput_inv {a : PruAct} (h : s.Inv) (ht : pruInput a s = .next t) : t.Inv := by
  unfold pruInput at ht
  split at ht <;> cases ht
  exact h.pruStep a

theorem takeInput_inv {inp : Input} (h : s.Inv) (ht : takeInput inp s = .next t) : t.Inv := by
  cases inp with
  | hostWrite off width v mid => exact hostPortWrite_inv h ht
  | hostRead off width => exact hostPortRead_inv h ht
  | memWrite a bs => exact hostMemWrite_inv h ht
  | memRead a n => exact hostMemRead_inv h ht
  | shmRead off n => exact hostShmRead_inv h ht
  | pru a => exact pruInput_inv h ht
  | reset =>
    cases ht
    exact h.toReset
  | resetDuring w mid memLanded => exact abortCommand_inv h ht

/-- Settles O8: the invariant does not speak of the inputs, and `takeInput_inv` covers each of them. -/
theorem stepKeepsInvariant : Obligations.StepKeepsInvariant := by
  intro s t h ht
  unfold step at ht
  split at ht
  · cases ht
    exact h
  · exact takeInput_inv (h.setInputs _) ht

end Sys2Proof.Machine
end

section
/-! The register port and the host's own accesses to MEM (10_state.md R29 to R31, R38). -/

namespace Sys2Proof.Machine

theorem portRefusal_of_aligned {off : Nat} (ha : off % 4 = 0) (hlt : off < 256) : portRefusal off 4 = none := by
  simp [portRefusal, ha, hlt]

/-- Settles O13: the port is read without refusal, and `portRead` gives each offset of the map its own register. -/
theorem registerMapReads : Obligations.RegisterMapReads := by
  intro s off ha hlt
  have hread : takeInput (.hostRead off 4) s = .next (s.setHostData (portRead s off)) := by
    rw [takeInput, hostPortRead, portRefusal_of_aligned ha hlt]
  rw [hread]
  congr 2
  unfold portRead
  split <;> simp_all [wrap32, Params.qf]

@[simp] theorem portWrite_mid (s : State) (off : Nat) (v : Word) : (portWrite s off v).mid = s.mid := by
  unfold portWrite
  split <;> rfl

/-- A host write to an offset other than CMD, with no PRU step inside it, is `portWrite` and nothing else. -/
theorem takeInput_hostWrite_of_ne_zero {s : State} {off : Nat} (v : Word) (hmid : s.mid = []) (ha : off % 4 = 0)
    (hlt : off < 256) (h0 : off ≠ 0) : takeInput (.hostWrite off 4 v []) s = .next (portWrite s off v) := by
  have hidle : (portWrite s off v).setMid [] = portWrite s off v := by
    rw [← (portWrite_mid s off v).trans hmid]
    rfl
  rw [takeInput, hostPortWrite, portRefusal_of_aligned ha hlt, midRefusal]
  simp only [if_neg h0]
  rw [hidle, drainMid_of_mid_nil _ ((portWrite_mid s off v).trans hmid)]

/-- Settles O14: `portWrite` stores to A0 to A3 at their offsets and does nothing at any other. -/
theorem registerMapWrites : Obligations.RegisterMapWrites := by
  intro s off v hmid ha hlt h0
  rw [takeInput_hostWrite_of_ne_zero v hmid ha hlt h0]
  congr 1
  unfold portWrite
  split <;> simp_all

/-- A host write inside MEM takes place (10_state.md R38). -/
theorem hostMemWrite_of_le {s : State} {a : Nat} {bs : List Byte} (h : a + bs.length ≤ s.cfg.memSize) :
    hostMemWrite a bs s = .next (s.setMem (s.mem.writeBytes a bs)) :=
  if_pos ((rangeOk_iff _ _ _).2 (.inr h))

/-- A host read inside MEM takes place (R38). -/
theorem hostMemRead_of_le {s : State} {a n : Nat} (h : a + n ≤ s.cfg.memSize) :
    hostMemRead a n s = .next (s.setHostBytes (s.mem.readBytes a n)) :=
  if_pos ((rangeOk_iff _ _ _).2 (.inr h))

/-- Settles O16: a range just written reads back as the bytes written. -/
theorem hostReadsWhatItWrote : Obligations.HostReadsWhatItWrote := by
  intro s a bs h
  let t := s.setMem (s.mem.writeBytes a bs)
  have hread : hostMemRead a bs.length t = .next (t.setHostBytes bs) := by
    rw [hostMemRead_of_le (s := t) h, State.setMem_mem, Memory.readBytes_writeBytes]
  exact ⟨t, t.setHostBytes bs, hostMemWrite_of_le h, hread, rfl, rfl, rfl,
    fun x hx => Memory.read_writeBytes_outside _ _ _ _ hx⟩

end Sys2Proof.Machine
end

section
/-! The bytes of the shared words, and what one access of the host or of the PRU does (20_memory.md R50 to R57). -/

namespace Sys2Proof.Machine

namespace Memory

/-- Byte `k` of a byte sequence is what a division of its value leaves (00_scope.md R14). -/
theorem ofNat_le_div (bs : List Byte) (k : Nat) : BitVec.ofNat 8 (Codec.le bs / 256 ^ k) = bs.getD k 0 := by
  induction bs generalizing k with
  | nil => simp [Codec.le]
  | cons b bs ih =>
    have hb : b.toNat < 256 := b.isLt
    cases k with
    | zero =>
      apply BitVec.eq_of_toNat_eq
      simpa [Codec.le] using hb
    | succ k =>
      have hrest : (b.toNat + 256 * Codec.le bs) / 256 = Codec.le bs := by omega
      rw [Codec.le, Nat.pow_succ', ← Nat.div_div_eq_div_mul, hrest, ih, List.getD_cons_succ]

/-- Byte `k` of a register value, as a slice of its bits. -/
theorem extractLsb'_wrap32 (n : Nat) {k : Nat} (hk : k < 4) :
    (wrap32 n).extractLsb' (8 * k) 8 = BitVec.ofNat 8 (n / 256 ^ k) := by
  have hpow : 256 ^ k = 2 ^ (8 * k) := (pow_mul 2 8 k).symm
  refine BitVec.eq_of_getLsbD_eq fun i hi => ?_
  have hlt : 8 * k + i < 32 := by omega
  simp only [wrap32, hpow, BitVec.getLsbD_extractLsb', BitVec.getLsbD_ofNat, Nat.testBit_div_two_pow, hi, hlt,
    decide_true, Bool.true_and, Nat.add_comm i]

/-- Byte `k` of a word holds its bits 8k + 7 to 8k (20_memory.md R50, R51). -/
theorem read_eq_extractLsb'_readWord (m : Memory) (a : Nat) {k : Nat} (hk : k < 4) :
    m.read (a + k) = (m.readWord a).extractLsb' (8 * k) 8 := by
  rw [readWord, extractLsb'_wrap32 _ hk, ofNat_le_div, readBytes_getD _ _ _ _ _ hk]

theorem readWord_write_outside (m : Memory) {a x : Nat} (b : Byte) (h : x < a ∨ a + 4 ≤ x) :
    (m.write x b).readWord a = m.readWord a :=
  readWord_congr fun _ _ _ => read_write_other _ _ _ _ (by omega)

/-- Writes of two bytes of a canonical memory commute. -/
theorem write_comm {m : Memory} (h : m.wf) {x y : Nat} (hxy : x ≠ y) (b c : Byte) :
    (m.write x b).write y c = (m.write y c).write x b := by
  refine ext_of_wf (write_wf _ _ (write_wf _ _ h)) (write_wf _ _ (write_wf _ _ h)) fun z => ?_
  simp only [read_write]
  split
  · rw [if_neg (by omega)]
  · rfl

/-- A write of a byte and a write of a word that does not hold it commute in a canonical memory. -/
theorem writeWord_write_comm {m : Memory} (h : m.wf) {a x : Nat} (hx : x < a ∨ a + 4 ≤ x) (v : Word) (b : Byte) :
    (m.write x b).writeWord a v = (m.writeWord a v).write x b := by
  refine ext_of_wf (writeWord_wf _ _ (write_wf _ _ h)) (write_wf _ _ (writeWord_wf _ _ h)) fun z => ?_
  simp only [writeWord, read_writeBytes, read_write, toLE_length]
  split
  · rw [if_neg (by omega)]
  · rfl

end Memory

/-! ### The register port -/

/-- Settles O15: `portRefusal` refuses such an access before anything else is looked at. -/
theorem portTakesAlignedWords : Obligations.PortTakesAlignedWords := by
  intro s off width v mid h
  have hrefused : portRefusal off width = some .portAccess := if_pos h
  constructor
  · rw [takeInput, hostPortRead, hrefused]
  · rw [takeInput, hostPortWrite, hrefused]

/-! ### The PRU between host steps -/

theorem pruRefusal_readByte {p : Params} {off : Nat} (h : off < dataOff + p.cap) :
    pruRefusal p (.readByte off) = none := if_pos h

theorem pruRefusal_writeByte_of_length (p : Params) {off : Nat} (b : Byte) (h : off < hwcurOff) :
    pruRefusal p (.writeByte off b) = some .pruWritesLength := if_pos h

theorem pruRefusal_writeByte_of_cursor (p : Params) {off : Nat} (b : Byte) (h : hwcurOff ≤ off) (h' : off < dataOff) :
    pruRefusal p (.writeByte off b) = some .pruPartialCursor := by
  rw [pruRefusal, if_neg (not_lt.2 h), if_pos h']

/-- Whether a write of a DATA byte is taken depends on QDIR alone (20_memory.md R57). -/
theorem pruRefusal_writeByte_of_data {p : Params} {off : Nat} (b : Byte) (h : dataOff ≤ off)
    (h' : off < dataOff + p.cap) :
    pruRefusal p (.writeByte off b) = if p.qdir = .tx then some .pruWritesDataTx else none := by
  have hcur : hwcurOff ≤ off := le_trans (by decide) h
  rw [pruRefusal, if_neg (not_lt.2 hcur), if_neg (not_lt.2 h), if_neg (not_le.2 h')]

theorem pruStep_readByte {s : State} {off : Nat} (h : off < dataOff + s.cfg.cap) :
    pruStep (.readByte off) s = s.setPruSeen ((off, s.shm.read off) :: s.pruSeen) := by
  rw [pruStep, pruRefusal_readByte h]
  rfl

theorem pruStep_writeByte {s : State} {off : Nat} {b : Byte} (h : pruRefusal s.cfg (.writeByte off b) = none) :
    pruStep (.writeByte off b) s = s.setShm (s.shm.write off b) := by
  rw [pruStep, h]
  rfl

theorem takeInput_pru_of_refused {s : State} {a : PruAct} {r : Refusal} (h : pruRefusal s.cfg a = some r) :
    takeInput (.pru a) s = .refused r := by
  rw [takeInput, pruInput, h]

theorem takeInput_pru_of_taken {s : State} {a : PruAct} (h : pruRefusal s.cfg a = none) :
    takeInput (.pru a) s = .next (pruStep a s) := by
  rw [takeInput, pruInput, h]

/-- A PRU read of a byte of SHM changes nothing but what the PRU has seen (R57). -/
theorem takeInput_pru_readByte {s : State} {off : Nat} (h : off < dataOff + s.cfg.cap) :
    takeInput (.pru (.readByte off)) s = .next (s.setPruSeen ((off, s.shm.read off) :: s.pruSeen)) := by
  rw [takeInput_pru_of_taken (pruRefusal_readByte h), pruStep_readByte h]

/-- The host reads one byte of SHM (20_memory.md R51). -/
theorem takeInput_shmRead_one {s : State} {off : Nat} (h : off < dataOff + s.cfg.cap) :
    takeInput (.shmRead off 1) s = .next (s.setHostBytes [s.shm.read off]) :=
  if_pos h

/-- A PRU write of HWCUR sets the whole word (R51). -/
theorem takeInput_pru_writeCur (s : State) (v : Word) : ∃ t, takeInput (.pru (.writeCur v)) s = .next t ∧ t.hwcur = v ∧
    t = s.setShm t.shm ∧ ∀ x, x < 4 ∨ 8 ≤ x → t.shm.read x = s.shm.read x :=
  ⟨_, rfl, Memory.readWord_writeWord_same _ _ _, rfl, fun _ hx => Memory.read_writeWord_outside _ _ _ _ hx⟩

/-- Settles O19: `pruRefusal` sorts the acts by the offset, and an act taken is one write or one read of SHM. -/
theorem pruTouchesOnlyItsBytes : Obligations.PruTouchesOnlyItsBytes := by
  refine ⟨takeInput_pru_writeCur, fun s off h => takeInput_pru_readByte h, ?_, ?_, ?_, ?_⟩
  · intro s off b hd hcap hrx
    have htaken : pruRefusal s.cfg (.writeByte off b) = none := by simp [pruRefusal_writeByte_of_data b hd hcap, hrx]
    refine ⟨s.setShm (s.shm.write off b), ?_, rfl, Memory.read_write_same _ _ _,
      fun x hx => Memory.read_write_other _ _ _ _ hx⟩
    rw [takeInput_pru_of_taken htaken, pruStep_writeByte htaken]
  · intro s off b hd hcap htx
    exact takeInput_pru_of_refused (by simp [pruRefusal_writeByte_of_data b hd hcap, htx])
  · exact fun s off b h => takeInput_pru_of_refused (pruRefusal_writeByte_of_length _ b h)
  · exact fun s off b h h' => takeInput_pru_of_refused (pruRefusal_writeByte_of_cursor _ b h h')

/-- Byte `k` of LENGTH (20_memory.md R51). -/
theorem read_length_byte (s : State) {k : Nat} (hk : k < 4) : s.shm.read k = s.lengthField.extractLsb' (8 * k) 8 := by
  rw [State.lengthField, ← Memory.read_eq_extractLsb'_readWord _ _ hk, lengthOff, Nat.zero_add]

/-- Byte `k` of HWCUR (R51). -/
theorem read_hwcur_byte (s : State) {k : Nat} (hk : k < 4) : s.shm.read (4 + k) = s.hwcur.extractLsb' (8 * k) 8 :=
  Memory.read_eq_extractLsb'_readWord s.shm hwcurOff hk

/-- Settles O17: host and PRU read the byte of SHM itself, which is the slice of its word. -/
theorem byteViewsOfSharedWords : Obligations.ByteViewsOfSharedWords := by
  intro s k b v hk
  have hlength : k < dataOff + s.cfg.cap := by simp only [dataOff]; omega
  have hcursor : 4 + k < dataOff + s.cfg.cap := by simp only [dataOff]; omega
  obtain ⟨t, ht, hv, -⟩ := takeInput_pru_writeCur s v
  rw [← read_length_byte s hk, ← read_hwcur_byte s hk]
  exact ⟨takeInput_shmRead_one hlength, takeInput_shmRead_one hcursor, takeInput_pru_readByte hlength,
    takeInput_pru_readByte hcursor, ⟨t, ht, hv⟩,
    takeInput_pru_of_refused (pruRefusal_writeByte_of_cursor _ b (Nat.le_add_right _ _) (Nat.add_lt_add_left hk 4))⟩

end Sys2Proof.Machine
end

section
/-! The SHM accesses of PUSH and POP: the order they take, and what a PRU may see between them (20_memory.md R59, R60). -/

namespace Sys2Proof.Machine

theorem pushAccess_of_lt {qf k : Nat} (src slot : Nat) (s : State) (hk : k < qf) :
    pushAccess src slot qf k s = s.setShm (s.shm.write (slot + k) (s.mem.read (src + k))) := if_pos hk

theorem pushAccess_length (src slot qf : Nat) (s : State) :
    pushAccess src slot qf qf s = s.setShm (s.shm.writeWord lengthOff (wrap32 (s.lengthField.toNat + qf))) :=
  if_neg (lt_irrefl qf)

@[simp] theorem pushAccess_cfg (src slot qf k : Nat) (s : State) : (pushAccess src slot qf k s).cfg = s.cfg := by
  unfold pushAccess
  split <;> rfl

@[simp] theorem pushAccess_mid (src slot qf k : Nat) (s : State) : (pushAccess src slot qf k s).mid = s.mid := by
  unfold pushAccess
  split <;> rfl

@[simp] theorem pushAccess_pruSeen (src slot qf k : Nat) (s : State) :
    (pushAccess src slot qf k s).pruSeen = s.pruSeen := by
  unfold pushAccess
  split <;> rfl

theorem pushAccess_wf (src slot qf k : Nat) {s : State} (h : s.shm.wf) : (pushAccess src slot qf k s).shm.wf := by
  unfold pushAccess
  split
  · exact Memory.write_wf _ _ h
  · exact Memory.writeWord_wf _ _ h

/-- A data access of a PUSH and its access of LENGTH commute, because the slot does not hold LENGTH. -/
theorem pushAccess_comm_length {src slot qf k : Nat} {s : State} (hslot : dataOff ≤ slot) (h : s.shm.wf) (hk : k < qf) :
    pushAccess src slot qf qf (pushAccess src slot qf k s) = pushAccess src slot qf k (pushAccess src slot qf qf s) := by
  have hout : slot + k < lengthOff ∨ lengthOff + 4 ≤ slot + k := by simp only [lengthOff, dataOff] at *; omega
  simp only [pushAccess_of_lt _ _ _ hk, pushAccess_length, State.setShm_shm, State.setShm_mem, State.lengthField,
    Memory.readWord_write_outside _ _ hout, Memory.writeWord_write_comm h hout]
  rfl

/-- Any two accesses of a PUSH commute. -/
theorem pushAccess_comm {src slot qf j k : Nat} {s : State} (hslot : dataOff ≤ slot) (h : s.shm.wf) (hj : j < qf + 1)
    (hk : k < qf + 1) :
    pushAccess src slot qf k (pushAccess src slot qf j s) = pushAccess src slot qf j (pushAccess src slot qf k s) := by
  rcases eq_or_ne j k with rfl | hne
  · rfl
  rcases Nat.lt_succ_iff_lt_or_eq.1 hj with hj | rfl
  · rcases Nat.lt_succ_iff_lt_or_eq.1 hk with hk | rfl
    · simp only [pushAccess_of_lt _ _ _ hj, pushAccess_of_lt _ _ _ hk, State.setShm_shm, State.setShm_mem,
        Memory.write_comm h (show slot + j ≠ slot + k by omega)]
      rfl
    · exact pushAccess_comm_length hslot h hj
  · rcases Nat.lt_succ_iff_lt_or_eq.1 hk with hk | rfl
    · exact (pushAccess_comm_length hslot h hk).symm
    · rfl

/-- Any two accesses of a POP commute. -/
theorem popAccess_comm {dst slot j k : Nat} {s : State} (h : s.mem.wf) :
    popAccess dst slot k (popAccess dst slot j s) = popAccess dst slot j (popAccess dst slot k s) := by
  rcases eq_or_ne j k with rfl | hne
  · rfl
  simp only [popAccess, State.setMem_mem, State.setMem_shm, Memory.write_comm h (show dst + j ≠ dst + k by omega)]
  rfl

section order

variable {access : Nat → State → State} {P : State → Prop} {n : Nat}

/-- Accesses that keep `P` and commute wherever `P` holds give one result in every order. -/
theorem foldl_eq_of_perm {l l' : List Nat} (hl : l.Perm l') (keep : ∀ k s, P s → P (access k s))
    (comm : ∀ j ∈ l, ∀ k ∈ l, ∀ s, P s → access k (access j s) = access j (access k s)) (s : State) (h : P s) :
    l.foldl (fun t k => access k t) s = l'.foldl (fun t k => access k t) s := by
  induction hl generalizing s with
  | nil => rfl
  | cons k _ ih =>
    exact ih (fun i hi j hj => comm i (List.mem_cons_of_mem _ hi) j (List.mem_cons_of_mem _ hj)) _ (keep k s h)
  | swap j k l =>
    simp only [List.foldl_cons]
    rw [comm k (by simp) j (by simp) s h]
  | trans h₁ _ ih₁ ih₂ =>
    exact (ih₁ comm s h).trans (ih₂ (fun i hi j hj => comm i (h₁.mem_iff.2 hi) j (h₁.mem_iff.2 hj)) s h)

/-- A schedule that only orders the accesses of a command ends where the accesses in order end. -/
theorem interleave_cores (keep : ∀ k s, P s → P (access k s)) (order todo : List Nat)
    (comm : ∀ j ∈ todo, ∀ k ∈ todo, ∀ s, P s → access k (access j s) = access j (access k s)) (s : State) (h : P s) :
    interleave access (order.map .core) todo s = todo.foldl (fun t k => access k t) s := by
  induction order generalizing todo s with
  | nil => rfl
  | cons k order ih =>
    simp only [List.map_cons, interleave]
    split
    · rename_i hk
      have hsub : ∀ j ∈ todo.erase k, j ∈ todo := fun _ => List.mem_of_mem_erase
      calc interleave access (order.map .core) (todo.erase k) (access k s)
          = (k :: todo.erase k).foldl (fun t k => access k t) s :=
            ih _ (fun i hi j hj => comm i (hsub i hi) j (hsub j hj)) _ (keep k s h)
        _ = todo.foldl (fun t k => access k t) s :=
            (foldl_eq_of_perm (List.perm_cons_erase hk) keep comm s h).symm
    · exact ih todo comm s h

/-- The SHM accesses of a command in any order the host's write names, and in their own order. -/
theorem shmAccesses_setMid_cores (keep : ∀ k s, P s → P (access k s))
    (comm : ∀ j < n, ∀ k < n, ∀ s, P s → access k (access j s) = access j (access k s)) (order : List Nat) {s : State}
    (hmid : s.mid = []) (h : P (s.setMid [])) :
    shmAccesses n access (s.setMid (order.map .core)) = shmAccesses n access s := by
  rw [shmAccesses, shmAccesses, hmid]
  exact interleave_cores keep order _ (fun i hi j hj => comm i (List.mem_range.1 hi) j (List.mem_range.1 hj)) _ h

end order

/-- The schedule of a command is used up by its SHM accesses. -/
theorem shmAccesses_mid {access : Nat → State → State} (n : Nat) (ha : ∀ k u, (access k u).mid = u.mid) (s : State) :
    (shmAccesses n access s).mid = [] :=
  shmAccesses_preserves (P := fun u => u.mid = []) n (fun a u hu => (pruStep_mid a u).trans hu)
    (fun k _ u hu => (ha k u).trans hu) s rfl

/-- A command whose checks pass and do not look at the schedule ends as without one if its effect does. -/
theorem perform_setMid {o : Byte} {checks : State → List Check} {effect : State → State} {s : State} {l : List MidStep}
    (hc : firstFailure (checks s) = none) (hl : firstFailure (checks (s.setMid l)) = none)
    (he : effect (s.setMid l) = effect s) (hmid : (effect s).mid = []) :
    perform o checks effect (s.setMid l) =
      mapNext (fun t => t.setMid (if s.faulted then l else [])) (perform o checks effect s) := by
  cases hf : s.faulted with
  | true => rw [perform_faulted _ _ _ s hf, perform_faulted _ _ _ (s.setMid l) hf, mapNext_next, if_pos rfl]
  | false =>
    have hidle : (effect s).setMid [] = effect s := by rw [← hmid]; rfl
    rw [perform_pass _ _ _ s hf hc, perform_pass _ _ _ (s.setMid l) hf hl, mapNext_next, he, if_neg (by simp), hidle]

/-- A command that only checks the range of a frame at A0 passes its check in that range. -/
theorem firstFailure_range {p : Params} {a n : Nat} {c : Cause} {info : Nat} (h : rangeOk p a n = true) :
    firstFailure [⟨!rangeOk p a n, c, info⟩] = none := by simp [h]

/-- Settles O49: the accesses of a PUSH commute pairwise and so do those of a POP, so any order of them gives one state. -/
theorem accessOrderDoesNotShow : Obligations.AccessOrderDoesNotShow := by
  intro s order hinv hr
  constructor
  · refine perform_setMid (firstFailure_range hr) (firstFailure_range hr) ?_ (shmAccesses_mid _ (by simp) s)
    refine congrArg (fun u => State.setIcur u s.icurNext) ?_
    exact shmAccesses_setMid_cores (P := fun u => u.shm.wf) (fun k u => pushAccess_wf _ _ _ k)
      (fun j hj k hk u hu => pushAccess_comm (Nat.le_add_right _ _) hu hj hk) order hinv.idle hinv.shmWf
  · refine perform_setMid (firstFailure_range hr) (firstFailure_range hr) ?_ ?_
    · refine congrArg (fun u => State.setIcur u s.icurNext) ?_
      exact shmAccesses_setMid_cores (access := popAccess s.x0 s.slotOff) (P := fun u => u.mem.wf)
        (fun k u hu => Memory.write_wf _ _ hu)
        (fun j _ k _ u hu => popAccess_comm hu) order hinv.idle hinv.memWf
    · exact shmAccesses_mid (access := popAccess s.x0 s.slotOff) _ (fun _ _ => rfl) s

/-! ### What a PRU may see inside a PUSH -/

/-- A queue frame has at least 4 bytes (00_scope.md R8). -/
theorem four_le_qf (p : Params) : 4 ≤ p.qf := by
  rw [Params.qf]
  omega

/-- Every byte of the slot at the cursor lies in SHM. -/
theorem State.Inv.slot_lt {s : State} (h : s.Inv) {k : Nat} (hk : k < s.cfg.qf) :
    s.slotOff + k < dataOff + s.cfg.cap :=
  lt_of_lt_of_le (Nat.add_lt_add_left hk _) h.slotOff_le

theorem midRefusal_core (p : Params) (k : Nat) (rest : List MidStep) :
    midRefusal p (.core k :: rest) = midRefusal p rest := rfl

theorem midRefusal_readByte {p : Params} {off : Nat} (rest : List MidStep) (h : off < dataOff + p.cap) :
    midRefusal p (.pru (.readByte off) :: rest) = midRefusal p rest := by
  rw [midRefusal, pruRefusal_readByte h]

theorem interleave_core_of_mem {access : Nat → State → State} {k : Nat} {todo : List Nat} (hk : k ∈ todo)
    (rest : List MidStep) (s : State) :
    interleave access (.core k :: rest) todo s = interleave access rest (todo.erase k) (access k s) :=
  if_pos hk

theorem interleave_readByte {access : Nat → State → State} {off : Nat} {s : State} (h : off < dataOff + s.cfg.cap)
    (rest : List MidStep) (todo : List Nat) :
    interleave access (.pru (.readByte off) :: rest) todo s =
      interleave access rest todo (s.setPruSeen ((off, s.shm.read off) :: s.pruSeen)) := by
  rw [interleave, pruStep_readByte h]

/-- The accesses that a schedule does not name show the PRU nothing. -/
theorem foldl_pushAccess_pruSeen (src slot qf : Nat) (todo : List Nat) (s : State) :
    (todo.foldl (fun t k => pushAccess src slot qf k t) s).pruSeen = s.pruSeen :=
  List.foldlRecOn (motive := fun t => t.pruSeen = s.pruSeen) todo _ rfl fun t ht k _ =>
    (pushAccess_pruSeen src slot qf k t).trans ht

theorem pushAccess_length_lengthField (src slot qf : Nat) (s : State) :
    (pushAccess src slot qf qf s).lengthField = wrap32 (s.lengthField.toNat + qf) := by
  rw [pushAccess_length]
  exact Memory.readWord_writeWord_same _ _ _

/-- After the access of LENGTH of a PUSH, LENGTH's low byte is that of the new value. -/
theorem pushAccess_length_read_low (src slot qf : Nat) (s : State) :
    (pushAccess src slot qf qf s).shm.read lengthOff = BitVec.ofNat 8 (s.lengthField.toNat + qf) := by
  calc (pushAccess src slot qf qf s).shm.read lengthOff
      = (pushAccess src slot qf qf s).lengthField.extractLsb' (8 * 0) 8 := read_length_byte _ (by decide)
    _ = BitVec.ofNat 8 (s.lengthField.toNat + qf) := by
        rw [pushAccess_length_lengthField, Memory.extractLsb'_wrap32 _ (by decide), pow_zero, Nat.div_one]

/-- The access of LENGTH of a PUSH leaves DATA alone. -/
theorem pushAccess_length_read_data (src slot qf : Nat) (s : State) {x : Nat} (hx : dataOff ≤ x) :
    (pushAccess src slot qf qf s).shm.read x = s.shm.read x := by
  rw [pushAccess_length]
  exact Memory.read_writeWord_outside _ _ _ _ (.inr (le_trans (by decide) hx))

/-- The schedule in which a PUSH of `qf` bytes to `slot` updates LENGTH first, and the PRU then reads LENGTH's low byte and
the first byte of the slot. -/
def lengthFirst (slot qf : Nat) : List MidStep :=
  [.core qf, .pru (.readByte lengthOff), .pru (.readByte slot)]

/-- Under `lengthFirst` the PRU reads the new LENGTH and the old data. -/
theorem interleave_lengthFirst_pruSeen (src qf : Nat) {slot : Nat} {s : State} (hslot : dataOff ≤ slot)
    (hcap : slot < dataOff + s.cfg.cap) :
    (interleave (pushAccess src slot qf) (lengthFirst slot qf) (List.range (qf + 1)) s).pruSeen =
      (slot, s.shm.read slot) :: (lengthOff, BitVec.ofNat 8 (s.lengthField.toNat + qf)) :: s.pruSeen := by
  have hlen : lengthOff < dataOff + s.cfg.cap := lt_of_le_of_lt (Nat.zero_le _) hcap
  rw [lengthFirst, interleave_core_of_mem (List.mem_range.2 (Nat.lt_succ_self qf)),
    interleave_readByte (by simpa using hlen), interleave_readByte (by simpa using hcap), interleave,
    foldl_pushAccess_pruSeen]
  simp only [State.setPruSeen_pruSeen, State.setPruSeen_shm, pushAccess_pruSeen, pushAccess_length_read_low,
    pushAccess_length_read_data _ _ _ _ hslot]

/-- Settles O50: under `lengthFirst` the data bytes follow what the PRU reads. -/
theorem pruMaySeeLengthBeforeData : Obligations.PruMaySeeLengthBeforeData := by
  intro s hinv hf hr
  have hcap : s.slotOff < dataOff + s.cfg.cap := hinv.slot_lt (k := 0) (lt_of_lt_of_le (by decide) (four_le_qf _))
  have hlen : lengthOff < dataOff + s.cfg.cap := lt_of_le_of_lt (Nat.zero_le _) hcap
  refine ⟨lengthFirst s.slotOff s.cfg.qf, _, perform_pass _ _ _ _ hf (firstFailure_range hr), ?_, ?_⟩
  · rw [lengthFirst, midRefusal_core, midRefusal_readByte _ hlen, midRefusal_readByte _ hcap, midRefusal]
  · exact interleave_lengthFirst_pruSeen (s := s.setMid []) s.x0 s.cfg.qf (Nat.le_add_right _ _) hcap

/-- A reset abandons a PUSH that no fault stops (70_reset_and_hazards.md R230): the accesses that the schedule names have
taken place among its PRU steps. -/
theorem takeInput_resetDuring_push {s : State} {mid : List MidStep} (hf : s.faulted = false)
    (hr : rangeOk s.cfg s.x0 s.cfg.qf = true) (hmid : midRefusal s.cfg mid = none) (landed : List Nat) :
    takeInput (.resetDuring (encode .push) mid landed) s = .next (State.toReset
      (abandonedAccesses s.cfg.qf (pushAccess s.x0 s.slotOff s.cfg.qf) (s.setMid mid))) := by
  have hdec : decode (encode .push) = .ok .push := rfl
  have habandon : abandon .push landed (s.setMid mid) = .next
      (abandonedAccesses s.cfg.qf (pushAccess s.x0 s.slotOff s.cfg.qf) (s.setMid mid)) :=
    perform_pass _ _ _ (s.setMid mid) hf (firstFailure_range hr)
  have hdone : (abandonedAccesses s.cfg.qf (pushAccess s.x0 s.slotOff s.cfg.qf) (s.setMid mid)).mid = [] :=
    abandonedAccesses_preserves (P := fun u => u.mid = []) _ (fun a u hu => (pruStep_mid a u).trans hu)
      (fun k _ u hu => (pushAccess_mid _ _ _ k u).trans hu) _ rfl
  rw [takeInput, abortCommand, hmid, hdec]
  simp only [habandon, drainOutcome_next, mapNext_next, drainMid_of_mid_nil _ hdone]

/-- The schedule in which the second byte of a PUSH to `slot` lands, the PRU reads it and then the first, and the first
lands. -/
def secondByteFirst (slot : Nat) : List MidStep :=
  [.core 1, .pru (.readByte (slot + 1)), .pru (.readByte slot), .core 0]

theorem mem_secondByteFirst_todo (slot n k : Nat) :
    k ∈ (List.range n).filter (fun k => (secondByteFirst slot).contains (.core k)) ↔ k < n ∧ (k = 1 ∨ k = 0) := by
  simp [secondByteFirst]

/-- `secondByteFirst` names the accesses 0 and 1 and no other. -/
theorem secondByteFirst_todo_erase (slot n : Nat) :
    ((((List.range n).filter fun k => (secondByteFirst slot).contains (.core k)).erase 1).erase 0) = [] := by
  have hnodup := (List.nodup_range (n := n)).filter fun k => (secondByteFirst slot).contains (.core k)
  refine List.eq_nil_iff_forall_not_mem.2 fun k hk => ?_
  rw [(hnodup.erase 1).mem_erase_iff, hnodup.mem_erase_iff, mem_secondByteFirst_todo] at hk
  omega

/-- Under `secondByteFirst`, with no access left after it, the PRU reads the new second byte and the old first byte. -/
theorem interleave_secondByteFirst (src : Nat) {slot qf : Nat} {todo : List Nat} {s : State} (hqf : 2 ≤ qf)
    (hcap : slot + 1 < dataOff + s.cfg.cap) (hone : 1 ∈ todo) (hzero : 0 ∈ todo)
    (hrest : (todo.erase 1).erase 0 = []) :
    interleave (pushAccess src slot qf) (secondByteFirst slot) todo s =
      (s.setShm ((s.shm.write (slot + 1) (s.mem.read (src + 1))).write slot (s.mem.read src))).setPruSeen
        ((slot, s.shm.read slot) :: (slot + 1, s.mem.read (src + 1)) :: s.pruSeen) := by
  rw [secondByteFirst, interleave_core_of_mem hone, interleave_readByte (by simpa using hcap),
    interleave_readByte (by simpa using Nat.lt_of_succ_lt hcap),
    interleave_core_of_mem ((List.mem_erase_of_ne (by decide)).2 hzero), hrest, interleave, List.foldl_nil,
    pushAccess_of_lt _ _ _ (by omega), pushAccess_of_lt _ _ _ (by omega)]
  simp only [State.setShm_shm, State.setShm_mem, State.setShm_pruSeen, State.setPruSeen_shm, State.setPruSeen_mem,
    State.setPruSeen_pruSeen, Memory.read_write_same, Memory.read_write_other _ _ _ _ (Nat.lt_succ_self slot).ne,
    Nat.add_zero]
  rfl

/-- What a PUSH that a reset abandons under `secondByteFirst` has done. -/
theorem abandonedAccesses_secondByteFirst (src : Nat) {slot qf : Nat} {s : State} (hqf : 2 ≤ qf)
    (hcap : slot + 1 < dataOff + s.cfg.cap) :
    abandonedAccesses qf (pushAccess src slot qf) (s.setMid (secondByteFirst slot)) =
      ((s.setMid []).setShm ((s.shm.write (slot + 1) (s.mem.read (src + 1))).write slot (s.mem.read src))).setPruSeen
        ((slot, s.shm.read slot) :: (slot + 1, s.mem.read (src + 1)) :: s.pruSeen) :=
  interleave_secondByteFirst (s := s.setMid []) src hqf hcap ((mem_secondByteFirst_todo _ _ 1).2 ⟨hqf, .inl rfl⟩)
    ((mem_secondByteFirst_todo _ _ 0).2 ⟨Nat.zero_lt_of_lt hqf, .inr rfl⟩) (secondByteFirst_todo_erase slot qf)

/-- Settles O11: under `secondByteFirst` the PRU reads between the two accesses. -/
theorem pruMaySeeAbandonedPushOutOfOrder : Obligations.PruMaySeeAbandonedPushOutOfOrder := by
  intro s hinv hf hr
  have hqf : 2 ≤ s.cfg.qf := le_trans (by decide) (four_le_qf s.cfg)
  have hcap : s.slotOff + 1 < dataOff + s.cfg.cap := hinv.slot_lt hqf
  have hmid : midRefusal s.cfg (secondByteFirst s.slotOff) = none := by
    rw [secondByteFirst, midRefusal_core, midRefusal_readByte _ hcap, midRefusal_readByte _ (Nat.lt_of_succ_lt hcap),
      midRefusal_core, midRefusal]
  have hdata : lengthOff + 4 ≤ s.slotOff := le_trans (by decide) (Nat.le_add_right dataOff _)
  refine ⟨secondByteFirst s.slotOff, _, takeInput_resetDuring_push hf hr hmid [], ?_⟩
  rw [abandonedAccesses_secondByteFirst _ hqf hcap]
  refine ⟨rfl, Memory.read_write_same _ _ _, ?_, fun j hj _ => ?_, ?_, rfl⟩
  · exact (Memory.read_write_other _ _ _ _ (by omega)).trans (Memory.read_write_same _ _ _)
  · exact (Memory.read_write_other _ _ _ _ (by omega)).trans (Memory.read_write_other _ _ _ _ (by omega))
  · exact (Memory.readWord_write_outside _ _ (.inr hdata)).trans (Memory.readWord_write_outside _ _ (.inr (by omega)))

end Sys2Proof.Machine
end

section
/-! Decoding: what the fields of a word say of it, and the three answers of the decoder (30_encoding.md R70 to R75). -/

namespace Sys2Proof

theorem rsvField_toNat (w : Word) : (rsvField w).toNat = w.toNat / 256 := by
  have hlt : w.toNat < 2 ^ 32 := w.isLt
  rw [rsvField, BitVec.extractLsb'_toNat, Nat.shiftRight_eq_div_pow]
  omega

theorem opcField_toNat (w : Word) : (opcField w).toNat = w.toNat % 256 := by
  rw [opcField, BitVec.extractLsb'_toNat, Nat.shiftRight_zero]

theorem rsvField_eq_zero_iff (w : Word) : rsvField w = 0 ↔ w.toNat < 256 := by
  have hzero : (0 : BitVec 24).toNat = 0 := rfl
  rw [← BitVec.toNat_inj, rsvField_toNat, hzero]
  omega

theorem encode_toNat (i : Instr) : (encode i).toNat = i.opcode.toNat :=
  BitVec.toNat_setWidth_of_le (by decide)

/-- The word of a command is the word with its opcode in `OPC` and `RSV` = 0 (R70). -/
theorem eq_encode_iff (w : Word) (i : Instr) : w = encode i ↔ rsvField w = 0 ∧ opcField w = i.opcode := by
  rw [rsvField_eq_zero_iff, ← BitVec.toNat_inj, ← BitVec.toNat_inj, encode_toNat, opcField_toNat]
  have hlt : i.opcode.toNat < 256 := i.opcode.isLt
  omega

theorem decodeOpcode_opcode (i : Instr) : decodeOpcode i.opcode = .ok i := by
  cases i <;> rfl

/-- Each row of the opcode map belongs to the opcode of its own command (R72). -/
theorem decodeOpcode_eq_ok_iff (o : Byte) (i : Instr) : decodeOpcode o = .ok i ↔ o = i.opcode := by
  refine ⟨fun h => ?_, fun h => h ▸ decodeOpcode_opcode i⟩
  unfold decodeOpcode at h
  split at h <;> cases h <;> exact BitVec.eq_of_toNat_eq ‹_›

/-- The opcodes without a row (R75). -/
theorem decodeOpcode_eq_error_iff (o : Byte) (e : DecodeError) :
    decodeOpcode o = .error e ↔ e = .illegalOpcode ∧ (o.toNat = 0 ∨ 0x0F ≤ o.toNat) := by
  unfold decodeOpcode
  split
  case h_15 =>
    have hout : o.toNat = 0 ∨ 0x0F ≤ o.toNat := by
      simp only [imp_false] at *
      omega
    rw [and_iff_left hout, Except.error.injEq, eq_comm]
  all_goals
    refine ⟨nofun, fun ⟨_, h⟩ => ?_⟩
    omega

theorem decode_of_rsv_ne_zero {w : Word} (h : rsvField w ≠ 0) : decode w = .error .reservedBits := if_pos h

theorem decode_of_rsv_eq_zero {w : Word} (h : rsvField w = 0) : decode w = decodeOpcode (opcField w) :=
  if_neg (not_not.2 h)

/-- A word selects the row of a command exactly when it is that command's word (R73). -/
theorem decode_eq_ok_iff (w : Word) (i : Instr) : decode w = .ok i ↔ w = encode i := by
  rw [eq_encode_iff]
  by_cases h : rsvField w = 0
  · rw [decode_of_rsv_eq_zero h, decodeOpcode_eq_ok_iff, and_iff_right h]
  · rw [decode_of_rsv_ne_zero h]
    exact ⟨nofun, fun ⟨hr, _⟩ => absurd hr h⟩

theorem decode_eq_reservedBits_iff (w : Word) : decode w = .error .reservedBits ↔ rsvField w ≠ 0 := by
  by_cases h : rsvField w = 0
  · simp [decode_of_rsv_eq_zero h, decodeOpcode_eq_error_iff, h]
  · exact iff_of_true (decode_of_rsv_ne_zero h) h

theorem decode_eq_illegalOpcode_iff (w : Word) : decode w = .error .illegalOpcode ↔
    rsvField w = 0 ∧ ((opcField w).toNat = 0 ∨ 0x0F ≤ (opcField w).toNat) := by
  by_cases h : rsvField w = 0
  · simp [decode_of_rsv_eq_zero h, decodeOpcode_eq_error_iff, h]
  · rw [decode_of_rsv_ne_zero h]
    exact ⟨nofun, fun ⟨hr, _⟩ => absurd hr h⟩

/-- An illegal word decodes to no command (R75). -/
theorem decode_error_of_ne_encode {w : Word} (h : ∀ i, w ≠ encode i) : ∃ e, decode w = .error e := by
  cases hd : decode w with
  | ok i => exact absurd ((decode_eq_ok_iff w i).1 hd) (h i)
  | error e => exact ⟨e, rfl⟩

theorem opcode_bounds (i : Instr) : 0x01 ≤ i.opcode.toNat ∧ i.opcode.toNat ≤ 0x0E := by
  cases i <;> decide

/-- The legal words (R73). -/
theorem exists_decode_eq_ok_iff (w : Word) :
    (∃ i, decode w = .ok i) ↔ 0x00000001 ≤ w.toNat ∧ w.toNat ≤ 0x0000000E := by
  constructor
  · rintro ⟨i, h⟩
    rw [(decode_eq_ok_iff w i).1 h, encode_toNat]
    exact opcode_bounds i
  · rintro ⟨hlow, hhigh⟩
    have hrsv : rsvField w = 0 := (rsvField_eq_zero_iff w).2 (by omega)
    cases hd : decode w with
    | ok i => exact ⟨i, rfl⟩
    | error e =>
      rw [decode_of_rsv_eq_zero hrsv, decodeOpcode_eq_error_iff, opcField_toNat] at hd
      omega

/-- Settles O2: `decode` inverts `encode`, and a word it refuses has a field outside those of the 14 rows. -/
theorem decodeSelectsOneRow : Obligations.DecodeSelectsOneRow := ⟨decode_eq_ok_iff, exists_decode_eq_ok_iff⟩

/-- Settles O4: the decoder looks at `RSV` first, and the opcodes without a row are those outside 0x01 to 0x0E. -/
theorem illegalWordsAreExactlyThese : Obligations.IllegalWordsAreExactlyThese := by
  refine fun w => ⟨decode_eq_reservedBits_iff w, ?_⟩
  have hzero : opcField w = 0x00 ↔ (opcField w).toNat = 0 := BitVec.toNat_inj.symm
  have hle : (opcField w).toNat ≤ 0xFF := Nat.le_of_lt_succ (opcField w).isLt
  rw [decode_eq_illegalOpcode_iff, hzero, and_iff_left hle]

/-- Settles O1: the word of a command selects its own row. -/
theorem decodeOfEncode : Obligations.DecodeOfEncode := fun i => (decode_eq_ok_iff _ i).2 rfl

/-- Settles O3: the 14 words of R72 are those that `encode` gives the commands. -/
theorem opcodeMapWords : Obligations.OpcodeMapWords :=
  ⟨decodeOfEncode .enc, decodeOfEncode .dec, decodeOfEncode .menc, decodeOfEncode .mdec, decodeOfEncode .pkt,
    decodeOfEncode .depkt, decodeOfEncode .push, decodeOfEncode .pop, decodeOfEncode .peek, decodeOfEncode .prucur,
    decodeOfEncode .getlen, decodeOfEncode .setlen, decodeOfEncode .bget, decodeOfEncode .bset⟩

end Sys2Proof
end

section
/-! A CMD write and the step that takes it (20_memory.md R55, 30_encoding.md R70, R75, R77). -/

namespace Sys2Proof.Machine

theorem step_of_inputs {s : State} {inp : Input} {rest : List Input} (h : s.inputs = inp :: rest) :
    step s = takeInput inp (s.setInputs rest) := by
  rw [step, h]

/-- Between steps no schedule is set (log 8). -/
theorem State.setMid_eq_self {s : State} {l : List MidStep} (h : s.mid = l) : s.setMid l = s := by
  subst h
  rfl

/-- A CMD write whose PRU steps are all inside the model performs its command among them (R70). -/
theorem takeInput_cmdWrite {s : State} {mid : List MidStep} (h : midRefusal s.cfg mid = none) (w : Word) :
    takeInput (.hostWrite 0 4 w mid) s = drainOutcome (command w (s.setMid mid)) := by
  rw [takeInput, hostPortWrite, portRefusal_of_aligned (by decide) (by decide), h]
  rfl

theorem command_of_decode {w : Word} {i : Instr} (h : decode w = .ok i) (s : State) : command w s = exec i s := by
  rw [command, h]

theorem command_of_illegal {w : Word} (h : ∀ i, w ≠ encode i) (s : State) : command w s = illegalCommand w s := by
  obtain ⟨e, he⟩ := decode_error_of_ne_encode h
  rw [command, he]

/-- An illegal word latches its fault (R75). -/
theorem illegalCommand_latch {s : State} (w : Word) (hf : s.faulted = false) :
    illegalCommand w s = .next (s.latch .illegalCmd (opcField w) w.toNat) :=
  perform_fail _ _ _ s ⟨true, .illegalCmd, w.toNat⟩ hf rfl

/-- Settles O5: `step` takes the write at the head of the inputs, whose word `command` decodes. -/
theorem stepRunsDecodedCommand : Obligations.StepRunsDecodedCommand := by
  constructor
  · intro s w i mid rest hin hmid hdec
    rw [step_of_inputs hin, takeInput_cmdWrite (s := s.setInputs rest) hmid, command_of_decode hdec]
  · intro s i hidle
    have hword : BitVec.ofNat 32 ((encode i).toNat % 2 ^ 32) = encode i := by
      rw [Nat.mod_eq_of_lt (encode i).isLt, BitVec.ofNat_toNat, BitVec.setWidth_eq]
    have hin : (s.withFetchWord 32 (encode i).toNat).inputs = .hostWrite 0 4 (encode i) [] :: s.inputs := by
      rw [State.withFetchWord, State.setInputs_inputs, hword]
    have hback : (s.withFetchWord 32 (encode i).toNat).setInputs s.inputs = s := rfl
    rw [step_of_inputs hin, hback, takeInput_cmdWrite rfl, command_of_decode (decodeOfEncode i),
      State.setMid_eq_self hidle]

/-! ### Assembler lines -/

theorem takeAll_singleton (inp : Input) (s : State) : takeAll [inp] s = takeInput inp s := by
  rw [takeAll]
  cases takeInput inp s <;> rfl

theorem takeAll_cons_next {inp : Input} {s t : State} (h : takeInput inp s = .next t) (rest : List Input) :
    takeAll (inp :: rest) s = takeAll rest t := by
  rw [takeAll, h]

/-- A write of A0 to A3 sets that register; the host's write carries no PRU step (R77). -/
theorem takeInput_argWrite (k : Fin 4) (v : Word) (s : State) :
    takeInput (argWrite k.val v) s = .next ((s.withArg k v).setMid []) := by
  match k with
  | 0 | 1 | 2 | 3 => rfl

theorem takeAll_argWrite_cons (k : Fin 4) (v : Word) (rest : List Input) (s : State) :
    takeAll (argWrite k.val v :: rest) s = takeAll rest ((s.withArg k v).setMid []) :=
  takeAll_cons_next (takeInput_argWrite k v s) rest

/-- A line's own CMD write runs its command. -/
theorem takeAll_cmdWrite_encode (i : Instr) (s : State) :
    takeAll [cmdWrite (encode i)] s = drainOutcome (exec i (s.setMid [])) := by
  rw [takeAll_singleton, cmdWrite, takeInput_cmdWrite rfl, command_of_decode (decodeOfEncode i)]

theorem takeAll_commandLine (s : State) (i : Instr) (args : List Word) (h : args.length ≤ 4) :
    takeAll (commandLine i args) s = drainOutcome (exec i
      ({ s with a0 := args[0]?.getD s.a0, a1 := args[1]?.getD s.a1, a2 := args[2]?.getD s.a2,
                a3 := args[3]?.getD s.a3 }.setMid [])) := by
  match args, h with
  | [], _ => exact takeAll_cmdWrite_encode i s
  | [a], _ => exact (takeAll_argWrite_cons 0 a _ s).trans (takeAll_cmdWrite_encode i _)
  | [a, b], _ =>
    exact (takeAll_argWrite_cons 0 a _ s).trans <| (takeAll_argWrite_cons 1 b _ _).trans <|
      takeAll_cmdWrite_encode i _
  | [a, b, c], _ =>
    exact (takeAll_argWrite_cons 0 a _ s).trans <| (takeAll_argWrite_cons 1 b _ _).trans <|
      (takeAll_argWrite_cons 2 c _ _).trans <| takeAll_cmdWrite_encode i _
  | [a, b, c, d], _ =>
    exact (takeAll_argWrite_cons 0 a _ s).trans <| (takeAll_argWrite_cons 1 b _ _).trans <|
      (takeAll_argWrite_cons 2 c _ _).trans <| (takeAll_argWrite_cons 3 d _ _).trans <|
      takeAll_cmdWrite_encode i _

/-- Settles O18: each line is a `commandLine` with its own operands. -/
theorem assemblerLineRunsCommand : Obligations.AssemblerLineRunsCommand := by
  refine ⟨takeAll_commandLine, fun s a b c d => ?_⟩
  have zero : ([] : List Word).length ≤ 4 := by decide
  have one : [a].length ≤ 4 := by simp
  have two : [a, b].length ≤ 4 := by simp
  have three : [a, b, c].length ≤ 4 := by simp
  have four : [a, b, c, d].length ≤ 4 := by simp
  exact ⟨takeAll_commandLine s .enc _ three, takeAll_commandLine s .dec _ three, takeAll_commandLine s .menc _ four,
    takeAll_commandLine s .mdec _ four, takeAll_commandLine s .pkt _ three, takeAll_commandLine s .depkt _ two,
    takeAll_commandLine s .push _ one, takeAll_commandLine s .pop _ one, takeAll_commandLine s .peek _ zero,
    takeAll_commandLine s .prucur _ zero, takeAll_commandLine s .getlen _ zero, takeAll_commandLine s .setlen _ one,
    takeAll_commandLine s .bget _ two, takeAll_commandLine s .bset _ three⟩

end Sys2Proof.Machine
end

section
/-! Changes of registers that neither the PRU's steps nor a command's SHM accesses see: the fault registers
(60_exceptions.md R202), and the argument registers that a command does not read (30_encoding.md R76). -/

namespace Sys2Proof.Machine

/-- `f` changes registers only: it keeps what a PRU step and the order of SHM accesses look at, and it does not matter
whether it comes before or after what they write. -/
structure RegisterChange (f : State → State) : Prop where
  cfg : ∀ s, (f s).cfg = s.cfg
  shm : ∀ s, (f s).shm = s.shm
  mid : ∀ s, (f s).mid = s.mid
  pruSeen : ∀ s, (f s).pruSeen = s.pruSeen
  setShm : ∀ s m, (f s).setShm m = f (s.setShm m)
  setMid : ∀ s l, (f s).setMid l = f (s.setMid l)
  setPruSeen : ∀ s l, (f s).setPruSeen l = f (s.setPruSeen l)

theorem latch_registerChange (c : Cause) (o : Byte) (k : Nat) : RegisterChange fun s => s.latch c o k := by
  constructor <;> intros <;> rfl

theorem withArg_registerChange (k : Fin 4) (v : Word) : RegisterChange fun s => s.withArg k v := by
  match k with
  | 0 | 1 | 2 | 3 => constructor <;> intros <;> rfl

namespace RegisterChange

variable {f : State → State} {access : Nat → State → State}

theorem pruStep (h : RegisterChange f) (a : PruAct) (s : State) : pruStep a (f s) = f (pruStep a s) := by
  unfold Machine.pruStep
  rw [h.cfg, h.shm, h.pruSeen]
  split
  · rfl
  · cases a with
    | writeCur v => exact h.setShm _ _
    | readByte off => exact h.setPruSeen _ _
    | writeByte off b => exact h.setShm _ _

theorem interleave (h : RegisterChange f) (ha : ∀ k s, access k (f s) = f (access k s)) (sched : List MidStep)
    (todo : List Nat) (s : State) : interleave access sched todo (f s) = f (interleave access sched todo s) := by
  induction sched generalizing todo s with
  | nil => exact List.foldl_hom f fun t k => ha k t
  | cons m sched ih =>
    cases m with
    | core k =>
      simp only [Machine.interleave, ha]
      split <;> exact ih _ _
    | pru a =>
      simp only [Machine.interleave, h.pruStep]
      exact ih _ _

theorem shmAccesses (h : RegisterChange f) (n : Nat) (ha : ∀ k s, access k (f s) = f (access k s)) (s : State) :
    shmAccesses n access (f s) = f (shmAccesses n access s) := by
  rw [Machine.shmAccesses, h.mid, h.setMid, h.interleave ha]
  rfl

theorem drainMid (h : RegisterChange f) (s : State) : drainMid (f s) = f (drainMid s) :=
  h.shmAccesses (access := fun _ t => t) 0 (fun _ _ => rfl) s

end RegisterChange

/-! ### An illegal word -/

theorem State.faultedBy_latch (s : State) (c : Cause) (o : Byte) (k : Nat) : s.FaultedBy (s.latch c o k) c o k :=
  ⟨s.latch_faulted c o k, s.latch_causeField c o k, s.latch_fopcField c o k, rfl, rfl⟩

/-- A CMD write of an illegal word: the PRU steps of the write and the fault entry (30_encoding.md R75). -/
theorem takeInput_illegal {s : State} {w : Word} {mid : List MidStep} (hf : s.faulted = false)
    (hmid : midRefusal s.cfg mid = none) (hw : ∀ i, w ≠ encode i) :
    takeInput (.hostWrite 0 4 w mid) s =
      .next ((drainMid (s.setMid mid)).latch .illegalCmd (opcField w) w.toNat) := by
  rw [takeInput_cmdWrite hmid, command_of_illegal hw, illegalCommand_latch (s := s.setMid mid) w hf, drainOutcome_next,
    (latch_registerChange _ _ _).drainMid]

/-- Settles O6: the fault entry of an illegal word commutes with the PRU steps of its write. -/
theorem illegalCommandFaults : Obligations.IllegalCommandFaults := by
  constructor
  · exact fun s w mid hf hmid hw => ⟨_, takeInput_illegal hf hmid hw, State.faultedBy_latch _ _ _ _⟩
  · intro s w rest hin hidle hf hw
    have hdrain : drainMid ((s.setInputs rest).setMid []) = s.setInputs rest := by
      rw [State.setMid_eq_self (s := s.setInputs rest) hidle, drainMid_of_mid_nil (s.setInputs rest) hidle]
    refine ⟨_, ?_, State.faultedBy_latch _ _ _ _⟩
    rw [step_of_inputs hin, takeInput_illegal (s := s.setInputs rest) hf rfl hw, hdrain]

/-! ### Argument registers that a command does not read -/

/-- A change of the state that the checks do not see, and that makes no difference to the effect but the change itself,
makes none to the command. -/
theorem perform_change {f : State → State} {o : Byte} {checks : State → List Check} {effect : State → State} {s : State}
    (hf : (f s).faulted = s.faulted) (hl : ∀ c k, (f s).latch c o k = f (s.latch c o k))
    (hc : checks (f s) = checks s) (he : effect (f s) = f (effect s)) :
    perform o checks effect (f s) = mapNext f (perform o checks effect s) := by
  unfold perform
  rw [hf, hc]
  split
  · rfl
  · split
    · rw [hl, mapNext_next]
    · rw [he, mapNext_next]

theorem State.faulted_withArg (s : State) (k : Fin 4) (v : Word) : (s.withArg k v).faulted = s.faulted := by
  match k with
  | 0 | 1 | 2 | 3 => rfl

theorem State.latch_withArg (s : State) (k : Fin 4) (v : Word) (c : Cause) (o : Byte) (n : Nat) :
    (s.withArg k v).latch c o n = (s.latch c o n).withArg k v := by
  match k with
  | 0 | 1 | 2 | 3 => rfl

/-- `perform_change` for a command and an argument register. -/
theorem exec_withArg {i : Instr} {s : State} {k : Fin 4} {v : Word}
    (hc : commandChecks i (s.withArg k v) = commandChecks i s)
    (he : commandEffect i (s.withArg k v) = (commandEffect i s).withArg k v) :
    exec i (s.withArg k v) = mapNext (fun t => t.withArg k v) (exec i s) := by
  rw [exec_eq, exec_eq]
  exact perform_change (f := fun t => t.withArg k v) (s.faulted_withArg k v) (fun c n => s.latch_withArg k v c _ n)
    hc he

theorem pushAccess_withArg (src slot qf j : Nat) (s : State) (k : Fin 4) (v : Word) :
    pushAccess src slot qf j (s.withArg k v) = (pushAccess src slot qf j s).withArg k v := by
  match k with
  | 0 | 1 | 2 | 3 =>
    unfold pushAccess
    split <;> rfl

theorem popAccess_withArg (dst slot j : Nat) (s : State) (k : Fin 4) (v : Word) :
    popAccess dst slot j (s.withArg k v) = (popAccess dst slot j s).withArg k v := by
  match k with
  | 0 | 1 | 2 | 3 => rfl

theorem pushEffect_withArg {k : Fin 4} (hk : k ≠ 0) (v : Word) (s : State) :
    pushEffect (s.withArg k v) = (pushEffect s).withArg k v := by
  have haccesses := (withArg_registerChange k v).shmAccesses (s.cfg.qf + 1)
    (fun j u => pushAccess_withArg s.x0 s.slotOff s.cfg.qf j u k v) s
  match k, hk with
  | 1, _ | 2, _ | 3, _ => exact congrArg (fun u => State.setIcur u s.icurNext) haccesses

theorem popEffect_withArg {k : Fin 4} (hk : k ≠ 0) (v : Word) (s : State) :
    popEffect (s.withArg k v) = (popEffect s).withArg k v := by
  have haccesses := (withArg_registerChange k v).shmAccesses s.cfg.qf
    (fun j u => popAccess_withArg s.x0 s.slotOff j u k v) s
  match k, hk with
  | 1, _ | 2, _ | 3, _ => exact congrArg (fun u => State.setIcur u s.icurNext) haccesses

theorem setlenEffect_withArg {k : Fin 4} (hk : k ≠ 0) (v : Word) (s : State) :
    setlenEffect (s.withArg k v) = (setlenEffect s).withArg k v := by
  refine (withArg_registerChange k v).shmAccesses 1 (fun _ u => ?_) s
  match k, hk with
  | 1, _ | 2, _ | 3, _ => rfl

theorem getlenEffect_withArg (k : Fin 4) (v : Word) (s : State) :
    getlenEffect (s.withArg k v) = (getlenEffect s).withArg k v := by
  refine (withArg_registerChange k v).shmAccesses 1 (fun _ u => ?_) s
  match k with
  | 0 | 1 | 2 | 3 => rfl

theorem prucurEffect_withArg (k : Fin 4) (v : Word) (s : State) :
    prucurEffect (s.withArg k v) = (prucurEffect s).withArg k v := by
  refine (withArg_registerChange k v).shmAccesses 1 (fun _ u => ?_) s
  match k with
  | 0 | 1 | 2 | 3 => rfl

/-- The cells "-" of 30_encoding.md R71: the checks of a command do not look at such a register. -/
theorem commandChecks_withArg {i : Instr} {k : Fin 4} (h : readsArg i k.val = false) (v : Word) (s : State) :
    commandChecks i (s.withArg k v) = commandChecks i s := by
  cases i with
  | menc | mdec => exact absurd (Nat.le_of_lt_succ k.isLt) (of_decide_eq_false h)
  | enc | dec | pkt | bset =>
    match k, h with
    | 3, _ => rfl
  | depkt | bget =>
    match k, h with
    | 2, _ | 3, _ => rfl
  | push | pop =>
    match k, h with
    | 1, _ | 2, _ | 3, _ => rfl
  | peek | prucur | getlen | setlen => rfl

/-- The cells "-" of R71: the effect of a command neither looks at such a register nor writes it. -/
theorem commandEffect_withArg {i : Instr} {k : Fin 4} (h : readsArg i k.val = false) (v : Word) (s : State) :
    commandEffect i (s.withArg k v) = (commandEffect i s).withArg k v := by
  cases i with
  | menc | mdec => exact absurd (Nat.le_of_lt_succ k.isLt) (of_decide_eq_false h)
  | enc | dec | pkt | bset =>
    match k, h with
    | 3, _ => rfl
  | depkt | bget =>
    match k, h with
    | 2, _ | 3, _ => rfl
  | peek =>
    match k with
    | 0 | 1 | 2 | 3 => rfl
  | push => exact pushEffect_withArg (by rintro rfl; cases h) v s
  | pop => exact popEffect_withArg (by rintro rfl; cases h) v s
  | setlen => exact setlenEffect_withArg (by rintro rfl; cases h) v s
  | getlen => exact getlenEffect_withArg k v s
  | prucur => exact prucurEffect_withArg k v s

/-- BSET uses bit 0 of A2 only (44_bitops.md R191). -/
theorem bsetEffect_withArg_of_bit {s : State} {v : Word} (h : v.getLsbD 0 = s.a2.getLsbD 0) :
    bsetEffect (s.withArg 2 v) = (bsetEffect s).withArg 2 v := by
  have hbyte : Codec.withBit (s.mem.read s.bitAddr) (s.x1 % 8) (v.getLsbD 0) =
      Codec.withBit (s.mem.read s.bitAddr) (s.x1 % 8) (s.a2.getLsbD 0) := by rw [h]
  exact congrArg (fun b => (s.withArg 2 v).setMem (s.mem.write s.bitAddr b)) hbyte

/-- Settles O58: neither the checks nor the effect of a command see a register of a "-" cell. -/
theorem unreadArgumentsDoNotMatter : Obligations.UnreadArgumentsDoNotMatter :=
  ⟨fun _ s _ v h => exec_withArg (commandChecks_withArg h v s) (commandEffect_withArg h v s),
    fun _ _ h => exec_withArg (i := .bset) rfl (bsetEffect_withArg_of_bit h)⟩

end Sys2Proof.Machine
end

section
/-! The block code on its own (40_block_code.md R104 to R107): DECW takes a nearest codeword, corrects up to three flipped
bits, and DEC's loop undoes ENC's. -/

namespace Sys2Proof.Codec

/-! ### DECW -/

theorem decw_fst (p : Params) (r : Codeword) : (decw p r).1 = pickNearest r (nearest p r) := by rw [decw]

theorem decw_snd (p : Params) (r : Codeword) : (decw p r).2 = dist r (decw p r).1 := by rw [decw]

theorem decw_fst_mem_nearest (p : Params) (r : Codeword) : (decw p r).1 ∈ nearest p r := by
  rw [decw_fst]
  exact pickNearest_mem r _ (nearest_ne_nil p r)

theorem decw_fst_of_nearest_singleton {p : Params} {r c : Codeword} (h : nearest p r = [c]) : (decw p r).1 = c := by
  rw [decw_fst, h, pickNearest]

/-- Settles O22: DECW picks from NEAREST, whose members are the codewords no codeword is nearer than. -/
theorem decwTakesNearestCodeword : Obligations.DecwTakesNearestCodeword := by
  intro p r
  obtain ⟨hcode, hleast⟩ := (mem_nearest p r _).1 (decw_fst_mem_nearest p r)
  exact ⟨(mem_code p _).1 hcode, fun s => hleast _ ((mem_code p _).2 ⟨s, rfl⟩), decw_snd p r,
    fun c => decw_fst_of_nearest_singleton⟩

theorem dist_xor_self (c e : Codeword) : dist (c ^^^ e) c = popcount e := by
  rw [dist, BitVec.xor_comm c e, BitVec.xor_assoc, BitVec.xor_self, BitVec.xor_zero]

/-- At most 3 flipped bits leave every other codeword at distance 4 or more, so DECW undoes them (R106). -/
theorem decw_gen_xor {p : Params} (hp : p.genOk = true) (s : Sym) {e : Codeword} (he : popcount e ≤ 3) :
    decw p (gen p s ^^^ e) = (gen p s, popcount e) := by
  rw [← dist_xor_self (gen p s) e]
  refine decw_of_unique p _ _ ((mem_code p _).2 ⟨s, rfl⟩) fun d hd hne => ?_
  obtain ⟨t, rfl⟩ := (mem_code p d).1 hd
  have hfar : 7 ≤ dist (gen p s) (gen p t) := dist_gen_ge hp s t fun h => hne (h ▸ rfl)
  have htri := dist_triangle (gen p s) (gen p t) (gen p s ^^^ e)
  rw [dist_comm (gen p s) (gen p s ^^^ e), dist_xor_self] at htri
  rw [dist_xor_self]
  omega

/-- Settles O23: DECW of the corrupted codeword is the codeword sent, and GEN is injective. -/
theorem boundedCorrection : Obligations.BoundedCorrection := by
  intro p hp s e he
  rw [decw_gen_xor hp s he]
  exact ⟨rfl, symOf_gen hp s⟩

/-- DECW keeps a codeword: the case of no flipped bit. -/
theorem decw_gen {p : Params} (hp : p.genOk = true) (s : Sym) : decw p (gen p s) = (gen p s, 0) := by
  have hzero : popcount 0#24 = 0 := by decide
  have h := decw_gen_xor hp s (e := 0#24) (by omega)
  rwa [BitVec.xor_zero, hzero] at h

/-! ### The loops of ENC and DEC -/

/-- One round of DEC on the bytes of two codewords (R103). -/
theorem decodeBytes_codewordBytes (p : Params) (c d : Codeword) (rest : List Byte) :
    decodeBytes p (codewordBytes c ++ codewordBytes d ++ rest) =
      (join (symOf p (decw p c).1) (symOf p (decw p d).1) ++ (decodeBytes p rest).1,
        (decw p c).2 + (decw p d).2 + (decodeBytes p rest).2) := by
  have hc := codewordOf_codewordBytes c _ _ _ (codewordBytes_eq c)
  have hd := codewordOf_codewordBytes d _ _ _ (codewordBytes_eq d)
  rw [codewordBytes_eq, codewordBytes_eq]
  simp only [List.cons_append, List.nil_append, decodeBytes, hc, hd]

/-- DEC's loop undoes ENC's and finds nothing to correct (R107). -/
theorem decodeBytes_encodeBytes {p : Params} (hp : p.genOk = true) (bs : List Byte) (h : bs.length % 3 = 0) :
    decodeBytes p (encodeBytes p bs) = (bs, 0) := by
  induction bs using encodeBytes.induct with
  | case1 b0 b1 b2 rest ih =>
    have hrest : decodeBytes p (encodeBytes p rest) = (rest, 0) := ih (by simp only [List.length_cons] at h; omega)
    rw [encodeBytes, decodeBytes_codewordBytes, hrest, decw_gen hp, decw_gen hp, symOf_gen hp, symOf_gen hp, join_split]
    rfl
  | case2 bs hshort =>
    match bs, h, hshort with
    | [], _, _ => rfl
    | b0 :: b1 :: b2 :: rest, _, hshort => exact absurd rfl (hshort b0 b1 b2 rest)

theorem split_join (s0 s1 : Sym) (b0 b1 b2 : Byte) (h : join s0 s1 = [b0, b1, b2]) : split b0 b1 b2 = (s0, s1) := by
  have hbytes := join_toNat s0 s1
  simp only [h, List.map_cons, List.map_nil, List.cons.injEq, and_true] at hbytes
  obtain ⟨h0, h1, h2⟩ := hbytes
  have hs1 : s1.toNat < 4096 := s1.isLt
  refine Prod.ext (BitVec.eq_of_toNat_eq ?_) (BitVec.eq_of_toNat_eq ?_) <;> dsimp only
  · rw [split_fst_toNat, h0, h1]
    omega
  · rw [split_snd_toNat, h1, h2]
    omega

/-! ### Bits, the most significant first (00_scope.md R11) -/

/-- The codeword of 3 bytes is those bytes put one after another (R100). -/
theorem codewordOf_eq_append (b0 b1 b2 : Byte) : codewordOf b0 b1 b2 = b0 ++ b1 ++ b2 := by
  have h0 := b0.isLt
  have h1 := b1.isLt
  have h2 := b2.isLt
  apply BitVec.eq_of_toNat_eq
  rw [BitVec.toNat_append, ← Nat.shiftLeft_add_eq_or_of_lt h2, BitVec.toNat_append, ← Nat.shiftLeft_add_eq_or_of_lt h1]
  simp only [codewordOf, be, List.reverse_cons, List.reverse_nil, List.nil_append, List.cons_append, le,
    BitVec.toNat_ofNat, Nat.shiftLeft_eq]
  omega

/-- Bit `i` of a codeword, from its most significant one, lies in byte `i / 8`. -/
theorem codewordOf_getLsbD (b : Nat → Byte) {i : Nat} (hi : i < 24) :
    (codewordOf (b 0) (b 1) (b 2)).getLsbD (23 - i) = bitOf (b (i / 8)) (i % 8) := by
  rw [codewordOf_eq_append, BitVec.getLsbD_append, BitVec.getLsbD_append, bitOf]
  rcases (by omega : i / 8 = 0 ∨ i / 8 = 1 ∨ i / 8 = 2) with h | h | h
  · rw [h, if_neg (by omega), if_neg (by omega)]
    congr 1
    omega
  · rw [h, if_neg (by omega), if_pos (by omega)]
    congr 1
    omega
  · rw [h, if_pos (by omega)]
    congr 1
    omega

/-- Bit `i` of the first symbol of a triad lies in byte `i / 8`. -/
theorem split_fst_getLsbD (b : Nat → Byte) {i : Nat} (hi : i < 12) :
    (split (b 0) (b 1) (b 2)).1.getLsbD (11 - i) = bitOf (b (i / 8)) (i % 8) := by
  rw [split, BitVec.getLsbD_append, bitOf]
  rcases (by omega : i / 8 = 0 ∨ i / 8 = 1) with h | h
  · rw [h, if_neg (by omega)]
    congr 1
    omega
  · rw [h, if_pos (by omega), BitVec.getLsbD_extractLsb', decide_eq_true (by omega), Bool.true_and]
    congr 1
    omega

/-- Bit `i` of the second symbol of a triad is bit `12 + i` of the triad. -/
theorem split_snd_getLsbD (b : Nat → Byte) {i : Nat} (hi : i < 12) :
    (split (b 0) (b 1) (b 2)).2.getLsbD (11 - i) = bitOf (b ((12 + i) / 8)) ((12 + i) % 8) := by
  rw [split, BitVec.getLsbD_append, bitOf]
  rcases (by omega : (12 + i) / 8 = 1 ∨ (12 + i) / 8 = 2) with h | h
  · rw [h, if_neg (by omega), BitVec.getLsbD_extractLsb', decide_eq_true (by omega), Bool.true_and]
    congr 1
    omega
  · rw [h, if_pos (by omega)]
    congr 1
    omega

end Sys2Proof.Codec
end

section
/-! Symbols and codewords as lanes of a memory (40_block_code.md R110): the bits they stand for, what the loops of ENC and
DEC make of them, and how a sequence of blocks lies in a memory. -/

namespace Sys2Proof.Machine.Memory

/-! ### Blocks of bytes -/

theorem readBytes_add (m : Memory) (a n k : Nat) :
    m.readBytes a (n + k) = m.readBytes a n ++ m.readBytes (a + n) k := by
  simp [readBytes, List.range_add, Function.comp_def, Nat.add_assoc]

theorem readBytes_three (m : Memory) (a : Nat) : m.readBytes a 3 = [m.read a, m.read (a + 1), m.read (a + 2)] := rfl

theorem writeBytes_append (m : Memory) (a : Nat) (bs cs : List Byte) :
    m.writeBytes a (bs ++ cs) = (m.writeBytes a bs).writeBytes (a + bs.length) cs := by
  induction bs generalizing m a with
  | nil => rfl
  | cons b bs ih => simp [ih, Nat.add_assoc, Nat.add_comm 1]

theorem readBytes_writeBytes_outside (m : Memory) {a x n : Nat} {bs : List Byte} (h : x + n ≤ a ∨ a + bs.length ≤ x) :
    (m.writeBytes a bs).readBytes x n = m.readBytes x n :=
  readBytes_congr fun _ _ _ => read_writeBytes_outside _ _ _ _ (by omega)

/-- A part of the bytes just written reads back at its own place. -/
theorem readBytes_writeBytes_middle (m : Memory) (a : Nat) (pre bs post : List Byte) :
    (m.writeBytes a (pre ++ bs ++ post)).readBytes (a + pre.length) bs.length = bs := by
  rw [writeBytes_append, readBytes_writeBytes_outside _ (.inl ?_), writeBytes_append, readBytes_writeBytes]
  simp [Nat.add_assoc]

theorem length_flatMap_range (f : Nat → List Byte) {w : Nat} (hf : ∀ i, (f i).length = w) (n : Nat) :
    ((List.range n).flatMap f).length = w * n := by
  simp [List.length_flatMap, hf, Nat.mul_comm]

/-- Block `k` of a sequence of blocks of one length reads back at its own place. -/
theorem readBytes_writeBytes_flatMap (m : Memory) (a : Nat) (f : Nat → List Byte) {w n k : Nat}
    (hf : ∀ i, (f i).length = w) (hk : k < n) :
    (m.writeBytes a ((List.range n).flatMap f)).readBytes (a + w * k) w = f k := by
  obtain ⟨r, rfl⟩ : ∃ r, n = k + 1 + r := ⟨n - (k + 1), by omega⟩
  have hblocks : (List.range (k + 1 + r)).flatMap f =
      (List.range k).flatMap f ++ f k ++ ((List.range r).map (k + 1 + ·)).flatMap f := by
    rw [List.range_add, List.flatMap_append, List.range_succ, List.flatMap_append, List.flatMap_singleton]
  have h := readBytes_writeBytes_middle m a ((List.range k).flatMap f) (f k)
    (((List.range r).map (k + 1 + ·)).flatMap f)
  rwa [← hblocks, length_flatMap_range f hf, hf] at h

/-! ### Lanes -/

/-- Symbol `k` of the triads at `a` (40_block_code.md R110): each triad holds two (R100). -/
def symAt (m : Memory) (a k : Nat) : Sym :=
  let triad := Codec.split (m.read (a + 3 * (k / 2))) (m.read (a + 3 * (k / 2) + 1)) (m.read (a + 3 * (k / 2) + 2))
  if k % 2 = 0 then triad.1 else triad.2

theorem symAt_even (m : Memory) (a k : Nat) : m.symAt a (2 * k) =
    (Codec.split (m.read (a + 3 * k)) (m.read (a + 3 * k + 1)) (m.read (a + 3 * k + 2))).1 := by
  simp [symAt]

theorem symAt_odd (m : Memory) (a k : Nat) : m.symAt a (2 * k + 1) =
    (Codec.split (m.read (a + 3 * k)) (m.read (a + 3 * k + 1)) (m.read (a + 3 * k + 2))).2 := by
  have h2 : (2 * k + 1) / 2 = k := by omega
  simp [symAt, h2, Nat.add_mod]

theorem symAt_add_two (m : Memory) (a k : Nat) : m.symAt a (k + 2) = m.symAt (a + 3) k := by
  have hmul : a + 3 * (k / 2 + 1) = a + 3 + 3 * (k / 2) := by omega
  simp [symAt, hmul]

/-- The bits 12k to 12k + 11 are symbol `k`, most significant first (44_bitops.md R192). -/
theorem symAt_getLsbD (m : Memory) (a k : Nat) {i : Nat} (hi : i < 12) :
    (m.symAt a k).getLsbD (11 - i) = m.bitAt a (12 * k + i) := by
  obtain ⟨q, rfl | rfl⟩ : ∃ q, k = 2 * q ∨ k = 2 * q + 1 := ⟨k / 2, by omega⟩
  · have hbyte : a + (12 * (2 * q) + i) / 8 = a + 3 * q + i / 8 := by omega
    have hbit : (12 * (2 * q) + i) % 8 = i % 8 := by omega
    rw [symAt_even, bitAt, hbyte, hbit]
    exact Codec.split_fst_getLsbD (fun d => m.read (a + 3 * q + d)) hi
  · have hbyte : a + (12 * (2 * q + 1) + i) / 8 = a + 3 * q + (12 + i) / 8 := by omega
    have hbit : (12 * (2 * q + 1) + i) % 8 = (12 + i) % 8 := by omega
    rw [symAt_odd, bitAt, hbyte, hbit]
    exact Codec.split_snd_getLsbD (fun d => m.read (a + 3 * q + d)) hi

/-- The bits 24k to 24k + 23 are the codeword `3k` bytes on, most significant first (R192). -/
theorem codewordAt_getLsbD (m : Memory) (a k : Nat) {i : Nat} (hi : i < 24) :
    (m.codewordAt (a + 3 * k)).getLsbD (23 - i) = m.bitAt a (24 * k + i) := by
  have hbyte : a + (24 * k + i) / 8 = a + 3 * k + i / 8 := by omega
  have hbit : (24 * k + i) % 8 = i % 8 := by omega
  rw [bitAt, hbyte, hbit]
  exact Codec.codewordOf_getLsbD (fun d => m.read (a + 3 * k + d)) hi

theorem codewordAt_congr {m m' : Memory} {a : Nat} (h : ∀ d, d < 3 → m.read (a + d) = m'.read (a + d)) :
    m.codewordAt a = m'.codewordAt a := by
  have h0 : m.read a = m'.read a := h 0 (by decide)
  rw [codewordAt, codewordAt, h0, h 1 (by decide), h 2 (by decide)]

/-- The bytes of a codeword in a memory are that codeword (R100). -/
theorem codewordAt_of_readBytes {m : Memory} {a : Nat} {c : Codeword} (h : m.readBytes a 3 = Codec.codewordBytes c) :
    m.codewordAt a = c :=
  Codec.codewordOf_codewordBytes c _ _ _ h.symm

/-- The lanes of a triad that holds two joined symbols are those symbols. -/
theorem symAt_of_readBytes {m : Memory} {a k : Nat} {s : Nat → Sym}
    (h : ∀ q, q < k → m.readBytes (a + 3 * q) 3 = Codec.join (s (2 * q)) (s (2 * q + 1))) {j : Nat} (hj : j < 2 * k) :
    m.symAt a j = s j := by
  have hsplit := Codec.split_join _ _ (m.read (a + 3 * (j / 2))) (m.read (a + 3 * (j / 2) + 1))
    (m.read (a + 3 * (j / 2) + 2)) (h (j / 2) (by omega)).symm
  obtain hj | hj : j = 2 * (j / 2) ∨ j = 2 * (j / 2) + 1 := by omega
  · rw [hj, symAt_even, hsplit]
  · rw [hj, symAt_odd, hsplit]

/-! ### The loops of ENC and DEC -/

theorem range_add_two_flatMap (f : Nat → List Byte) (n : Nat) : (List.range (n + 2)).flatMap f =
    f 0 ++ f 1 ++ (List.range n).flatMap fun k => f (k + 2) := by
  rw [List.range_succ_eq_map, List.range_succ_eq_map]
  simp [List.flatMap_map, List.append_assoc]

/-- ENC's loop gives each lane's codeword in order (R102, R110). -/
theorem encodeBytes_readBytes (p : Params) (m : Memory) (a n : Nat) :
    Codec.encodeBytes p (m.readBytes a (3 * n)) =
      (List.range (2 * n)).flatMap fun k => Codec.codewordBytes (Codec.gen p (m.symAt a k)) := by
  induction n generalizing a with
  | zero => rfl
  | succ n ih =>
    rw [Nat.mul_succ, Nat.mul_succ, Nat.add_comm, readBytes_add, readBytes_three, range_add_two_flatMap]
    simp only [symAt_add_two, ← ih]
    rfl

/-- What DEC makes of codeword `j` of the codewords at `a` (R103). -/
def decSymAt (m : Memory) (p : Params) (a j : Nat) : Sym :=
  Codec.symOf p (Codec.decw p (m.codewordAt (a + 3 * j))).1

/-- The bits DEC changes in codeword `j` of the codewords at `a` (R105). -/
def decDistAt (m : Memory) (p : Params) (a j : Nat) : Nat := (Codec.decw p (m.codewordAt (a + 3 * j))).2

theorem decSymAt_add_two (m : Memory) (p : Params) (a j : Nat) : m.decSymAt p a (j + 2) = m.decSymAt p (a + 6) j := by
  have hlane : a + 3 * (j + 2) = a + 6 + 3 * j := by omega
  rw [decSymAt, decSymAt, hlane]

theorem decDistAt_add_two (m : Memory) (p : Params) (a j : Nat) : m.decDistAt p a (j + 2) = m.decDistAt p (a + 6) j := by
  have hlane : a + 3 * (j + 2) = a + 6 + 3 * j := by omega
  rw [decDistAt, decDistAt, hlane]

/-- One round of DEC on a pair of codewords in a memory (R103). -/
theorem decodeBytes_readBytes_append (p : Params) (m : Memory) (a : Nat) (rest : List Byte) :
    Codec.decodeBytes p (m.readBytes a 6 ++ rest) =
      (Codec.join (m.decSymAt p a 0) (m.decSymAt p a 1) ++ (Codec.decodeBytes p rest).1,
        m.decDistAt p a 0 + m.decDistAt p a 1 + (Codec.decodeBytes p rest).2) := rfl

/-- DEC's loop gives the two symbols of each pair of codewords, and adds up the distances of all codewords (R103, R105). -/
theorem decodeBytes_readBytes (p : Params) (m : Memory) (a n : Nat) :
    Codec.decodeBytes p (m.readBytes a (6 * n)) =
      ((List.range n).flatMap fun k => Codec.join (m.decSymAt p a (2 * k)) (m.decSymAt p a (2 * k + 1)),
        ((List.range (2 * n)).map (m.decDistAt p a)).sum) := by
  induction n generalizing a with
  | zero => rfl
  | succ n ih =>
    rw [Nat.mul_succ, Nat.mul_succ, Nat.add_comm, readBytes_add, decodeBytes_readBytes_append, ih]
    refine Prod.ext ?_ ?_ <;> dsimp only
    · rw [List.range_succ_eq_map, List.flatMap_cons, List.flatMap_map]
      simp only [Nat.succ_eq_add_one, Nat.mul_succ, decSymAt_add_two]
    · rw [List.range_succ_eq_map, List.range_succ_eq_map]
      simp [Function.comp_def, decDistAt_add_two, Nat.add_assoc]

end Sys2Proof.Machine.Memory
end

section
/-! ENC and DEC as commands (40_block_code.md R102 to R110). -/

namespace Sys2Proof.Machine

/-! ### A command whose checks pass, and one that faults -/

theorem exec_pass {i : Instr} {s : State} (hf : s.faulted = false) (hc : firstFailure (commandChecks i s) = none) :
    exec i s = .next (commandEffect i s) :=
  (exec_eq i s).trans (perform_pass _ _ _ s hf hc)

/-- A command latches the fault of its first check that fails, under its own opcode (60_exceptions.md R202, R204). -/
theorem exec_fail {i : Instr} {s : State} {c : Check} (hf : s.faulted = false)
    (hc : firstFailure (commandChecks i s) = some c) :
    ∃ t, exec i s = .next t ∧ s.FaultedBy t c.cause i.opcode c.info :=
  ⟨_, (exec_eq i s).trans (perform_fail _ _ _ s c hf hc), s.faultedBy_latch _ _ _⟩

/-- The three buffer checks in R204's order. -/
theorem bufferChecks_source {p : Params} {src n : Nat} (dst m : Nat) (h : rangeOk p src n = false) :
    firstFailure (bufferChecks p src n dst m) = some ⟨true, .memRange, src⟩ := by
  simp [bufferChecks, h]

theorem bufferChecks_dest {p : Params} {src n dst m : Nat} (h : rangeOk p src n = true) (h' : rangeOk p dst m = false) :
    firstFailure (bufferChecks p src n dst m) = some ⟨true, .memRange, dst⟩ := by
  simp [bufferChecks, h, h']

theorem bufferChecks_overlap {p : Params} {src n dst m : Nat} (h : rangeOk p src n = true) (h' : rangeOk p dst m = true)
    (ho : overlap src n dst m = true) : firstFailure (bufferChecks p src n dst m) = some ⟨true, .overlap, dst⟩ := by
  simp [bufferChecks, h, h', ho]

variable {s t : State}

theorem encChecks_of_length (h : s.x2 % 3 = 0) :
    firstFailure (commandChecks .enc s) = firstFailure (bufferChecks s.cfg s.x0 s.x2 s.x1 (2 * s.x2)) := by
  simp [commandChecks, encChecks, h]

theorem encChecks_of_bad_length (h : s.x2 % 3 ≠ 0) :
    firstFailure (commandChecks .enc s) = some ⟨true, .lenMult3, s.x2⟩ := by
  simp [commandChecks, encChecks, h]

theorem decChecks_of_length (h : s.x2 % 6 = 0) :
    firstFailure (commandChecks .dec s) = firstFailure (bufferChecks s.cfg s.x0 s.x2 s.x1 (s.x2 / 2)) := by
  simp [commandChecks, decChecks, h]

theorem decChecks_of_bad_length (h : s.x2 % 6 ≠ 0) :
    firstFailure (commandChecks .dec s) = some ⟨true, .lenMult6, s.x2⟩ := by
  simp [commandChecks, decChecks, h]

/-- Settles O27: each clause names the first check of the command that fails. -/
theorem blockCodeFaultOrder : Obligations.BlockCodeFaultOrder := fun _ hf =>
  ⟨fun h => exec_fail hf (encChecks_of_bad_length h),
    fun h hr => exec_fail hf ((encChecks_of_length h).trans (bufferChecks_source _ _ hr)),
    fun h hr hw => exec_fail hf ((encChecks_of_length h).trans (bufferChecks_dest hr hw)),
    fun h hr hw ho => exec_fail hf ((encChecks_of_length h).trans (bufferChecks_overlap hr hw ho)),
    fun h => exec_fail hf (decChecks_of_bad_length h),
    fun h hr => exec_fail hf ((decChecks_of_length h).trans (bufferChecks_source _ _ hr)),
    fun h hr hw => exec_fail hf ((decChecks_of_length h).trans (bufferChecks_dest hr hw)),
    fun h hr hw ho => exec_fail hf ((decChecks_of_length h).trans (bufferChecks_overlap hr hw ho))⟩

/-! ### ENC -/

theorem exec_enc (hf : s.faulted = false) (h3 : s.x2 % 3 = 0) (hb : s.BuffersOk s.x2 (2 * s.x2)) :
    exec .enc s = .next (encEffect s) :=
  exec_pass hf ((encChecks_of_length h3).trans ((bufferChecks_pass _ _ _ _ _).2 hb))

/-- ENC writes the codeword of each lane of its input to the lane of the same number of its output (R110). -/
theorem encEffect_codewordAt (h3 : s.x2 % 3 = 0) {k : Nat} (hk : k < 2 * (s.x2 / 3)) :
    (encEffect s).mem.codewordAt (s.x1 + 3 * k) = Codec.gen s.cfg (s.mem.symAt s.x0 k) := by
  have hlen : s.x2 = 3 * (s.x2 / 3) := by omega
  apply Memory.codewordAt_of_readBytes
  rw [encEffect, State.setMem_mem, hlen, Memory.encodeBytes_readBytes]
  exact Memory.readBytes_writeBytes_flatMap _ _ _ (by simp) hk

theorem encEffect_read_outside (h3 : s.x2 % 3 = 0) {a : Nat} (ha : a < s.x1 ∨ s.x1 + 2 * s.x2 ≤ a) :
    (encEffect s).mem.read a = s.mem.read a := by
  refine Memory.read_writeBytes_outside _ _ _ _ ?_
  rw [Codec.encodeBytes_length, Memory.readBytes_length]
  omega

/-- Settles O20: a triad of input bytes is two lanes, and ENC encodes lane by lane. -/
theorem encWritesCodewords : Obligations.EncWritesCodewords := by
  intro s hf h3 hb
  refine ⟨encEffect s, exec_enc hf h3 hb, rfl, fun k hk => ?_, fun a ha => encEffect_read_outside h3 ha⟩
  have hfst := encEffect_codewordAt h3 (k := 2 * k) (by omega)
  have hsnd := encEffect_codewordAt h3 (k := 2 * k + 1) (by omega)
  rw [Memory.symAt_even, ← Nat.mul_assoc] at hfst
  rw [Memory.symAt_odd, Nat.mul_succ, ← Nat.mul_assoc] at hsnd
  exact ⟨hfst, hsnd⟩

/-- Settles O26: the bits of a lane of the input are its symbol, those of the same lane of the output its codeword. -/
theorem encBitStreams : Obligations.EncBitStreams := by
  intro s t k sym hf h3 hb hk hsym ht j hj
  cases (exec_enc hf h3 hb).symm.trans ht
  have hlane : s.mem.symAt s.x0 k = sym := by
    refine BitVec.eq_of_getLsbD_eq fun i hi => ?_
    have hbit := (Memory.symAt_getLsbD s.mem s.x0 k (i := 11 - i) (by omega)).trans (hsym (11 - i) (by omega)).symm
    rwa [Nat.sub_sub_self (by omega)] at hbit
  rw [← Memory.codewordAt_getLsbD _ _ _ hj, encEffect_codewordAt h3 hk, hlane]

/-! ### DEC -/

theorem exec_dec (hf : s.faulted = false) (h6 : s.x2 % 6 = 0) (hb : s.BuffersOk s.x2 (s.x2 / 2)) :
    exec .dec s = .next (decEffect s) :=
  exec_pass hf ((decChecks_of_length h6).trans ((bufferChecks_pass _ _ _ _ _).2 hb))

/-- DEC writes the symbols of the codewords 2k and 2k + 1 as triad `k` of its output (R103). -/
theorem decEffect_readBytes (h6 : s.x2 % 6 = 0) {k : Nat} (hk : k < s.x2 / 6) :
    (decEffect s).mem.readBytes (s.x1 + 3 * k) 3 =
      Codec.join (s.mem.decSymAt s.cfg s.x0 (2 * k)) (s.mem.decSymAt s.cfg s.x0 (2 * k + 1)) := by
  have hlen : s.x2 = 6 * (s.x2 / 6) := by omega
  rw [decEffect, State.setDiag_mem, State.setMem_mem, hlen, Memory.decodeBytes_readBytes]
  exact Memory.readBytes_writeBytes_flatMap _ _ _ (by simp) hk

/-- Symbol `j` of DEC's output comes from codeword `j` of its input (R110). -/
theorem decEffect_symAt (h6 : s.x2 % 6 = 0) {j : Nat} (hj : j < s.x2 / 3) :
    (decEffect s).mem.symAt s.x1 j = s.mem.decSymAt s.cfg s.x0 j :=
  Memory.symAt_of_readBytes (fun _ hq => decEffect_readBytes h6 hq) (by omega)

theorem decEffect_diag (h6 : s.x2 % 6 = 0) :
    (decEffect s).diag = BitVec.ofNat 32 ((List.range (s.x2 / 3)).map (s.mem.decDistAt s.cfg s.x0)).sum := by
  have hlen : s.x2 = 6 * (s.x2 / 6) := by omega
  have hlanes : s.x2 / 3 = 2 * (s.x2 / 6) := by omega
  rw [decEffect, State.setDiag_diag, hlanes, hlen, Memory.decodeBytes_readBytes, ← hlen]
  rfl

theorem decEffect_read_outside (h6 : s.x2 % 6 = 0) {a : Nat} (ha : a < s.x1 ∨ s.x1 + s.x2 / 2 ≤ a) :
    (decEffect s).mem.read a = s.mem.read a := by
  refine Memory.read_writeBytes_outside _ _ _ _ ?_
  rw [Codec.decodeBytes_length, Memory.readBytes_length]
  omega

/-- Settles O21: DEC decodes pair by pair of codewords, and DIAG adds up the bits changed in each. -/
theorem decWritesSymbols : Obligations.DecWritesSymbols := by
  intro s hf h6 hb
  refine ⟨decEffect s, exec_dec hf h6 hb, rfl, fun k hk => ?_, decEffect_diag h6,
    fun a ha => decEffect_read_outside h6 ha⟩
  rw [decEffect_readBytes h6 hk, Memory.decSymAt, Memory.decSymAt, Nat.mul_succ, ← Nat.mul_assoc]
  rfl

/-- Settles O25: the 12 output bits are symbol `j`, which DEC computes from codeword `j`. -/
theorem decIsLocalToItsCodeword : Obligations.DecIsLocalToItsCodeword := by
  intro s s' t t' j hf hf' hcfg h0 h1 h2 h6 hb hj hbytes ht ht' b hblt
  have hx0 : s.x0 = s'.x0 := congrArg BitVec.toNat h0
  have hx1 : s.x1 = s'.x1 := congrArg BitVec.toNat h1
  have hx2 : s.x2 = s'.x2 := congrArg BitVec.toNat h2
  have h6' : s'.x2 % 6 = 0 := hx2 ▸ h6
  have hb' : s'.BuffersOk s'.x2 (s'.x2 / 2) := by
    rwa [State.BuffersOk, ← hcfg, ← hx0, ← hx1, ← hx2]
  cases (exec_dec hf h6 hb).symm.trans ht
  cases (exec_dec hf' h6' hb').symm.trans ht'
  have hsym : s.mem.decSymAt s.cfg s.x0 j = s'.mem.decSymAt s'.cfg s'.x0 j := by
    rw [Memory.decSymAt, Memory.decSymAt, Memory.codewordAt_congr hbytes, hcfg, hx0]
  rw [← Memory.symAt_getLsbD _ _ _ hblt, ← Memory.symAt_getLsbD _ _ _ hblt, decEffect_symAt h6 hj, hsym, hx1,
    decEffect_symAt h6' (hx2 ▸ hj)]

/-! ### ENC and then DEC -/

theorem takeAll_append_next {l : List Input} (h : takeAll l s = .next t) (l' : List Input) :
    takeAll (l ++ l') s = takeAll l' t := by
  induction l generalizing s with
  | nil =>
    cases h
    rfl
  | cons inp l ih =>
    rw [takeAll] at h
    cases hin : takeInput inp s with
    | next u =>
      rw [hin] at h
      rw [List.cons_append, takeAll_cons_next hin, ih h]
    | fault r => rw [hin] at h; cases h
    | refused r => rw [hin] at h; cases h

/-- The state in which a line with these operands runs its command (30_encoding.md R77). -/
def State.withArgs (s : State) (args : List Word) : State :=
  { s with a0 := args[0]?.getD s.a0, a1 := args[1]?.getD s.a1, a2 := args[2]?.getD s.a2, a3 := args[3]?.getD s.a3 }.setMid []

/-- A line whose command uses up the schedule ends in the command's next state. -/
theorem takeAll_commandLine_next {i : Instr} {args : List Word} (hargs : args.length ≤ 4)
    (hx : exec i (s.withArgs args) = .next t) (hmid : t.mid = []) : takeAll (commandLine i args) s = .next t := by
  rw [takeAll_commandLine s i args hargs, ← State.withArgs, hx, drainOutcome_next, drainMid_of_mid_nil t hmid]

theorem encEffect_readBytes (h3 : s.x2 % 3 = 0) :
    (encEffect s).mem.readBytes s.x1 (2 * s.x2) = Codec.encodeBytes s.cfg (s.mem.readBytes s.x0 s.x2) := by
  have hlen : 2 * s.x2 = (Codec.encodeBytes s.cfg (s.mem.readBytes s.x0 s.x2)).length := by
    rw [Codec.encodeBytes_length, Memory.readBytes_length]
    omega
  rw [hlen]
  exact Memory.readBytes_writeBytes _ _ _

/-- The line ENC leaves the encoded bytes at its destination (R102). -/
theorem takeAll_encLine {a b n : Word} (hf : s.faulted = false) (h3 : n.toNat % 3 = 0)
    (ha : rangeOk s.cfg a.toNat n.toNat = true) (hb : rangeOk s.cfg b.toNat (2 * n.toNat) = true)
    (hab : overlap a.toNat n.toNat b.toNat (2 * n.toNat) = false) :
    ∃ t, takeAll (commandLine .enc [a, b, n]) s = .next t ∧ t.faulted = false ∧ t.cfg = s.cfg ∧
      t.mem.readBytes b.toNat (2 * n.toNat) = Codec.encodeBytes s.cfg (s.mem.readBytes a.toNat n.toNat) :=
  ⟨_, takeAll_commandLine_next (by simp) (exec_enc (s := s.withArgs [a, b, n]) hf h3 ⟨ha, hb, hab⟩) rfl, hf, rfl,
    encEffect_readBytes (s := s.withArgs [a, b, n]) h3⟩

/-- DEC of encoded bytes gives the bytes back and has nothing to correct (R107). -/
theorem decEffect_of_encoded {bs : List Byte} (hp : s.cfg.genOk = true) (h3 : bs.length % 3 = 0)
    (henc : s.mem.readBytes s.x0 s.x2 = Codec.encodeBytes s.cfg bs) :
    (decEffect s).mem.readBytes s.x1 bs.length = bs ∧ (decEffect s).diag = 0 := by
  rw [decEffect, henc, Codec.decodeBytes_encodeBytes hp bs h3]
  exact ⟨Memory.readBytes_writeBytes _ _ _, rfl⟩

/-- The line DEC leaves the `n` bytes that were encoded at its destination. -/
theorem takeAll_decLine {b c m : Word} {bs : List Byte} {n : Nat} (hp : s.cfg.genOk = true) (hf : s.faulted = false)
    (hlen : bs.length = n) (h3 : n % 3 = 0) (hm : m.toNat = 2 * n) (hb : rangeOk s.cfg b.toNat (2 * n) = true)
    (hc : rangeOk s.cfg c.toNat n = true) (hbc : overlap b.toNat (2 * n) c.toNat n = false)
    (henc : s.mem.readBytes b.toNat (2 * n) = Codec.encodeBytes s.cfg bs) :
    ∃ t, takeAll (commandLine .dec [b, c, m]) s = .next t ∧ t.faulted = false ∧
      t.mem.readBytes c.toNat n = bs ∧ t.diag = 0 := by
  subst hlen
  have hx2 : (s.withArgs [b, c, m]).x2 = 2 * bs.length := hm
  have hhalf : (s.withArgs [b, c, m]).x2 / 2 = bs.length := by omega
  have hbuf : (s.withArgs [b, c, m]).BuffersOk (s.withArgs [b, c, m]).x2 ((s.withArgs [b, c, m]).x2 / 2) := by
    rw [hhalf, hx2]
    exact ⟨hb, hc, hbc⟩
  refine ⟨_, takeAll_commandLine_next (by simp) (exec_dec hf (by omega) hbuf) rfl, hf, ?_⟩
  exact decEffect_of_encoded (s := s.withArgs [b, c, m]) hp h3 (hx2 ▸ henc)

/-- Settles O24: the line DEC reads the bytes the line ENC wrote, and DEC's loop undoes ENC's. -/
theorem encDecRoundTrip : Obligations.EncDecRoundTrip := by
  intro s a b c n hp hf h3 hn ha hb hc hab hbc
  have htwo : (2 * n).toNat = 2 * n.toNat := (BitVec.toNat_mul _ _).trans (Nat.mod_eq_of_lt hn)
  obtain ⟨u, henc, hfu, hcfg, hbytes⟩ := takeAll_encLine hf h3 ha hb hab
  rw [← hcfg] at hp hb hc hbytes
  obtain ⟨t, hdec, hrest⟩ := takeAll_decLine hp hfu (Memory.readBytes_length _ _ _) h3 htwo hb hc hbc hbytes
  exact ⟨t, (takeAll_append_next henc _).trans hdec, hrest⟩

end Sys2Proof.Machine
end

section
/-! The line code on its own (41_line_code.md R120 to R125): the eight pairs of a byte, what UNPAIR makes of them, and
MDEC's loop undoes MENC's. -/

namespace Sys2Proof.Codec

/-! ### The pairs of a byte -/

@[simp] theorem pair_getLsbD_zero (b : Bool) : (pair b).getLsbD 0 = b := by cases b <;> rfl

@[simp] theorem pair_getLsbD_one (b : Bool) : (pair b).getLsbD 1 = !b := by cases b <;> rfl

/-- Four pairs one after another, the first at the top: the form of every byte MENC writes (R120). -/
def fourPairs (f : Nat → Bool) : Byte := pair (f 0) ++ pair (f 1) ++ pair (f 2) ++ pair (f 3)

theorem mbyteHi_eq_fourPairs (b : Byte) : mbyteHi b = fourPairs (bitOf b) := rfl

theorem mbyteLo_eq_fourPairs (b : Byte) : mbyteLo b = fourPairs fun i => bitOf b (4 + i) := rfl

theorem fourPairs_extractLsb' (f : Nat → Bool) {i : Nat} (hi : i < 4) :
    (fourPairs f).extractLsb' (6 - 2 * i) 2 = pair (f i) := by
  have h : ∀ a b c d : Bool,
      BitVec.extractLsb' 6 2 (pair a ++ pair b ++ pair c ++ pair d) = pair a ∧
      BitVec.extractLsb' 4 2 (pair a ++ pair b ++ pair c ++ pair d) = pair b ∧
      BitVec.extractLsb' 2 2 (pair a ++ pair b ++ pair c ++ pair d) = pair c ∧
      BitVec.extractLsb' 0 2 (pair a ++ pair b ++ pair c ++ pair d) = pair d := by decide
  obtain ⟨h0, h1, h2, h3⟩ := h (f 0) (f 1) (f 2) (f 3)
  match i with
  | 0 => exact h0
  | 1 => exact h1
  | 2 => exact h2
  | 3 => exact h3

/-- Each pair has one 1 bit (R125). -/
theorem popcount_fourPairs (f : Nat → Bool) : popcount (fourPairs f) = 4 := by
  have h : ∀ a b c d : Bool, popcount (pair a ++ pair b ++ pair c ++ pair d) = 4 := by decide
  exact h _ _ _ _

theorem pairAt_append_fst (b0 b1 : Byte) {j : Nat} (hj : j < 4) :
    pairAt (b0 ++ b1) j = b0.extractLsb' (6 - 2 * j) 2 := by
  have hplace : 14 - 2 * j - 8 = 6 - 2 * j := by omega
  rw [pairAt, BitVec.extractLsb'_append_eq_of_le (by omega), hplace]

theorem pairAt_append_snd (b0 b1 : Byte) {j : Nat} (hj : j < 4) :
    pairAt (b0 ++ b1) (4 + j) = b1.extractLsb' (6 - 2 * j) 2 := by
  have hplace : 14 - 2 * (4 + j) = 6 - 2 * j := by omega
  rw [pairAt, BitVec.extractLsb'_append_eq_of_add_le (by omega), hplace]

/-- Pair `j` of the two bytes MENC makes of `b` stands for bit `j` of `b` (R120, R121). -/
theorem pairAt_mbytes (b : Byte) {j : Nat} (hj : j < 8) : pairAt (mbyteHi b ++ mbyteLo b) j = pair (bitOf b j) := by
  by_cases h : j < 4
  · rw [pairAt_append_fst _ _ h, mbyteHi_eq_fourPairs, fourPairs_extractLsb' _ h]
  · obtain ⟨i, rfl⟩ := Nat.exists_eq_add_of_le (not_lt.1 h)
    have hi : i < 4 := by omega
    rw [pairAt_append_snd _ _ hi, mbyteLo_eq_fourPairs, fourPairs_extractLsb' _ hi]

/-- Bit `i` of two bytes, from the most significant one, lies in byte `i / 8`. -/
theorem append_getLsbD (b : Nat → Byte) {i : Nat} (hi : i < 16) :
    (b 0 ++ b 1).getLsbD (15 - i) = bitOf (b (i / 8)) (i % 8) := by
  rw [BitVec.getLsbD_append, bitOf]
  rcases (by omega : i / 8 = 0 ∨ i / 8 = 1) with h | h
  · rw [h, if_neg (by omega)]
    congr 1
    omega
  · rw [h, if_pos (by omega)]
    congr 1
    omega

/-- Pair `j` of two bytes is their bits `2j` and `2j + 1` (R122). -/
theorem pairAt_getLsbD (b : Nat → Byte) {j d : Nat} (hj : j < 8) (hd : d < 2) :
    (pairAt (b 0 ++ b 1) j).getLsbD (1 - d) = bitOf (b ((2 * j + d) / 8)) ((2 * j + d) % 8) := by
  have hplace : 14 - 2 * j + (1 - d) = 15 - (2 * j + d) := by omega
  rw [pairAt, BitVec.getLsbD_extractLsb', decide_eq_true (by omega), Bool.true_and, hplace, append_getLsbD b (by omega)]

/-! ### UNPAIR (R122) -/

/-- The table of UNPAIR by the two bits of the pair. -/
theorem unpairBit_eq (p : Params) (v : BitVec 2) : unpairBit p v =
    bif v.getLsbD 1 then (bif v.getLsbD 0 then p.m11 else false) else (bif v.getLsbD 0 then true else p.m00) := by
  match v with
  | 0 | 1 | 2 | 3 => rfl

/-- A pair is invalid exactly when its two bits are equal. -/
theorem not_pairValid_eq (v : BitVec 2) : (!pairValid v) = (v.getLsbD 1 == v.getLsbD 0) := by
  match v with
  | 0 | 1 | 2 | 3 => rfl

theorem unpairBit_pair (p : Params) (b : Bool) : unpairBit p (pair b) = b := by cases b <;> rfl

theorem pairValid_pair (b : Bool) : pairValid (pair b) = true := by cases b <;> rfl

theorem bitOf_withBit (b : Byte) (v : Bool) {i j : Nat} (hi : i < 8) (hj : j < 8) :
    bitOf (withBit b j v) i = if i = j then v else bitOf b i := by
  have hin : 7 - i < 8 := by omega
  by_cases h : i = j
  · subst h
    cases v <;> simp [bitOf, withBit, ← BitVec.twoPow_eq, hin]
  · have hplace : 7 - i ≠ 7 - j := by omega
    cases v <;> simp [bitOf, withBit, ← BitVec.twoPow_eq, hin, hplace, h]

theorem bitOf_foldl_withBit (f : Nat → Bool) (b : Byte) {n i : Nat} (hn : n ≤ 8) (hi : i < 8) :
    bitOf ((List.range n).foldl (fun b j => withBit b j (f j)) b) i = if i < n then f i else bitOf b i := by
  induction n with
  | zero => rfl
  | succ n ih =>
    rw [List.range_succ, List.foldl_concat, bitOf_withBit _ _ hi hn, ih (by omega)]
    by_cases h : i = n
    · rw [if_pos h, if_pos (by omega), h]
    · have hlt : i < n + 1 ↔ i < n := by omega
      simp only [if_neg h, hlt]

/-- Bit `j` of the byte MDEC makes of two bytes comes from their pair `j`. -/
theorem bitOf_unpairByte (p : Params) (v : BitVec 16) {j : Nat} (hj : j < 8) :
    bitOf (unpairByte p v) j = unpairBit p (pairAt v j) :=
  (bitOf_foldl_withBit (fun j => unpairBit p (pairAt v j)) 0#8 le_rfl hj).trans (if_pos hj)

theorem eq_of_bitOf_eq {b c : Byte} (h : ∀ j, j < 8 → bitOf b j = bitOf c j) : b = c := by
  refine BitVec.eq_of_getLsbD_eq fun i hi => ?_
  have hbit := h (7 - i) (by omega)
  rwa [bitOf, bitOf, Nat.sub_sub_self (by omega)] at hbit

/-! ### The loops of MENC and MDEC -/

theorem unpairByte_mbytes (p : Params) (b : Byte) : unpairByte p (mbyteHi b ++ mbyteLo b) = b := by
  refine eq_of_bitOf_eq fun j hj => ?_
  rw [bitOf_unpairByte p _ hj, pairAt_mbytes b hj, unpairBit_pair]

theorem badPairs_mbytes (b : Byte) : badPairs (mbyteHi b ++ mbyteLo b) = 0 := by
  refine List.countP_eq_zero.2 fun j hj => ?_
  rw [pairAt_mbytes b (List.mem_range.1 hj), pairValid_pair]
  exact Bool.false_ne_true

/-- MDEC's loop undoes MENC's and meets no invalid pair (R124). -/
theorem lineDecode_lineEncode (p : Params) (bs : List Byte) : lineDecode p (lineEncode bs) = (bs, 0) := by
  induction bs with
  | nil => rfl
  | cons b bs ih =>
    rw [lineEncode, lineDecode, ih, unpairByte_mbytes, badPairs_mbytes]
    rfl

/-- MDEC looks at no parameter but `M00` and `M11` (R126). -/
theorem lineDecode_congr {p q : Params} (h0 : p.m00 = q.m00) (h1 : p.m11 = q.m11) (bs : List Byte) :
    lineDecode p bs = lineDecode q bs := by
  have hbit : unpairBit p = unpairBit q := funext fun v => by rw [unpairBit_eq, unpairBit_eq, h0, h1]
  have hbyte : unpairByte p = unpairByte q := funext fun v => by rw [unpairByte, unpairByte, hbit]
  induction bs using lineDecode.induct p with
  | case1 b0 b1 rest ih => rw [lineDecode, lineDecode, ih, hbyte]
  | case2 bs h => rw [lineDecode, lineDecode] <;> exact h

end Sys2Proof.Codec
end

section
/-! The pairs of a memory (41_line_code.md R122): the bits they are, and what the loops of MENC and MDEC make of them. -/

namespace Sys2Proof.Machine.Memory

/-- The 16-bit group `k` of the bytes at `a` (R122). -/
def groupAt (m : Memory) (a k : Nat) : BitVec 16 := m.read (a + 2 * k) ++ m.read (a + 2 * k + 1)

/-- Pair `i` of the bytes at `a`: each group holds eight (R122). -/
def pairAt (m : Memory) (a i : Nat) : BitVec 2 := Codec.pairAt (m.groupAt a (i / 8)) (i % 8)

theorem groupAt_succ (m : Memory) (a k : Nat) : m.groupAt a (k + 1) = m.groupAt (a + 2) k := by
  have hplace : a + 2 * (k + 1) = a + 2 + 2 * k := by omega
  rw [groupAt, groupAt, hplace]

theorem pairAt_add_eight (m : Memory) (a i : Nat) : m.pairAt a (8 + i) = m.pairAt (a + 2) i := by
  have hgroup : (8 + i) / 8 = i / 8 + 1 := by omega
  rw [pairAt, pairAt, hgroup, Nat.add_mod_left, groupAt_succ]

/-- Pair `i` is the bits `2i` and `2i + 1`. -/
theorem pairAt_getLsbD (m : Memory) (a i : Nat) {d : Nat} (hd : d < 2) :
    (m.pairAt a i).getLsbD (1 - d) = m.bitAt a (2 * i + d) := by
  have hbyte : a + (2 * i + d) / 8 = a + 2 * (i / 8) + (2 * (i % 8) + d) / 8 := by omega
  have hbit : (2 * i + d) % 8 = (2 * (i % 8) + d) % 8 := by omega
  rw [bitAt, hbyte, hbit]
  exact Codec.pairAt_getLsbD (fun k => m.read (a + 2 * (i / 8) + k)) (Nat.mod_lt _ (by decide)) hd

/-! ### The loop of MENC (R121) -/

theorem lineEncode_readBytes (m : Memory) (a n : Nat) : Codec.lineEncode (m.readBytes a n) =
    (List.range n).flatMap fun k => [Codec.mbyteHi (m.read (a + k)), Codec.mbyteLo (m.read (a + k))] := by
  rw [readBytes]
  induction List.range n with
  | nil => rfl
  | cons k l ih => rw [List.map_cons, Codec.lineEncode, ih, List.flatMap_cons]; rfl

/-! ### The loop of MDEC (R122, R123) -/

theorem badPairs_groupAt (m : Memory) (a : Nat) :
    Codec.badPairs (m.groupAt a 0) = (List.range 8).countP fun i => !Codec.pairValid (m.pairAt a i) := by
  refine List.countP_congr fun i hi => ?_
  have hi : i < 8 := List.mem_range.1 hi
  rw [pairAt, Nat.div_eq_of_lt hi, Nat.mod_eq_of_lt hi]

/-- MDEC's loop gives a byte for each group, and counts the invalid pairs of all of them. -/
theorem lineDecode_readBytes (p : Params) (m : Memory) (a n : Nat) : Codec.lineDecode p (m.readBytes a (2 * n)) =
    ((List.range n).map fun k => Codec.unpairByte p (m.groupAt a k),
      (List.range (8 * n)).countP fun i => !Codec.pairValid (m.pairAt a i)) := by
  induction n generalizing a with
  | zero => rfl
  | succ n ih =>
    have hround : Codec.lineDecode p (m.readBytes a 2 ++ m.readBytes (a + 2) (2 * n)) =
        (Codec.unpairByte p (m.groupAt a 0) :: (Codec.lineDecode p (m.readBytes (a + 2) (2 * n))).1,
          Codec.badPairs (m.groupAt a 0) + (Codec.lineDecode p (m.readBytes (a + 2) (2 * n))).2) := rfl
    rw [Nat.mul_succ, Nat.mul_succ, Nat.add_comm, Nat.add_comm (8 * n), readBytes_add, hround, ih]
    refine Prod.ext ?_ ?_ <;> dsimp only
    · simp only [List.range_succ_eq_map, List.map_cons, List.map_map, Function.comp_def, Nat.succ_eq_add_one, groupAt_succ]
    · rw [badPairs_groupAt, List.range_add (n := 8), List.countP_append, List.countP_map]
      simp only [Function.comp_def, pairAt_add_eight]

end Sys2Proof.Machine.Memory
end

section
/-! MENC and MDEC as commands (41_line_code.md R121 to R126). -/

namespace Sys2Proof.Machine

variable {s t : State}

/-! ### The checks -/

theorem mencChecks_of_length (h : s.x3 = 2 * s.x2) :
    firstFailure (commandChecks .menc s) = firstFailure (bufferChecks s.cfg s.x0 s.x2 s.x1 s.x3) := by
  simp [commandChecks, mencChecks, h]

theorem mencChecks_of_bad_length (h : s.x3 ≠ 2 * s.x2) :
    firstFailure (commandChecks .menc s) = some ⟨true, .manchLen, s.x3⟩ := by
  simp [commandChecks, mencChecks, h]

theorem mdecChecks_of_length (h : s.x2 = 2 * s.x3) :
    firstFailure (commandChecks .mdec s) = firstFailure (bufferChecks s.cfg s.x0 s.x2 s.x1 s.x3) := by
  simp [commandChecks, mdecChecks, h]

theorem mdecChecks_of_bad_length (h : s.x2 ≠ 2 * s.x3) :
    firstFailure (commandChecks .mdec s) = some ⟨true, .manchLen, s.x3⟩ := by
  simp [commandChecks, mdecChecks, h]

/-- Settles O33: each clause names the first check of the command that fails. -/
theorem lineCodeFaultOrder : Obligations.LineCodeFaultOrder := fun _ hf =>
  ⟨fun h => exec_fail hf (mencChecks_of_bad_length h),
    fun h hr => exec_fail hf ((mencChecks_of_length h).trans (bufferChecks_source _ _ hr)),
    fun h hr hw => exec_fail hf ((mencChecks_of_length h).trans (bufferChecks_dest hr hw)),
    fun h hr hw ho => exec_fail hf ((mencChecks_of_length h).trans (bufferChecks_overlap hr hw ho)),
    fun h => exec_fail hf (mdecChecks_of_bad_length h),
    fun h hr => exec_fail hf ((mdecChecks_of_length h).trans (bufferChecks_source _ _ hr)),
    fun h hr hw => exec_fail hf ((mdecChecks_of_length h).trans (bufferChecks_dest hr hw)),
    fun h hr hw ho => exec_fail hf ((mdecChecks_of_length h).trans (bufferChecks_overlap hr hw ho))⟩

/-! ### MENC -/

theorem exec_menc (hf : s.faulted = false) (h2 : s.x3 = 2 * s.x2) (hb : s.BuffersOk s.x2 s.x3) :
    exec .menc s = .next (mencEffect s) :=
  exec_pass hf ((mencChecks_of_length h2).trans ((bufferChecks_pass _ _ _ _ _).2 hb))

/-- MENC writes the two bytes of input byte `k` as group `k` of its output (R121). -/
theorem mencEffect_read {k : Nat} (hk : k < s.x2) :
    (mencEffect s).mem.read (s.x1 + 2 * k) = Codec.mbyteHi (s.mem.read (s.x0 + k)) ∧
    (mencEffect s).mem.read (s.x1 + 2 * k + 1) = Codec.mbyteLo (s.mem.read (s.x0 + k)) := by
  have hgroup : (mencEffect s).mem.readBytes (s.x1 + 2 * k) 2 =
      [Codec.mbyteHi (s.mem.read (s.x0 + k)), Codec.mbyteLo (s.mem.read (s.x0 + k))] := by
    rw [mencEffect, State.setMem_mem, Memory.lineEncode_readBytes]
    exact Memory.readBytes_writeBytes_flatMap _ _ _ (fun _ => rfl) hk
  obtain ⟨hhi, htail⟩ := List.cons.inj hgroup
  exact ⟨hhi, (List.cons.inj htail).1⟩

/-- Pair `i` of MENC's output stands for bit `i` of its input (R120). -/
theorem mencEffect_pairAt {i : Nat} (hi : i < 8 * s.x2) :
    (mencEffect s).mem.pairAt s.x1 i = Codec.pair (s.mem.bitAt s.x0 i) := by
  obtain ⟨hhi, hlo⟩ := mencEffect_read (s := s) (k := i / 8) (by omega)
  rw [Memory.pairAt, Memory.groupAt, hhi, hlo, Codec.pairAt_mbytes _ (Nat.mod_lt _ (by decide))]
  rfl

theorem mencEffect_bitAt {i : Nat} (hi : i < 8 * s.x2) :
    (mencEffect s).mem.bitAt s.x1 (2 * i) = !s.mem.bitAt s.x0 i ∧
    (mencEffect s).mem.bitAt s.x1 (2 * i + 1) = s.mem.bitAt s.x0 i := by
  have h0 := Memory.pairAt_getLsbD (mencEffect s).mem s.x1 i (d := 0) (by decide)
  have h1 := Memory.pairAt_getLsbD (mencEffect s).mem s.x1 i (d := 1) (by decide)
  rw [mencEffect_pairAt hi] at h0 h1
  exact ⟨h0.symm.trans (Codec.pair_getLsbD_one _), h1.symm.trans (Codec.pair_getLsbD_zero _)⟩

theorem mencEffect_read_outside (h2 : s.x3 = 2 * s.x2) {a : Nat} (ha : a < s.x1 ∨ s.x1 + s.x3 ≤ a) :
    (mencEffect s).mem.read a = s.mem.read a := by
  refine Memory.read_writeBytes_outside _ _ _ _ ?_
  rwa [Codec.lineEncode_length, Memory.readBytes_length, ← h2]

/-- Settles O28: pair `i` of the output is the pair of input bit `i`. -/
theorem mencWritesPairs : Obligations.MencWritesPairs := fun s hf h2 hb =>
  ⟨mencEffect s, exec_menc hf h2 hb, rfl, fun _ hi => mencEffect_bitAt hi, fun _ ha => mencEffect_read_outside h2 ha⟩

/-- Every byte MENC writes is four pairs (R120). -/
theorem mencEffect_read_eq_fourPairs {j : Nat} (hj : j < 2 * s.x2) :
    ∃ f, (mencEffect s).mem.read (s.x1 + j) = Codec.fourPairs f := by
  obtain ⟨k, rfl | rfl⟩ : ∃ k, j = 2 * k ∨ j = 2 * k + 1 := ⟨j / 2, by omega⟩
  · exact ⟨_, (mencEffect_read (by omega)).1.trans (Codec.mbyteHi_eq_fourPairs _)⟩
  · exact ⟨_, (mencEffect_read (by omega)).2.trans (Codec.mbyteLo_eq_fourPairs _)⟩

/-- The two bits of a pair differ (R125). -/
theorem mencEffect_bitAt_ne {i : Nat} (hi : i < 8 * s.x2) :
    (mencEffect s).mem.bitAt s.x1 (2 * i) ≠ (mencEffect s).mem.bitAt s.x1 (2 * i + 1) := by
  obtain ⟨h0, h1⟩ := mencEffect_bitAt hi
  rw [h0, h1]
  exact Bool.not_ne_self _

/-- Settles O31: a byte of four pairs has four 1 bits, and three bits in a row hold a whole pair. -/
theorem mencTransitionDensity : Obligations.MencTransitionDensity := by
  intro s t hf h2 hb ht
  cases (exec_menc hf h2 hb).symm.trans ht
  constructor
  · intro j hj
    obtain ⟨f, hbyte⟩ := mencEffect_read_eq_fourPairs (s := s) (j := j) (by omega)
    have hpop := Codec.popcount_fourPairs f
    rw [← hbyte] at hpop
    refine ⟨hpop, fun h => ?_, fun h => ?_⟩ <;>
    · rw [h] at hpop
      exact absurd hpop (by decide)
  · rintro i hi ⟨h01, h12⟩
    obtain ⟨q, rfl | rfl⟩ : ∃ q, i = 2 * q ∨ i = 2 * q + 1 := ⟨i / 2, by omega⟩
    · exact mencEffect_bitAt_ne (by omega) h01
    · exact mencEffect_bitAt_ne (i := q + 1) (by omega) h12

/-! ### MDEC -/

theorem exec_mdec (hf : s.faulted = false) (h2 : s.x2 = 2 * s.x3) (hb : s.BuffersOk s.x2 s.x3) :
    exec .mdec s = .next (mdecEffect s) :=
  exec_pass hf ((mdecChecks_of_length h2).trans ((bufferChecks_pass _ _ _ _ _).2 hb))

/-- MDEC writes the byte of group `k` of its input as byte `k` of its output (R122). -/
theorem mdecEffect_read (h2 : s.x2 = 2 * s.x3) {k : Nat} (hk : k < s.x3) :
    (mdecEffect s).mem.read (s.x1 + k) = Codec.unpairByte s.cfg (s.mem.groupAt s.x0 k) := by
  rw [mdecEffect, State.setDiag_mem, State.setMem_mem, h2, Memory.lineDecode_readBytes, Memory.read_writeBytes,
    if_pos (by simpa using hk)]
  simp [List.getD_eq_getElem?_getD, hk]

/-- Bit `i` of MDEC's output comes from pair `i` of its input (R122). -/
theorem mdecEffect_bitAt (h2 : s.x2 = 2 * s.x3) {i : Nat} (hi : i < 8 * s.x3) :
    (mdecEffect s).mem.bitAt s.x1 i = Codec.unpairBit s.cfg (s.mem.pairAt s.x0 i) := by
  rw [Memory.bitAt, mdecEffect_read h2 (by omega), Codec.bitOf_unpairByte _ _ (Nat.mod_lt _ (by decide)), Memory.pairAt]

theorem mdecEffect_diag (h2 : s.x2 = 2 * s.x3) : (mdecEffect s).diag =
    BitVec.ofNat 32 ((List.range (8 * s.x3)).countP fun i => !Codec.pairValid (s.mem.pairAt s.x0 i)) := by
  rw [mdecEffect, State.setDiag_diag, h2, Memory.lineDecode_readBytes]
  rfl

theorem mdecEffect_read_outside (h2 : s.x2 = 2 * s.x3) {a : Nat} (ha : a < s.x1 ∨ s.x1 + s.x3 ≤ a) :
    (mdecEffect s).mem.read a = s.mem.read a := by
  refine Memory.read_writeBytes_outside _ _ _ _ ?_
  rw [Codec.lineDecode_length, Memory.readBytes_length]
  omega

/-- Settles O29: MDEC decodes pair by pair, and an invalid pair is one of two equal bits. -/
theorem mdecWritesBits : Obligations.MdecWritesBits := by
  intro s hf h2 hb
  have hfst : ∀ i, (s.mem.pairAt s.x0 i).getLsbD 1 = s.mem.bitAt s.x0 (2 * i) :=
    fun i => Memory.pairAt_getLsbD _ _ i (d := 0) (by decide)
  have hsnd : ∀ i, (s.mem.pairAt s.x0 i).getLsbD 0 = s.mem.bitAt s.x0 (2 * i + 1) :=
    fun i => Memory.pairAt_getLsbD _ _ i (d := 1) (by decide)
  refine ⟨mdecEffect s, exec_mdec hf h2 hb, rfl, fun i hi => ?_, ?_, fun a ha => mdecEffect_read_outside h2 ha⟩
  · rw [mdecEffect_bitAt h2 hi, Codec.unpairBit_eq, hfst, hsnd]
    cases s.mem.bitAt s.x0 (2 * i) <;> cases s.mem.bitAt s.x0 (2 * i + 1) <;> rfl
  · simp only [mdecEffect_diag h2, Codec.not_pairValid_eq, hfst, hsnd]

/-! ### MENC and then MDEC -/

theorem mencEffect_readBytes :
    (mencEffect s).mem.readBytes s.x1 (2 * s.x2) = Codec.lineEncode (s.mem.readBytes s.x0 s.x2) := by
  have hlen : 2 * s.x2 = (Codec.lineEncode (s.mem.readBytes s.x0 s.x2)).length := by
    rw [Codec.lineEncode_length, Memory.readBytes_length]
  rw [hlen]
  exact Memory.readBytes_writeBytes _ _ _

/-- The line MENC leaves the encoded bytes at its destination (R121). -/
theorem takeAll_mencLine {a b n m : Word} (hf : s.faulted = false) (hm : m.toNat = 2 * n.toNat)
    (ha : rangeOk s.cfg a.toNat n.toNat = true) (hb : rangeOk s.cfg b.toNat (2 * n.toNat) = true)
    (hab : overlap a.toNat n.toNat b.toNat (2 * n.toNat) = false) :
    ∃ t, takeAll (commandLine .menc [a, b, n, m]) s = .next t ∧ t.faulted = false ∧ t.cfg = s.cfg ∧
      t.mem.readBytes b.toNat (2 * n.toNat) = Codec.lineEncode (s.mem.readBytes a.toNat n.toNat) := by
  rw [← hm] at hb hab
  exact ⟨_, takeAll_commandLine_next (by simp) (exec_menc (s := s.withArgs [a, b, n, m]) hf hm ⟨ha, hb, hab⟩) rfl, hf,
    rfl, mencEffect_readBytes (s := s.withArgs [a, b, n, m])⟩

/-- MDEC of encoded bytes gives the bytes back and meets no invalid pair (R124). -/
theorem mdecEffect_of_encoded {bs : List Byte} (henc : s.mem.readBytes s.x0 s.x2 = Codec.lineEncode bs) :
    (mdecEffect s).mem.readBytes s.x1 bs.length = bs ∧ (mdecEffect s).diag = 0 := by
  rw [mdecEffect, henc, Codec.lineDecode_lineEncode]
  exact ⟨Memory.readBytes_writeBytes _ _ _, rfl⟩

/-- The line MDEC leaves the `n` bytes that were encoded at its destination. -/
theorem takeAll_mdecLine {b c m n : Word} {bs : List Byte} (hf : s.faulted = false) (hlen : bs.length = n.toNat)
    (hm : m.toNat = 2 * n.toNat) (hb : rangeOk s.cfg b.toNat (2 * n.toNat) = true)
    (hc : rangeOk s.cfg c.toNat n.toNat = true) (hbc : overlap b.toNat (2 * n.toNat) c.toNat n.toNat = false)
    (henc : s.mem.readBytes b.toNat (2 * n.toNat) = Codec.lineEncode bs) :
    ∃ t, takeAll (commandLine .mdec [b, c, m, n]) s = .next t ∧ t.faulted = false ∧
      t.mem.readBytes c.toNat n.toNat = bs ∧ t.diag = 0 := by
  rw [← hm] at hb hbc henc
  rw [← hlen]
  exact ⟨_, takeAll_commandLine_next (by simp) (exec_mdec (s := s.withArgs [b, c, m, n]) hf hm ⟨hb, hc, hbc⟩) rfl, hf,
    mdecEffect_of_encoded (s := s.withArgs [b, c, m, n]) henc⟩

/-- Settles O30: the line MDEC reads the bytes the line MENC wrote, and MDEC's loop undoes MENC's. -/
theorem mencMdecRoundTrip : Obligations.MencMdecRoundTrip := by
  intro s a b c n hf hn ha hb hc hab hbc
  have htwo : (2 * n).toNat = 2 * n.toNat := (BitVec.toNat_mul _ _).trans (Nat.mod_eq_of_lt hn)
  obtain ⟨u, henc, hfu, hcfg, hbytes⟩ := takeAll_mencLine hf htwo ha hb hab
  rw [← hcfg] at hb hc
  obtain ⟨t, hdec, hrest⟩ := takeAll_mdecLine hfu (Memory.readBytes_length _ _ _) htwo hb hc hbc hbytes
  exact ⟨t, (takeAll_append_next henc _).trans hdec, hrest⟩

/-! ### No code table and no queue state (R126) -/

/-- Two runs of one command whose checks agree take the same fault, or both take their effect. -/
theorem exec_two_runs {i : Instr} {s s' t t' : State} (hf : s.faulted = false) (hf' : s'.faulted = false)
    (hc : commandChecks i s' = commandChecks i s) (ht : exec i s = .next t) (ht' : exec i s' = .next t') :
    (∃ c : Check, t = s.latch c.cause i.opcode c.info ∧ t' = s'.latch c.cause i.opcode c.info) ∨
      t = commandEffect i s ∧ t' = commandEffect i s' := by
  rw [exec_eq] at ht ht'
  cases hcheck : firstFailure (commandChecks i s) with
  | some c =>
    cases (perform_fail _ _ _ s c hf hcheck).symm.trans ht
    cases (perform_fail _ _ _ s' c hf' (hc ▸ hcheck)).symm.trans ht'
    exact .inl ⟨c, rfl, rfl⟩
  | none =>
    cases (perform_pass _ _ _ s hf hcheck).symm.trans ht
    cases (perform_pass _ _ _ s' hf' (hc ▸ hcheck)).symm.trans ht'
    exact .inr ⟨rfl, rfl⟩

/-- Settles O32: neither the checks nor the loops look at the generator, SHM, ICUR, RESULT or DIAG. -/
theorem lineCodeIndependentOfBlockCode : Obligations.LineCodeIndependentOfBlockCode := by
  intro s t t' gen shm icur result diag hf s'
  have hf' : s'.faulted = false := hf
  constructor <;> intro ht ht'
  · obtain ⟨c, rfl, rfl⟩ | ⟨rfl, rfl⟩ := exec_two_runs hf hf' rfl ht ht' <;> exact ⟨rfl, rfl, rfl⟩
  · obtain ⟨c, rfl, rfl⟩ | ⟨rfl, rfl⟩ := exec_two_runs hf hf' rfl ht ht'
    · exact ⟨rfl, rfl, rfl, fun h => absurd h (by simp)⟩
    · have hdec : Codec.lineDecode s'.cfg (s.mem.readBytes s.x0 s.x2) =
          Codec.lineDecode s.cfg (s.mem.readBytes s.x0 s.x2) :=
        Codec.lineDecode_congr (p := s'.cfg) (q := s.cfg) rfl rfl _
      have hmem : (mdecEffect s').mem = (mdecEffect s).mem :=
        congrArg (fun out : List Byte × Nat => s.mem.writeBytes s.x1 out.1) hdec
      have hdiag : (mdecEffect s').diag = (mdecEffect s).diag :=
        congrArg (fun out : List Byte × Nat => wrap32 out.2) hdec
      exact ⟨hmem, rfl, rfl, fun _ => hdiag⟩

end Sys2Proof.Machine
end

section
/-! The framer: PKT and DEPKT as commands (42_framer.md R140 to R144). -/

namespace Sys2Proof.Machine

/-! ### The parts of a frame -/

theorem Memory.read_of_readBytes {m : Memory} {a n k : Nat} {bs : List Byte} (h : m.readBytes a n = bs) (hk : k < n) :
    m.read (a + k) = bs.getD k 0 := by
  rw [← h, Memory.readBytes_getD _ _ _ _ _ hk]

/-- The payload of a bit length that fits has at most `N` bytes (42_framer.md R144). -/
theorem ceil8_le {b n : Nat} (h : b ≤ 8 * n) : Codec.ceil8 b ≤ n := by
  rw [Codec.ceil8]
  omega

variable {s t : State}

/-- The header is the little-endian number of the frame's first two bytes (R140). -/
theorem State.frameHeader_eq (s : State) :
    s.frameHeader = (s.mem.read s.x0).toNat + 256 * (s.mem.read (s.x0 + 1)).toNat := rfl

/-! ### The checks -/

theorem pktChecks_of_length (h : s.x2 ≤ 8 * s.cfg.n) : firstFailure (commandChecks .pkt s) =
    firstFailure (bufferChecks s.cfg s.x0 (Codec.ceil8 s.x2) s.x1 s.cfg.frame) := by
  simp [commandChecks, pktChecks, h]

theorem pktChecks_of_bad_length (h : 8 * s.cfg.n < s.x2) :
    firstFailure (commandChecks .pkt s) = some ⟨true, .bitlen, s.x2⟩ := by
  simp [commandChecks, pktChecks, h]

theorem depktChecks_of_bad_frame (h : rangeOk s.cfg s.x0 s.cfg.frame = false) :
    firstFailure (commandChecks .depkt s) = some ⟨true, .memRange, s.x0⟩ := by
  simp [commandChecks, depktChecks, h]

theorem depktChecks_of_bad_header (hr : rangeOk s.cfg s.x0 s.cfg.frame = true) (h : 8 * s.cfg.n < s.frameHeader) :
    firstFailure (commandChecks .depkt s) = some ⟨true, .hdrBitlen, s.frameHeader⟩ := by
  simp [commandChecks, depktChecks, hr, h]

/-- With the frame in range and its header a bit length that fits, the buffer checks are left (R142). -/
theorem depktChecks_of_header (hr : rangeOk s.cfg s.x0 s.cfg.frame = true) (h : s.frameHeader ≤ 8 * s.cfg.n) :
    firstFailure (commandChecks .depkt s) =
      firstFailure (bufferChecks s.cfg s.x0 s.cfg.frame s.x1 (Codec.ceil8 s.frameHeader)) := by
  simp [commandChecks, depktChecks, bufferChecks, hr, h]

/-- Settles O37: each clause names the first check of the command that fails. -/
theorem framerFaultOrder : Obligations.FramerFaultOrder := by
  intro s h nb hf hh hnb
  obtain rfl : h = s.frameHeader := hh
  obtain rfl : nb = Codec.ceil8 s.x2 := hnb
  exact ⟨fun hlen => exec_fail hf (pktChecks_of_bad_length hlen),
    fun hlen hr => exec_fail hf ((pktChecks_of_length hlen).trans (bufferChecks_source _ _ hr)),
    fun hlen hr hw => exec_fail hf ((pktChecks_of_length hlen).trans (bufferChecks_dest hr hw)),
    fun hlen hr hw ho => exec_fail hf ((pktChecks_of_length hlen).trans (bufferChecks_overlap hr hw ho)),
    fun hr => exec_fail hf (depktChecks_of_bad_frame hr),
    fun hr hhdr => exec_fail hf (depktChecks_of_bad_header hr hhdr),
    fun hr hhdr hw => exec_fail hf ((depktChecks_of_header hr hhdr).trans (bufferChecks_dest hr hw)),
    fun hr hhdr hw ho => exec_fail hf ((depktChecks_of_header hr hhdr).trans (bufferChecks_overlap hr hw ho))⟩

/-! ### PKT -/

theorem exec_pkt (hf : s.faulted = false) (hlen : s.x2 ≤ 8 * s.cfg.n)
    (hb : s.BuffersOk (Codec.ceil8 s.x2) s.cfg.frame) : exec .pkt s = .next (pktEffect s) :=
  exec_pass hf ((pktChecks_of_length hlen).trans ((bufferChecks_pass _ _ _ _ _).2 hb))

/-- PKT writes the bit length as the header (R140). -/
theorem pktEffect_header : (pktEffect s).mem.readBytes s.x1 2 = Codec.toLE 2 s.x2 := by
  rw [pktEffect, State.setMem_mem, frameBytes, List.append_assoc]
  exact Memory.readBytes_writeBytes_middle _ _ [] (Codec.toLE 2 s.x2) _

/-- PKT copies the whole data bytes behind the header (R141, R144). -/
theorem pktEffect_payload : (pktEffect s).mem.readBytes (s.x1 + 2) (Codec.ceil8 s.x2) =
    s.mem.readBytes s.x0 (Codec.ceil8 s.x2) := by
  have h := Memory.readBytes_writeBytes_middle s.mem s.x1 (Codec.toLE 2 s.x2)
    (s.mem.readBytes s.x0 (Codec.ceil8 s.x2)) (List.replicate (s.cfg.n - Codec.ceil8 s.x2) 0x00)
  rw [Memory.toLE_length, Memory.readBytes_length] at h
  rw [pktEffect, State.setMem_mem, frameBytes, Memory.readBytes_length, h]

/-- PKT fills the frame with zeros behind the payload (R140). -/
theorem pktEffect_padding :
    (pktEffect s).mem.readBytes (s.x1 + 2 + Codec.ceil8 s.x2) (s.cfg.n - Codec.ceil8 s.x2) =
      List.replicate (s.cfg.n - Codec.ceil8 s.x2) 0x00 := by
  have h := Memory.readBytes_writeBytes_middle s.mem s.x1
    (Codec.toLE 2 s.x2 ++ s.mem.readBytes s.x0 (Codec.ceil8 s.x2))
    (List.replicate (s.cfg.n - Codec.ceil8 s.x2) 0x00) []
  rw [List.append_nil, List.length_append, Memory.toLE_length, Memory.readBytes_length, List.length_replicate,
    ← Nat.add_assoc] at h
  rw [pktEffect, State.setMem_mem, frameBytes, Memory.readBytes_length, h]

theorem pktEffect_read_outside (hlen : s.x2 ≤ 8 * s.cfg.n) {a : Nat} (ha : a < s.x1 ∨ s.x1 + s.cfg.frame ≤ a) :
    (pktEffect s).mem.read a = s.mem.read a := by
  refine Memory.read_writeBytes_outside _ _ _ _ ?_
  rwa [frameBytes_length ((Memory.readBytes_length _ _ _).trans_le (ceil8_le hlen))]

/-- Settles O34: the frame is its header, its payload and its padding, one after another. -/
theorem pktWritesFrame : Obligations.PktWritesFrame := by
  intro s hf hlen hb
  refine ⟨pktEffect s, exec_pkt hf hlen hb, rfl, Memory.read_of_readBytes (k := 0) pktEffect_header (by decide),
    Memory.read_of_readBytes (k := 1) pktEffect_header (by decide), fun j hj => ?_, fun j hj hjn => ?_,
    fun a ha => pktEffect_read_outside hlen ha⟩
  · rw [Memory.read_of_readBytes pktEffect_payload hj, Memory.readBytes_getD _ _ _ _ _ hj]
  · obtain ⟨k, rfl⟩ := Nat.exists_eq_add_of_le hj
    have hk : k < s.cfg.n - Codec.ceil8 s.x2 := by omega
    rw [← Nat.add_assoc, Memory.read_of_readBytes pktEffect_padding hk, List.getD_replicate _ hk]

/-! ### DEPKT -/

theorem exec_depkt (hf : s.faulted = false) (hhdr : s.frameHeader ≤ 8 * s.cfg.n)
    (hb : s.BuffersOk s.cfg.frame (Codec.ceil8 s.frameHeader)) : exec .depkt s = .next (depktEffect s) := by
  have ⟨hr, _⟩ := hb
  exact exec_pass hf ((depktChecks_of_header hr hhdr).trans ((bufferChecks_pass _ _ _ _ _).2 hb))

/-- DEPKT copies the payload's whole bytes to its output (R142). -/
theorem depktEffect_readBytes : (depktEffect s).mem.readBytes s.x1 (Codec.ceil8 s.frameHeader) =
    s.mem.readBytes (s.x0 + 2) (Codec.ceil8 s.frameHeader) := by
  have h := Memory.readBytes_writeBytes s.mem s.x1 (s.mem.readBytes (s.x0 + 2) (Codec.ceil8 s.frameHeader))
  rwa [Memory.readBytes_length] at h

theorem depktEffect_read_outside {a : Nat} (ha : a < s.x1 ∨ s.x1 + Codec.ceil8 s.frameHeader ≤ a) :
    (depktEffect s).mem.read a = s.mem.read a := by
  refine Memory.read_writeBytes_outside _ _ _ _ ?_
  rwa [Memory.readBytes_length]

/-- Settles O35: the output is a copy of the payload, and RESULT the header. -/
theorem depktWritesPayload : Obligations.DepktWritesPayload := by
  intro s h hh hf hr hhdr hw ho
  obtain rfl : h = s.frameHeader := hh
  refine ⟨depktEffect s, exec_depkt hf hhdr ⟨hr, hw, ho⟩, rfl, fun j hj => ?_,
    fun a ha => depktEffect_read_outside ha⟩
  rw [Memory.read_of_readBytes depktEffect_readBytes hj, Memory.readBytes_getD _ _ _ _ _ hj]

/-! ### PKT and then DEPKT -/

/-- The line PKT leaves the bit length and the data bytes in its frame (R141). -/
theorem takeAll_pktLine {d f b : Word} (hf : s.faulted = false) (hlen : b.toNat ≤ 8 * s.cfg.n)
    (hd : rangeOk s.cfg d.toNat (Codec.ceil8 b.toNat) = true) (hfr : rangeOk s.cfg f.toNat s.cfg.frame = true)
    (hdf : overlap d.toNat (Codec.ceil8 b.toNat) f.toNat s.cfg.frame = false) :
    ∃ t, takeAll (commandLine .pkt [d, f, b]) s = .next t ∧ t.faulted = false ∧ t.cfg = s.cfg ∧
      t.mem.readBytes f.toNat 2 = Codec.toLE 2 b.toNat ∧
      t.mem.readBytes (f.toNat + 2) (Codec.ceil8 b.toNat) = s.mem.readBytes d.toNat (Codec.ceil8 b.toNat) :=
  ⟨_, takeAll_commandLine_next (by simp) (exec_pkt (s := s.withArgs [d, f, b]) hf hlen ⟨hd, hfr, hdf⟩) rfl, hf, rfl,
    pktEffect_header (s := s.withArgs [d, f, b]), pktEffect_payload (s := s.withArgs [d, f, b])⟩

/-- The line DEPKT leaves the payload at its destination and returns the header (R142). -/
theorem takeAll_depktLine {f e : Word} {h : Nat} (hf : s.faulted = false)
    (hh : Codec.le (s.mem.readBytes f.toNat 2) = h) (hhdr : h ≤ 8 * s.cfg.n)
    (hfr : rangeOk s.cfg f.toNat s.cfg.frame = true) (he : rangeOk s.cfg e.toNat (Codec.ceil8 h) = true)
    (hfe : overlap f.toNat s.cfg.frame e.toNat (Codec.ceil8 h) = false) :
    ∃ t, takeAll (commandLine .depkt [f, e]) s = .next t ∧ t.faulted = false ∧ t.result = wrap32 h ∧
      t.mem.readBytes e.toNat (Codec.ceil8 h) = s.mem.readBytes (f.toNat + 2) (Codec.ceil8 h) := by
  subst hh
  exact ⟨_, takeAll_commandLine_next (by simp) (exec_depkt (s := s.withArgs [f, e]) hf hhdr ⟨hfr, he, hfe⟩) rfl, hf,
    rfl, depktEffect_readBytes (s := s.withArgs [f, e])⟩

/-- Settles O36: DEPKT reads the header and the payload that PKT wrote; a bit length below 2^16 is its own header. -/
theorem pktDepktRoundTrip : Obligations.PktDepktRoundTrip := by
  intro s d f e b hf hlen hmax hd hfr he hdf hfe
  obtain ⟨u, hpkt, hfu, hcfg, hheader, hpayload⟩ := takeAll_pktLine hf hlen hd hfr hdf
  have hb : Codec.le (u.mem.readBytes f.toNat 2) = b.toNat := by
    rw [hheader, Memory.le_toLE]
    omega
  rw [← hcfg] at hlen hfr he hfe
  obtain ⟨t, hdepkt, hft, hresult, hbytes⟩ := takeAll_depktLine hfu hb hlen hfr he hfe
  refine ⟨t, (takeAll_append_next hpkt _).trans hdepkt, hft, ?_, hbytes.trans hpayload⟩
  rw [hresult, wrap32, BitVec.ofNat_toNat, BitVec.setWidth_eq]

end Sys2Proof.Machine
end

section
/-! What a PRU step inside a command does to one byte or word of SHM, and what is left of one SHM access of the command
once all of them and the PRU's steps have taken place (20_memory.md R54, R57, R60, R61). -/

namespace Sys2Proof.Machine

/-! ### The PRU's writes, seen from one place of SHM -/

@[simp] theorem pruStep_lengthField (a : PruAct) (s : State) : (pruStep a s).lengthField = s.lengthField :=
  Memory.readWord_congr fun x _ hx => pruStep_read_length a s x hx

theorem mem_byteWrites {sched : List MidStep} {off : Nat} {b : Byte} (h : .pru (.writeByte off b) ∈ sched) :
    b ∈ byteWrites off sched := by
  induction sched using byteWrites.induct (off := off) with
  | case1 => cases h
  | case5 c rest ih =>
    rw [byteWrites, if_pos rfl]
    rcases List.mem_cons.1 h with h | h
    · cases h
      exact List.mem_cons_self
    · exact List.mem_cons_of_mem _ (ih h)
  | case6 o c rest hne ih =>
    rw [byteWrites, if_neg hne]
    rcases List.mem_cons.1 h with h | h
    · cases h
      exact absurd rfl hne
    · exact ih h
  | case2 _ rest ih | case3 _ rest ih | case4 _ rest ih =>
    exact ih ((List.mem_cons.1 h).resolve_left nofun)

/-- A byte of DATA after a PRU step is as it was, or as the schedule has the PRU write it. -/
theorem pruStep_read_data {sched : List MidStep} {a : PruAct} (ha : .pru a ∈ sched) (s : State) {x : Nat}
    (hx : dataOff ≤ x) : (pruStep a s).shm.read x = s.shm.read x ∨ (pruStep a s).shm.read x ∈ byteWrites x sched := by
  rcases pruStep_cases a s with h | ⟨v, -, h⟩ | ⟨off, -, -, h⟩ | ⟨off, b, rfl, -, -, -, h⟩ <;> rw [h]
  · exact .inl rfl
  · exact .inl (Memory.read_writeWord_outside _ _ _ _ (.inr hx))
  · exact .inl rfl
  · rcases eq_or_ne x off with rfl | hne
    · exact .inr (by simpa using mem_byteWrites ha)
    · exact .inl (Memory.read_write_other _ _ _ _ hne)

/-- "As it was, or as the schedule has the PRU write it" is kept of a byte of DATA by every further PRU step. -/
theorem pruStep_read_data_keeps {sched : List MidStep} {a : PruAct} (ha : .pru a ∈ sched) {s : State} {x : Nat}
    {b : Byte} (hx : dataOff ≤ x) (h : s.shm.read x = b ∨ s.shm.read x ∈ byteWrites x sched) :
    (pruStep a s).shm.read x = b ∨ (pruStep a s).shm.read x ∈ byteWrites x sched := by
  rcases pruStep_read_data ha s hx with hsame | hwritten
  · rwa [hsame]
  · exact .inr hwritten

/-- While QDIR = TX the PRU writes no byte of DATA (R57). -/
theorem pruStep_read_data_of_tx (a : PruAct) {s : State} (htx : s.cfg.qdir = .tx) {x : Nat} (hx : dataOff ≤ x) :
    (pruStep a s).shm.read x = s.shm.read x := by
  rcases pruStep_cases a s with h | ⟨v, -, h⟩ | ⟨off, -, -, h⟩ | ⟨off, b, -, -, -, hrx, -⟩
  · rw [h]
  · rw [h]
    exact Memory.read_writeWord_outside _ _ _ _ (.inr hx)
  · rw [h]
    rfl
  · rw [htx] at hrx
    cases hrx

/-- HWCUR after a PRU step is as it was, or a whole word that the schedule has the PRU write (R51). -/
theorem pruStep_hwcur {sched : List MidStep} {a : PruAct} (ha : .pru a ∈ sched) (s : State) :
    (pruStep a s).hwcur = s.hwcur ∨ (pruStep a s).hwcur ∈ cursorWrites sched := by
  rcases pruStep_cases a s with h | ⟨v, rfl, h⟩ | ⟨off, -, -, h⟩ | ⟨off, b, -, hoff, -, -, h⟩ <;> rw [h]
  · exact .inl rfl
  · refine .inr ?_
    rw [State.hwcur, State.setShm_shm, Memory.readWord_writeWord_same]
    exact mem_cursorWrites ha
  · exact .inl rfl
  · exact .inl (Memory.readWord_write_outside _ _ (.inr hoff))

/-! ### One access among the others -/

/-- `P` is kept by the PRU steps of the schedule `sched` and by the accesses below `n` other than access `j`. -/
structure KeptAround (access : Nat → State → State) (sched : List MidStep) (n j : Nat) (P : State → Prop) : Prop where
  pru : ∀ a, .pru a ∈ sched → ∀ u, P u → P (pruStep a u)
  other : ∀ k, k < n → k ≠ j → ∀ u, P u → P (access k u)

section

variable {access : Nat → State → State} {sched : List MidStep} {n j : Nat} {B A : State → Prop}

/-- An access keeps "`B` while access `j` is to come, `A` once it has taken place". -/
theorem KeptAround.access_step (hB : KeptAround access sched n j B) (hA : KeptAround access sched n j A)
    (hj : ∀ u, B u → A (access j u)) {todo : List Nat} (hnd : todo.Nodup) (hlt : ∀ k ∈ todo, k < n) {k : Nat}
    (hk : k ∈ todo) {u : State} (h : if j ∈ todo then B u else A u) :
    if j ∈ todo.erase k then B (access k u) else A (access k u) := by
  rcases eq_or_ne k j with rfl | hne
  · rw [if_pos hk] at h
    rw [if_neg hnd.not_mem_erase]
    exact hj u h
  · simp only [List.mem_erase_of_ne hne.symm]
    split at h
    · rw [if_pos ‹_›]
      exact hB.other k (hlt k hk) hne u h
    · rw [if_neg ‹_›]
      exact hA.other k (hlt k hk) hne u h

/-- Once an interleaving is over, every access has taken place, and what it has brought about has been kept since. -/
theorem KeptAround.interleave (hB : KeptAround access sched n j B) (hA : KeptAround access sched n j A)
    (hj : ∀ u, B u → A (access j u)) (l : List MidStep) (hl : ∀ m ∈ l, m ∈ sched) (todo : List Nat) (hnd : todo.Nodup)
    (hlt : ∀ k ∈ todo, k < n) (u : State) (h : if j ∈ todo then B u else A u) : A (interleave access l todo u) := by
  induction l generalizing todo u with
  | nil =>
    induction todo generalizing u with
    | nil =>
      rw [if_neg List.not_mem_nil] at h
      exact h
    | cons k todo ih =>
      have hstep := hB.access_step hA hj hnd hlt List.mem_cons_self h
      rw [List.erase_cons_head] at hstep
      exact ih hnd.of_cons (fun i hi => hlt i (List.mem_cons_of_mem _ hi)) _ hstep
  | cons m l ih =>
    have hl' : ∀ m' ∈ l, m' ∈ sched := fun m' hm => hl m' (List.mem_cons_of_mem _ hm)
    cases m with
    | core k =>
      rw [Machine.interleave]
      split
      · rename_i hk
        exact ih hl' _ (hnd.erase k) (fun i hi => hlt i (List.mem_of_mem_erase hi)) _ (hB.access_step hA hj hnd hlt hk h)
      · exact ih hl' _ hnd hlt _ h
    | pru a =>
      refine ih hl' _ hnd hlt _ ?_
      have ha := hl _ List.mem_cons_self
      split at h
      · rw [if_pos ‹_›]
        exact hB.pru a ha u h
      · rw [if_neg ‹_›]
        exact hA.pru a ha u h

end

/-- Access `j` of a command finds what held before the command and was kept, and what it brings about lasts. -/
theorem shmAccesses_of_access {access : Nat → State → State} {n j : Nat} {B A : State → Prop} {s : State} (hjn : j < n)
    (hB : KeptAround access s.mid n j B) (hA : KeptAround access s.mid n j A) (hj : ∀ u, B u → A (access j u))
    (h : B (s.setMid [])) : A (shmAccesses n access s) :=
  hB.interleave hA hj _ (fun _ hm => hm) _ List.nodup_range (fun _ => List.mem_range.1) _
    (by rwa [if_pos (List.mem_range.2 hjn)])

/-- A command with one access: the access takes place once, somewhere among the PRU's steps. -/
theorem shmAccesses_one {access : Nat → State → State} {B A : State → Prop} {s : State}
    (hB : ∀ a, .pru a ∈ s.mid → ∀ u, B u → B (pruStep a u)) (hA : ∀ a, .pru a ∈ s.mid → ∀ u, A u → A (pruStep a u))
    (hj : ∀ u, B u → A (access 0 u)) (h : B (s.setMid [])) : A (shmAccesses 1 access s) :=
  shmAccesses_of_access Nat.zero_lt_one ⟨hB, fun _ hk hne => absurd (Nat.lt_one_iff.1 hk) hne⟩
    ⟨hA, fun _ hk hne => absurd (Nat.lt_one_iff.1 hk) hne⟩ hj h

/-! ### What SHM accesses leave unchanged -/

/-- Accesses that write the memories and RESULT only leave every other register as it was, and use up the schedule. -/
theorem shmAccesses_frame {access : Nat → State → State} (n : Nat)
    (ha : ∀ k u, access k u =
      { u with result := (access k u).result, mem := (access k u).mem, shm := (access k u).shm }) (s : State) :
    shmAccesses n access s =
      { s with
        result := (shmAccesses n access s).result, mem := (shmAccesses n access s).mem,
        shm := (shmAccesses n access s).shm, mid := [], pruSeen := (shmAccesses n access s).pruSeen } := by
  refine shmAccesses_preserves
    (P := fun u => u = { s with result := u.result, mem := u.mem, shm := u.shm, mid := [], pruSeen := u.pruSeen }) n
    (fun a u hu => ?_) (fun k _ u hu => ?_) s rfl
  · rw [pruStep_frame]
    generalize (pruStep a u).shm = m, (pruStep a u).pruSeen = l
    rw [hu]
  · rw [ha]
    generalize (access k u).result = v, (access k u).mem = m, (access k u).shm = m'
    rw [hu]

/-- A command leaves a byte of SHM alone that neither the core nor its own schedule writes. -/
theorem exec_read_shm_of_not_mem {i : Instr} {s t : State} {x : Nat} (h : exec i s = .next t) (hc : ¬ coreMayWrite i x)
    (hx : x ∉ pruWrites s.mid) : t.shm.read x = s.shm.read x :=
  exec_read_shm h hc fun a ha u => pruStep_read_other a u x fun hw => hx (mem_pruWrites ha hw)

/-- Only PUSH and SETLEN write LENGTH (R57, R62). -/
theorem exec_lengthField {i : Instr} {s t : State} (h : exec i s = .next t) (hi : i ∉ [.push, .setlen]) :
    t.lengthField = s.lengthField :=
  Memory.readWord_congr fun x _ hx =>
    exec_read_shm h (not_coreMayWrite_of_not_mem hi x) fun a _ u => pruStep_read_length a u x hx

end Sys2Proof.Machine
end

section
/-! PUSH, POP, PEEK, PRUCUR, GETLEN and SETLEN as commands (43_bytequeue.md R161 to R166, R170). -/

namespace Sys2Proof.Machine

variable {s : State}

/-! ### The checks -/

theorem pushChecks_of_bad_range (h : rangeOk s.cfg s.x0 s.cfg.qf = false) :
    firstFailure (commandChecks .push s) = some ⟨true, .memRange, s.x0⟩ := by
  simp [commandChecks, pushChecks, h]

theorem popChecks_of_bad_range (h : rangeOk s.cfg s.x0 s.cfg.qf = false) :
    firstFailure (commandChecks .pop s) = some ⟨true, .memRange, s.x0⟩ := by
  simp [commandChecks, popChecks, h]

theorem bitChecks_of_bad_range (h : s.cfg.memSize ≤ s.bitAddr) :
    firstFailure (bitChecks s) = some ⟨true, .memRange, s.bitAddr⟩ := by
  have hr : rangeOk s.cfg s.bitAddr 1 = false := by simp [rangeOk]; omega
  simp [bitChecks, hr]

/-- Settles O51: the range check is the only check of each of the four commands. -/
theorem queueAndBitRangeFaults : Obligations.QueueAndBitRangeFaults := fun _ hf =>
  ⟨fun hr => ⟨exec_fail hf (pushChecks_of_bad_range hr), exec_fail hf (popChecks_of_bad_range hr)⟩,
    fun hb => ⟨exec_fail (i := .bget) hf (bitChecks_of_bad_range hb),
      exec_fail (i := .bset) hf (bitChecks_of_bad_range hb)⟩⟩

/-- The slot at the cursor lies in DATA (10_state.md R37). -/
theorem State.dataOff_le_slot (s : State) (j : Nat) : dataOff ≤ s.slotOff + j :=
  le_trans (Nat.le_add_right _ _) (Nat.le_add_right _ _)

/-! ### PUSH (R161) -/

theorem exec_push (hf : s.faulted = false) (hr : rangeOk s.cfg s.x0 s.cfg.qf = true) :
    exec .push s = .next (pushEffect s) :=
  exec_pass hf (firstFailure_range hr)

@[simp] theorem pushAccess_mem (src slot qf k : Nat) (s : State) : (pushAccess src slot qf k s).mem = s.mem := by
  unfold pushAccess
  split <;> rfl

/-- An access of a PUSH writes no byte past LENGTH but its own byte of the slot. -/
theorem pushAccess_read_other (src slot qf k : Nat) (s : State) {x : Nat} (hx : hwcurOff ≤ x)
    (hk : k < qf → x ≠ slot + k) : (pushAccess src slot qf k s).shm.read x = s.shm.read x := by
  unfold pushAccess
  split
  · exact Memory.read_write_other _ _ _ _ (hk ‹_›)
  · exact Memory.read_writeWord_outside _ _ _ _ (.inr hx)

/-- A data access of a PUSH leaves LENGTH alone, because the slot lies in DATA. -/
theorem pushAccess_data_lengthField (src : Nat) {slot qf k : Nat} (s : State) (hslot : dataOff ≤ slot) (hk : k < qf) :
    (pushAccess src slot qf k s).lengthField = s.lengthField := by
  rw [pushAccess_of_lt _ _ _ hk]
  exact Memory.readWord_write_outside _ _ (.inr (le_trans (by decide) (le_trans hslot (Nat.le_add_right _ _))))

theorem pushEffect_frame (s : State) : pushEffect s =
    { s with shm := (pushEffect s).shm, icur := s.icurNext, mid := [], pruSeen := (pushEffect s).pruSeen } := by
  have hframe := CommandFrame.commandEffect .push s
  have h := congrArg (State.setIcur · s.icurNext) <|
    shmAccesses_frame (access := pushAccess s.x0 s.slotOff s.cfg.qf) (s.cfg.qf + 1)
      (fun k u => by unfold pushAccess; split <;> rfl) s
  have hmem : (pushEffect s).mem = s.mem := hframe.mem (by decide)
  have hresult : (pushEffect s).result = s.result := hframe.result (by decide)
  rw [← hmem, ← hresult]
  exact h

/-- Each byte of the slot holds the frame's byte, or one that the PRU has written since (R60). -/
theorem pushEffect_read_slot (s : State) {j : Nat} (hj : j < s.cfg.qf) :
    (pushEffect s).shm.read (s.slotOff + j) = s.mem.read (s.x0 + j) ∨
      (pushEffect s).shm.read (s.slotOff + j) ∈ byteWrites (s.slotOff + j) s.mid := by
  have hdata : dataOff ≤ s.slotOff + j := s.dataOff_le_slot j
  refine shmAccesses_of_access (access := pushAccess s.x0 s.slotOff s.cfg.qf) (B := fun u => u.mem = s.mem)
    (A := fun u => u.shm.read (s.slotOff + j) = s.mem.read (s.x0 + j) ∨
      u.shm.read (s.slotOff + j) ∈ byteWrites (s.slotOff + j) s.mid)
    (Nat.lt_succ_of_lt hj) ⟨fun a _ u hu => ?_, fun k _ _ u hu => ?_⟩ ⟨fun a ha u hu => ?_, fun k _ hne u hu => ?_⟩
    (fun u hu => ?_) rfl
  · exact (pruStep_mem a u).trans hu
  · exact (pushAccess_mem _ _ _ k u).trans hu
  · exact pruStep_read_data_keeps ha hdata hu
  · rwa [pushAccess_read_other _ _ _ k u (le_trans (by decide) hdata) (by omega)]
  · rw [pushAccess_of_lt _ _ _ hj, State.setShm_shm, Memory.read_write_same, hu]
    exact .inl rfl

/-- LENGTH grows by QF once, whatever the PRU does (R62). -/
theorem pushEffect_lengthField (s : State) : (pushEffect s).lengthField = wrap32 (s.lengthField.toNat + s.cfg.qf) := by
  have keep : ∀ v, KeptAround (pushAccess s.x0 s.slotOff s.cfg.qf) s.mid (s.cfg.qf + 1) s.cfg.qf
      (fun u => u.lengthField = v) := fun v =>
    ⟨fun a _ u hu => (pruStep_lengthField a u).trans hu, fun k hk hne u hu =>
      (pushAccess_data_lengthField _ u (Nat.le_add_right _ _) (by omega)).trans hu⟩
  refine shmAccesses_of_access (Nat.lt_succ_self _) (keep s.lengthField) (keep _) (fun u hu => ?_) rfl
  rw [pushAccess_length_lengthField, hu]

/-- PUSH writes no byte past LENGTH outside the slot. -/
theorem pushEffect_read_outside (s : State) {x : Nat} (hx : hwcurOff ≤ x)
    (hout : x < s.slotOff ∨ s.slotOff + s.cfg.qf ≤ x) (hp : x ∉ pruWrites s.mid) :
    (pushEffect s).shm.read x = s.shm.read x :=
  interleave_keeps (access := pushAccess s.x0 s.slotOff s.cfg.qf) (P := fun u => u.shm.read x = s.shm.read x) _ _
    (fun a ha u hu => (pruStep_read_other a u x fun hw => hp (mem_pruWrites ha hw)).trans hu)
    (fun k u hu => (pushAccess_read_other _ _ _ k u hx (by omega)).trans hu) _ rfl

/-- Settles O39: each byte of the slot and LENGTH is written by one access of the PUSH, wherever the schedule puts it. -/
theorem pushUnderPruSteps : Obligations.PushUnderPruSteps := fun s hf hr =>
  ⟨pushEffect s, exec_push hf hr, pushEffect_frame s, fun _ hj => pushEffect_read_slot s hj, pushEffect_lengthField s,
    rfl, fun _ hx hout hp => pushEffect_read_outside s hx hout hp⟩

/-- With no PRU step inside it, a PUSH shows the PRU nothing. -/
theorem pushEffect_pruSeen (hmid : s.mid = []) : (pushEffect s).pruSeen = s.pruSeen := by
  rw [pushEffect, shmAccesses_of_mid_nil _ _ hmid]
  exact foldl_pushAccess_pruSeen _ _ _ _ _

/-- Settles O38: PUSH under a schedule (O39) that holds no PRU step. -/
theorem pushWritesSlotLengthCursor : Obligations.PushWritesSlotLengthCursor := by
  intro s hf hmid hr
  refine ⟨pushEffect s, exec_push hf hr, ?_, fun j hj => ?_, pushEffect_lengthField s, rfl, fun x hx hout => ?_⟩
  · have h := pushEffect_frame s
    rw [pushEffect_pruSeen hmid, ← hmid] at h
    exact h
  · exact (pushEffect_read_slot s hj).resolve_right (by simp [hmid, byteWrites])
  · exact pushEffect_read_outside s hx hout (by simp [hmid, pruWrites])

/-! ### POP (R162) -/

theorem exec_pop (hf : s.faulted = false) (hr : rangeOk s.cfg s.x0 s.cfg.qf = true) :
    exec .pop s = .next (popEffect s) :=
  exec_pass hf (firstFailure_range hr)

theorem popAccess_read_same (dst slot j : Nat) (s : State) :
    (popAccess dst slot j s).mem.read (dst + j) = s.shm.read (slot + j) :=
  Memory.read_write_same _ _ _

theorem popAccess_read_other (dst slot k : Nat) (s : State) {a : Nat} (h : a ≠ dst + k) :
    (popAccess dst slot k s).mem.read a = s.mem.read a :=
  Memory.read_write_other _ _ _ _ h

theorem popEffect_frame (s : State) : popEffect s =
    { s with
      mem := (popEffect s).mem, shm := (popEffect s).shm, icur := s.icurNext, mid := [],
      pruSeen := (popEffect s).pruSeen } := by
  have h := congrArg (State.setIcur · s.icurNext) <|
    shmAccesses_frame (access := popAccess s.x0 s.slotOff) s.cfg.qf (fun _ _ => rfl) s
  have hresult : (popEffect s).result = s.result := (CommandFrame.commandEffect .pop s).result (by decide)
  rw [← hresult]
  exact h

/-- What holds of byte `j` of the slot before a POP, and is kept by the PRU's steps, holds of byte `j` of the frame after
it: access `j` copies the byte as it is at that moment (R61). -/
theorem popEffect_read_of_slot {s : State} {j : Nat} {Q : Byte → Prop} (hj : j < s.cfg.qf)
    (hp : ∀ a, .pru a ∈ s.mid → ∀ u, u.cfg = s.cfg → Q (u.shm.read (s.slotOff + j)) →
      Q ((pruStep a u).shm.read (s.slotOff + j)))
    (h : Q (s.shm.read (s.slotOff + j))) : Q ((popEffect s).mem.read (s.x0 + j)) := by
  refine shmAccesses_of_access (access := popAccess s.x0 s.slotOff)
    (B := fun u => u.cfg = s.cfg ∧ Q (u.shm.read (s.slotOff + j))) (A := fun u => Q (u.mem.read (s.x0 + j))) hj
    ⟨fun a ha u hu => ?_, fun _ _ _ _ hu => hu⟩ ⟨fun a _ u hu => ?_, fun k _ hne u hu => ?_⟩ (fun u hu => ?_) ⟨rfl, h⟩
  · exact ⟨(pruStep_cfg a u).trans hu.1, hp a ha u hu.1 hu.2⟩
  · rwa [pruStep_mem]
  · rwa [popAccess_read_other _ _ _ _ (by omega)]
  · rw [popAccess_read_same]
    exact hu.2

theorem popEffect_read_frame (s : State) {j : Nat} (hj : j < s.cfg.qf) :
    (popEffect s).mem.read (s.x0 + j) = s.shm.read (s.slotOff + j) ∨
      (popEffect s).mem.read (s.x0 + j) ∈ byteWrites (s.slotOff + j) s.mid :=
  popEffect_read_of_slot (Q := fun b => b = s.shm.read (s.slotOff + j) ∨ b ∈ byteWrites (s.slotOff + j) s.mid) hj
    (fun _ ha _ _ hu => pruStep_read_data_keeps ha (s.dataOff_le_slot j) hu) (.inl rfl)

theorem popEffect_read_frame_of_tx (htx : s.cfg.qdir = .tx) {j : Nat} (hj : j < s.cfg.qf) :
    (popEffect s).mem.read (s.x0 + j) = s.shm.read (s.slotOff + j) := by
  refine popEffect_read_of_slot (Q := fun b => b = s.shm.read (s.slotOff + j)) hj (fun a _ u hcfg hu => ?_) rfl
  rw [← hcfg] at htx
  exact (pruStep_read_data_of_tx a htx (s.dataOff_le_slot j)).trans hu

theorem popEffect_read_outside (s : State) {a : Nat} (ha : a < s.x0 ∨ s.x0 + s.cfg.qf ≤ a) :
    (popEffect s).mem.read a = s.mem.read a :=
  shmAccesses_preserves (access := popAccess s.x0 s.slotOff) (P := fun u => u.mem.read a = s.mem.read a) s.cfg.qf
    (fun b u hu => by rwa [pruStep_mem]) (fun k hk u hu => (popAccess_read_other _ _ _ u (by omega)).trans hu) s rfl

/-- Settles O40: each byte of the frame is copied by one access of the POP, wherever the schedule puts it. -/
theorem popCopiesSlot : Obligations.PopCopiesSlot := by
  intro s hf hr
  have hexec := exec_pop hf hr
  exact ⟨popEffect s, hexec, popEffect_frame s, fun j hj => popEffect_read_frame s hj,
    fun htx j hj => popEffect_read_frame_of_tx htx hj, fun a ha => popEffect_read_outside s ha, rfl,
    exec_lengthField hexec (by decide),
    fun x hx => exec_read_shm_of_not_mem hexec (not_coreMayWrite_of_not_mem (by decide) x) hx⟩

/-! ### PEEK (R163) -/

/-- Settles O41: PEEK has no check, and `slotOff` is a register value wherever the region fits. -/
theorem peekGivesSlotOffset : Obligations.PeekGivesSlotOffset := fun _ hf =>
  ⟨exec_pass (i := .peek) hf rfl, fun hlt hcap =>
    (BitVec.toNat_ofNat _ _).trans (Nat.mod_eq_of_lt (lt_of_lt_of_le (Nat.add_lt_add_left hlt 8) hcap))⟩

/-! ### PRUCUR (R164) -/

theorem exec_prucur (hf : s.faulted = false) : exec .prucur s = .next (prucurEffect s) :=
  exec_pass (i := .prucur) hf rfl

/-- The special case of R164 is what the subtraction gives there too. -/
theorem translateCursor_eq (p : Params) (raw : Word) : translateCursor p raw = raw - wrap32 p.bias := by
  rw [translateCursor]
  split
  · subst raw
    exact (BitVec.sub_self _).symm
  · rfl

theorem prucurEffect_frame (s : State) : prucurEffect s =
    { s with
      result := (prucurEffect s).result, shm := (prucurEffect s).shm, mid := [],
      pruSeen := (prucurEffect s).pruSeen } := by
  have hmem : (prucurEffect s).mem = s.mem := (CommandFrame.commandEffect .prucur s).mem (by decide)
  rw [← hmem]
  exact shmAccesses_frame 1 (fun _ _ => rfl) s

/-- PRUCUR translates HWCUR as it was, or as the schedule has the PRU write it, whole (20_memory.md R54). -/
theorem prucurEffect_result (s : State) :
    ∃ raw, (raw = s.hwcur ∨ raw ∈ cursorWrites s.mid) ∧ (prucurEffect s).result = raw - wrap32 s.cfg.bias := by
  refine shmAccesses_one (access := fun _ t => t.setResult (translateCursor t.cfg t.hwcur))
    (B := fun u => u.cfg = s.cfg ∧ (u.hwcur = s.hwcur ∨ u.hwcur ∈ cursorWrites s.mid))
    (A := fun u => ∃ raw, (raw = s.hwcur ∨ raw ∈ cursorWrites s.mid) ∧ u.result = raw - wrap32 s.cfg.bias)
    (fun a ha u hu => ⟨(pruStep_cfg a u).trans hu.1, ?_⟩) (fun a _ u hu => ?_) (fun u hu => ⟨u.hwcur, hu.2, ?_⟩)
    ⟨rfl, .inl rfl⟩
  · rcases pruStep_hwcur ha u with h | h
    · rw [h]
      exact hu.2
    · exact .inr h
  · rwa [pruStep_frame]
  · rw [State.setResult_result, translateCursor_eq, hu.1]

theorem prucurEffect_of_mid_nil (hmid : s.mid = []) : prucurEffect s = s.setResult (s.hwcur - wrap32 s.cfg.bias) := by
  rw [prucurEffect, shmAccesses_of_mid_nil _ _ hmid, ← translateCursor_eq]
  rfl

/-- Settles O42: the one read of HWCUR finds the word as it stands at some point of the schedule. -/
theorem prucurTranslatesCursor : Obligations.PrucurTranslatesCursor := by
  intro s hf
  obtain ⟨raw, hraw, hresult⟩ := prucurEffect_result s
  refine ⟨prucurEffect s, raw, exec_prucur hf, hraw, hresult, fun hbias => ?_, prucurEffect_frame s,
    prucurEffect_of_mid_nil, fun x hx =>
      exec_read_shm_of_not_mem (exec_prucur hf) (not_coreMayWrite_of_not_mem (by decide) x) hx⟩
  rw [hresult, hbias]
  exact BitVec.sub_self _

/-- Settles O43: with no PRU step inside it, PRUCUR subtracts BIAS from HWCUR. -/
theorem cursorTranslationVector : Obligations.CursorTranslationVector := by
  intro s hf hmid hbias
  have h : ∀ raw, s.hwcur = raw → exec .prucur s = .next (s.setResult (raw - wrap32 5)) := by
    rintro _ rfl
    rw [exec_prucur hf, prucurEffect_of_mid_nil hmid, hbias]
  exact ⟨h 5, h 97, h 189, h 281, h 0⟩

/-! ### GETLEN (R165) -/

theorem exec_getlen (hf : s.faulted = false) : exec .getlen s = .next (getlenEffect s) :=
  exec_pass (i := .getlen) hf rfl

theorem getlenEffect_frame (s : State) : getlenEffect s =
    { s with
      result := (getlenEffect s).result, shm := (getlenEffect s).shm, mid := [],
      pruSeen := (getlenEffect s).pruSeen } := by
  have hmem : (getlenEffect s).mem = s.mem := (CommandFrame.commandEffect .getlen s).mem (by decide)
  rw [← hmem]
  exact shmAccesses_frame 1 (fun _ _ => rfl) s

/-- GETLEN reads the LENGTH of before the command: the PRU never writes it (20_memory.md R57). -/
theorem getlenEffect_result (s : State) : (getlenEffect s).result = s.lengthField :=
  shmAccesses_one (access := fun _ t => t.setResult t.lengthField) (B := fun u => u.lengthField = s.lengthField)
    (A := fun u => u.result = s.lengthField) (fun a _ u hu => (pruStep_lengthField a u).trans hu)
    (fun a _ u hu => by rwa [pruStep_frame]) (fun _ hu => hu) rfl

/-- Settles O44: the one read of LENGTH finds the word that stood there before the command. -/
theorem getlenGivesLength : Obligations.GetlenGivesLength := by
  intro s hf
  have hexec := exec_getlen hf
  refine ⟨getlenEffect s, hexec, getlenEffect_result s, exec_lengthField hexec (by decide), getlenEffect_frame s,
    fun hmid => ?_, fun x hx => exec_read_shm_of_not_mem hexec (not_coreMayWrite_of_not_mem (by decide) x) hx⟩
  rw [getlenEffect, shmAccesses_of_mid_nil _ _ hmid]
  rfl

/-! ### SETLEN (R166) -/

theorem exec_setlen (hf : s.faulted = false) : exec .setlen s = .next (setlenEffect s) :=
  exec_pass (i := .setlen) hf rfl

theorem setlenEffect_frame (s : State) : setlenEffect s =
    { s with shm := (setlenEffect s).shm, mid := [], pruSeen := (setlenEffect s).pruSeen } := by
  have hframe := CommandFrame.commandEffect .setlen s
  have hmem : (setlenEffect s).mem = s.mem := hframe.mem (by decide)
  have hresult : (setlenEffect s).result = s.result := hframe.result (by decide)
  rw [← hmem, ← hresult]
  exact shmAccesses_frame 1 (fun _ _ => rfl) s

theorem setlenEffect_lengthField (s : State) : (setlenEffect s).lengthField = s.a0 := by
  refine shmAccesses_one (access := fun _ t => t.setShm (t.shm.writeWord lengthOff t.a0)) (B := fun u => u.a0 = s.a0)
    (A := fun u => u.lengthField = s.a0) (fun a _ u hu => ?_) (fun a _ u hu => (pruStep_lengthField a u).trans hu)
    (fun u hu => ?_) rfl
  · rwa [pruStep_frame]
  · exact (Memory.readWord_writeWord_same _ _ _).trans hu

/-- Settles O45: the one write of LENGTH sets the word, whose bytes are the slices of A0. -/
theorem setlenWritesLength : Obligations.SetlenWritesLength := by
  intro s hf
  refine ⟨setlenEffect s, exec_setlen hf, setlenEffect_lengthField s, fun k hk => ?_, setlenEffect_frame s,
    fun x hx hp => ?_⟩
  · rw [read_length_byte _ hk, setlenEffect_lengthField]
  · exact exec_read_shm_of_not_mem (exec_setlen hf) (not_coreMayWrite_of_ne_push (by decide) hx) hp

end Sys2Proof.Machine
end

section
/-! Runs of PUSH and POP with no PRU step between or inside them (43_bytequeue.md R167 to R169). -/

namespace Sys2Proof.Params

/-! ### The slots of DATA (R160) -/

variable {p : Params}

/-- The number of slots, `CAP / QF`. -/
def slots (p : Params) : Nat := p.cap / p.qf

/-- The cursor value of slot `i mod slots`. -/
def slotCursor (p : Params) (i : Nat) : Nat := i % p.slots * p.qf

theorem slots_mul_qf (h : p.wellFormed = true) : p.slots * p.qf = p.cap := Nat.div_mul_cancel (Machine.qf_dvd_cap h)

theorem slots_pos (h : p.wellFormed = true) : 0 < p.slots :=
  Nat.pos_of_mul_pos_right (slots_mul_qf h ▸ Machine.cap_pos h)

/-- Whole rounds of the slots lead back to the same slot. -/
theorem slotCursor_round (m j : Nat) : p.slotCursor (p.slots * m + j) = p.slotCursor j :=
  congrArg (· * p.qf) (Nat.mul_add_mod _ _ _)

/-- The cursor after slot `i` is that of slot `i + 1`, the slots counted round. -/
theorem slotCursor_succ (h : p.wellFormed = true) (i : Nat) :
    (p.slotCursor i + p.qf) % p.cap = p.slotCursor (i + 1) := by
  calc (p.slotCursor i + p.qf) % p.cap
      = (i % p.slots + 1) * p.qf % (p.slots * p.qf) := by rw [slots_mul_qf h, Nat.succ_mul, slotCursor]
    _ = p.slotCursor (i + 1) := by rw [Nat.mul_mod_mul_right, Nat.mod_add_mod, slotCursor]

/-- Two frames fewer than `slots` pushes apart go to different slots. -/
theorem slotCursor_disjoint {i n : Nat} (hlt : i < n) (hn : n < i + p.slots) :
    p.slotCursor i + p.qf ≤ p.slotCursor n ∨ p.slotCursor n + p.qf ≤ p.slotCursor i := by
  have hne : n % p.slots ≠ i % p.slots := fun e => by
    have hmod := Nat.sub_mod_eq_zero_of_mod_eq e
    rw [Nat.mod_eq_of_lt (by omega)] at hmod
    omega
  simp only [slotCursor, ← Nat.succ_mul]
  rcases Nat.lt_or_gt_of_ne hne with h | h
  · exact .inr (Nat.mul_le_mul_right _ h)
  · exact .inl (Nat.mul_le_mul_right _ h)

end Sys2Proof.Params

namespace Sys2Proof.Machine

/-! ### States that PUSH and POP go on from -/

/-- Between two steps, no fault latched. -/
structure State.Ready (s : State) : Prop where
  inv : s.Inv
  noFault : s.faulted = false

variable {s t : State}

theorem pushEffect_cfg (s : State) : (pushEffect s).cfg = s.cfg := (CommandFrame.commandEffect .push s).cfg
theorem pushEffect_a0 (s : State) : (pushEffect s).a0 = s.a0 := (CommandFrame.commandEffect .push s).a0
theorem pushEffect_mem (s : State) : (pushEffect s).mem = s.mem :=
  (CommandFrame.commandEffect .push s).mem (by decide)
theorem pushEffect_mid (s : State) : (pushEffect s).mid = [] := congrArg State.mid (pushEffect_frame s)

theorem popEffect_cfg (s : State) : (popEffect s).cfg = s.cfg := (CommandFrame.commandEffect .pop s).cfg
theorem popEffect_a0 (s : State) : (popEffect s).a0 = s.a0 := (CommandFrame.commandEffect .pop s).a0
theorem popEffect_mid (s : State) : (popEffect s).mid = [] := congrArg State.mid (popEffect_frame s)

/-- The next cursor is not cut to a register's width, because CAP fits one (00_scope.md R8). -/
theorem State.Inv.icurNext_toNat (h : s.Inv) : s.icurNext.toNat = (s.icur.toNat + s.cfg.qf) % s.cfg.cap :=
  (BitVec.toNat_ofNat _ _).trans (Nat.mod_eq_of_lt ((Nat.mod_lt _ (cap_pos h.cfgOk)).trans (cap_lt h.cfgOk)))

namespace State.Ready

theorem withArgs (h : s.Ready) (args : List Word) : (s.withArgs args).Ready :=
  ⟨{ h.inv with idle := rfl }, h.noFault⟩

theorem toReset (h : s.Inv) : s.toReset.Ready := ⟨h.toReset, s.toReset_faulted⟩

theorem push (h : s.Ready) (hr : rangeOk s.cfg s.x0 s.cfg.qf = true) : (pushEffect s).Ready where
  inv := State.setMid_eq_self (pushEffect_mid s) ▸ exec_inv h.inv.clearMid (exec_push h.noFault hr)
  noFault := (congrArg State.faulted (pushEffect_frame s)).trans h.noFault

theorem pop (h : s.Ready) (hr : rangeOk s.cfg s.x0 s.cfg.qf = true) : (popEffect s).Ready where
  inv := State.setMid_eq_self (popEffect_mid s) ▸ exec_inv h.inv.clearMid (exec_pop h.noFault hr)
  noFault := (congrArg State.faulted (popEffect_frame s)).trans h.noFault

/-- One PUSH or POP: the cursor advances, and LENGTH grows by QF if it is a PUSH. -/
theorem exec_queue {i : Instr} (h : s.Ready) (hr : rangeOk s.cfg s.x0 s.cfg.qf = true) (hi : i = .push ∨ i = .pop) :
    ∃ t, exec i s = .next t ∧ t.Ready ∧ t.cfg = s.cfg ∧ t.a0 = s.a0 ∧ t.icur = s.icurNext ∧
      t.lengthField = wrap32 (s.lengthField.toNat + [i].count .push * s.cfg.qf) := by
  rcases hi with rfl | rfl
  · refine ⟨_, exec_push h.noFault hr, h.push hr, pushEffect_cfg s, pushEffect_a0 s, rfl, ?_⟩
    rw [pushEffect_lengthField, List.count_singleton_self, one_mul]
  · have hexec := exec_pop h.noFault hr
    refine ⟨_, hexec, h.pop hr, popEffect_cfg s, popEffect_a0 s, rfl, (exec_lengthField hexec (by decide)).trans ?_⟩
    simp [wrap32]

end State.Ready

/-! ### Cursor and LENGTH (R167) -/

theorem execAll_cons_next {i : Instr} (h : exec i s = .next t) (rest : List Instr) :
    execAll (i :: rest) s = execAll rest t := by
  rw [execAll, h]

theorem wrap32_toNat_add (a b : Nat) : wrap32 ((wrap32 a).toNat + b) = wrap32 (a + b) := by
  simp [wrap32, ← BitVec.toNat_inj]

theorem execAll_queue {l : List Instr} (hl : ∀ i ∈ l, i = .push ∨ i = .pop) (h : s.Ready)
    (hr : rangeOk s.cfg s.x0 s.cfg.qf = true) : ∃ t, execAll l s = .next t ∧
      t.icur.toNat = (s.icur.toNat + l.length * s.cfg.qf) % s.cfg.cap ∧
      t.lengthField = wrap32 (s.lengthField.toNat + l.count .push * s.cfg.qf) := by
  induction l generalizing s with
  | nil => exact ⟨s, rfl, by simp [Nat.mod_eq_of_lt h.inv.icurBelow], by simp [wrap32]⟩
  | cons i l ih =>
    obtain ⟨u, hexec, hu, hcfg, ha0, hicur, hlen⟩ := h.exec_queue hr (hl i List.mem_cons_self)
    have hru : rangeOk u.cfg u.x0 u.cfg.qf = true := by rwa [State.x0, hcfg, ha0]
    obtain ⟨t, hrest, hticur, htlen⟩ := ih (fun j hj => hl j (List.mem_cons_of_mem _ hj)) hu hru
    refine ⟨t, (execAll_cons_next hexec l).trans hrest, ?_, ?_⟩
    · rw [hticur, hcfg, hicur, h.inv.icurNext_toNat, Nat.mod_add_mod, List.length_cons, Nat.succ_mul, Nat.add_assoc,
        Nat.add_comm s.cfg.qf]
    · rw [htlen, hlen, hcfg, wrap32_toNat_add, Nat.add_assoc, ← Nat.add_mul, ← List.count_append, List.singleton_append]

/-- Settles O46, by induction on the list. -/
theorem cursorProgression : Obligations.CursorProgression := fun _ _ hinv hf hr hl => execAll_queue hl ⟨hinv, hf⟩ hr

/-! ### Programs of PUSH lines (R168) -/

theorem programInputs_append (l l' : List HostLine) : programInputs (l ++ l') = programInputs l ++ programInputs l' :=
  List.flatMap_append

/-- A program's last line runs in the state that the lines before it leave. -/
theorem takeAll_programInputs_concat {l : List HostLine} (h : takeAll (programInputs l) s = .next t) (line : HostLine) :
    takeAll (programInputs (l ++ [line])) s = takeAll line.expand t := by
  rw [programInputs_append, takeAll_append_next h, programInputs, List.flatMap_singleton]

/-- With no PRU step inside it, PUSH puts the frame into the slot at the cursor. -/
theorem pushEffect_readBytes_slot (hmid : s.mid = []) :
    (pushEffect s).shm.readBytes s.slotOff s.cfg.qf = s.mem.readBytes s.x0 s.cfg.qf :=
  List.map_congr_left fun _ hj =>
    (pushEffect_read_slot s (List.mem_range.1 hj)).resolve_right (by simp [hmid, byteWrites])

theorem pushEffect_readBytes_outside (hmid : s.mid = []) {x n : Nat} (hx : dataOff ≤ x)
    (hout : x + n ≤ s.slotOff ∨ s.slotOff + s.cfg.qf ≤ x) : (pushEffect s).shm.readBytes x n = s.shm.readBytes x n :=
  Memory.readBytes_congr fun y hy _ => pushEffect_read_outside s (le_trans (by decide) (hx.trans hy)) (by omega)
    (by simp [hmid, pruWrites])

theorem takeAll_pushLine {a : Word} (h : s.Ready) (hr : rangeOk s.cfg a.toNat s.cfg.qf = true) :
    takeAll (HostLine.push a).expand s = .next (pushEffect (s.withArgs [a])) :=
  takeAll_commandLine_next (by simp) (exec_push (s := s.withArgs [a]) h.noFault hr) (pushEffect_mid _)

/-- `t` is what pushes of the frames at `srcs`, from `s` with ICUR = 0, leave: each of the last `slots` frames stands in
its slot. -/
structure Pushed (s : State) (srcs : List Word) (t : State) : Prop where
  ready : t.Ready
  cfg : t.cfg = s.cfg
  mem : t.mem = s.mem
  icur : t.icur.toNat = s.cfg.slotCursor srcs.length
  slots : ∀ i a, srcs[i]? = some a → srcs.length ≤ i + s.cfg.slots →
    t.shm.readBytes (dataOff + s.cfg.slotCursor i) s.cfg.qf = s.mem.readBytes a.toNat s.cfg.qf

/-- One more PUSH overwrites the slot of the frame `slots` pushes ago and no other slot. -/
theorem Pushed.push {srcs : List Word} {a : Word} (h : Pushed s srcs t) (hr : rangeOk t.cfg a.toNat t.cfg.qf = true) :
    Pushed s (srcs ++ [a]) (pushEffect (t.withArgs [a])) where
  ready := (h.ready.withArgs [a]).push hr
  cfg := (pushEffect_cfg _).trans h.cfg
  mem := (pushEffect_mem _).trans h.mem
  icur := by
    calc t.icurNext.toNat
        = (s.cfg.slotCursor srcs.length + s.cfg.qf) % s.cfg.cap := by
          rw [h.ready.inv.icurNext_toNat, h.icur, h.cfg]
      _ = s.cfg.slotCursor (srcs ++ [a]).length := by
          rw [Params.slotCursor_succ (h.cfg ▸ h.ready.inv.cfgOk), List.length_append, List.length_singleton]
  slots := by
    intro i b hb hi
    rw [List.length_append, List.length_singleton] at hi
    have hslot : (t.withArgs [a]).slotOff = dataOff + s.cfg.slotCursor srcs.length := by rw [← h.icur]; rfl
    rcases lt_trichotomy i srcs.length with hlt | rfl | hgt
    · rw [List.getElem?_append_left hlt] at hb
      rw [← h.slots i b hb (by omega)]
      refine pushEffect_readBytes_outside rfl (Nat.le_add_right _ _) ?_
      have hcfg : (t.withArgs [a]).cfg.qf = s.cfg.qf := congrArg Params.qf h.cfg
      have hdisj := Params.slotCursor_disjoint hlt hi
      omega
    · rw [List.getElem?_concat_length] at hb
      cases hb
      rw [← hslot, ← h.cfg, ← h.mem]
      exact pushEffect_readBytes_slot rfl
    · rw [List.getElem?_eq_none (by simpa using hgt)] at hb
      cases hb

theorem takeAll_pushLines {srcs : List Word} (h : s.Ready) (hicur : s.icur = 0)
    (hr : ∀ a ∈ srcs, rangeOk s.cfg a.toNat s.cfg.qf = true) :
    ∃ t, takeAll (programInputs (srcs.map .push)) s = .next t ∧ Pushed s srcs t := by
  induction srcs using List.reverseRecOn with
  | nil =>
    refine ⟨s, rfl, h, rfl, rfl, ?_, fun i a ha => by cases ha⟩
    rw [hicur, Params.slotCursor, List.length_nil, Nat.zero_mod, Nat.zero_mul]
    rfl
  | append_singleton srcs a ih =>
    obtain ⟨t, htake, ht⟩ := ih fun b hb => hr b (List.mem_append_left _ hb)
    have hra : rangeOk t.cfg a.toNat t.cfg.qf = true := ht.cfg ▸ hr a (by simp)
    refine ⟨_, ?_, ht.push hra⟩
    rw [List.map_append]
    exact (takeAll_programInputs_concat htake _).trans (takeAll_pushLine ht.ready hra)

/-- Settles O47: `Pushed` holds after any list of PUSH lines. -/
theorem overwriteOnWrap : Obligations.OverwriteOnWrap := by
  intro s srcs hinv hf hicur hr
  obtain ⟨t, htake, ht⟩ := takeAll_pushLines ⟨hinv, hf⟩ hicur hr
  exact ⟨t, htake, ht.ready.noFault, fun i hi hlast => ht.slots i _ (List.getElem?_eq_getElem hi) hlast⟩

/-! ### Programs of POP lines (R169) -/

/-- With no PRU step inside it, POP changes no byte of SHM. -/
theorem popEffect_read_shm (hmid : s.mid = []) (x : Nat) : (popEffect s).shm.read x = s.shm.read x := by
  rw [popEffect, shmAccesses_of_mid_nil _ _ hmid]
  exact List.foldlRecOn (motive := fun (t : State) => t.shm.read x = s.shm.read x) _ _ rfl fun _ ht _ _ => ht

/-- With no PRU step inside it, POP copies the slot at the cursor. -/
theorem popEffect_readBytes_frame (hmid : s.mid = []) :
    (popEffect s).mem.readBytes s.x0 s.cfg.qf = s.shm.readBytes s.slotOff s.cfg.qf :=
  List.map_congr_left fun _ hj =>
    (popEffect_read_frame s (List.mem_range.1 hj)).resolve_right (by simp [hmid, byteWrites])

theorem popEffect_readBytes_outside (s : State) {a n : Nat} (hout : a + n ≤ s.x0 ∨ s.x0 + s.cfg.qf ≤ a) :
    (popEffect s).mem.readBytes a n = s.mem.readBytes a n :=
  Memory.readBytes_congr fun b _ _ => popEffect_read_outside s (by omega)

theorem takeAll_popLine {a : Word} (h : s.Ready) (hr : rangeOk s.cfg a.toNat s.cfg.qf = true) :
    takeAll (HostLine.pop a).expand s = .next (popEffect (s.withArgs [a])) :=
  takeAll_commandLine_next (by simp) (exec_pop (s := s.withArgs [a]) h.noFault hr) (popEffect_mid _)

/-- `t` is what `n` pops to consecutive buffers at `d`, from `s` with ICUR = 0, leave: buffer `j` holds the frame of
slot `j`. -/
structure Popped (s : State) (d n : Nat) (t : State) : Prop where
  ready : t.Ready
  cfg : t.cfg = s.cfg
  shm : ∀ x, t.shm.read x = s.shm.read x
  icur : t.icur.toNat = s.cfg.slotCursor n
  frames : ∀ j, j < n → t.mem.readBytes (d + j * s.cfg.qf) s.cfg.qf =
    s.shm.readBytes (dataOff + s.cfg.slotCursor j) s.cfg.qf

/-- One more POP, to the next buffer. -/
theorem Popped.pop {d n : Nat} {a : Word} (h : Popped s d n t) (ha : a.toNat = d + n * s.cfg.qf)
    (hr : rangeOk t.cfg a.toNat t.cfg.qf = true) : Popped s d (n + 1) (popEffect (t.withArgs [a])) where
  ready := (h.ready.withArgs [a]).pop hr
  cfg := (popEffect_cfg _).trans h.cfg
  shm := fun x => (popEffect_read_shm rfl x).trans (h.shm x)
  icur := by
    calc t.icurNext.toNat
        = (s.cfg.slotCursor n + s.cfg.qf) % s.cfg.cap := by rw [h.ready.inv.icurNext_toNat, h.icur, h.cfg]
      _ = s.cfg.slotCursor (n + 1) := Params.slotCursor_succ (h.cfg ▸ h.ready.inv.cfgOk) n
  frames := by
    intro j hj
    rcases Nat.lt_succ_iff_lt_or_eq.1 hj with hj | rfl
    · rw [← h.frames j hj]
      refine popEffect_readBytes_outside _ (.inl ?_)
      calc d + j * s.cfg.qf + s.cfg.qf
          = d + (j + 1) * s.cfg.qf := by rw [Nat.succ_mul, Nat.add_assoc]
        _ ≤ d + n * s.cfg.qf := Nat.add_le_add_left (Nat.mul_le_mul_right _ hj) _
        _ = (t.withArgs [a]).x0 := ha.symm
    · calc (popEffect (t.withArgs [a])).mem.readBytes (d + j * s.cfg.qf) s.cfg.qf
          = t.shm.readBytes (dataOff + t.icur.toNat) t.cfg.qf := by
            rw [← ha, ← h.cfg]
            exact popEffect_readBytes_frame rfl
        _ = s.shm.readBytes (dataOff + s.cfg.slotCursor j) s.cfg.qf := by
            rw [h.icur, h.cfg]
            exact Memory.readBytes_congr fun x _ _ => h.shm x

theorem takeAll_popLines {d n : Nat} (h : s.Ready) (hicur : s.icur = 0) (hd : d + n * s.cfg.qf ≤ s.cfg.memSize) :
    ∃ t, takeAll (programInputs ((List.range n).map fun j => .pop (BitVec.ofNat 32 (d + j * s.cfg.qf)))) s = .next t ∧
      Popped s d n t := by
  induction n with
  | zero =>
    refine ⟨s, rfl, h, rfl, fun _ => rfl, ?_, fun j hj => absurd hj (Nat.not_lt_zero j)⟩
    rw [hicur, Params.slotCursor, Nat.zero_mod, Nat.zero_mul]
    rfl
  | succ n ih =>
    rw [Nat.succ_mul] at hd
    obtain ⟨t, htake, ht⟩ := ih (by omega)
    obtain ⟨-, -, -, -, -, -, -, -, hmem, -⟩ := (wellFormed_iff _).1 h.inv.cfgOk
    have hqf := four_le_qf s.cfg
    have ha : (BitVec.ofNat 32 (d + n * s.cfg.qf)).toNat = d + n * s.cfg.qf :=
      (BitVec.toNat_ofNat _ _).trans (Nat.mod_eq_of_lt (by omega))
    have hr : rangeOk t.cfg (BitVec.ofNat 32 (d + n * s.cfg.qf)).toNat t.cfg.qf = true := by
      rw [ha, ht.cfg, rangeOk_iff]
      omega
    refine ⟨_, ?_, ht.pop ha hr⟩
    rw [List.range_succ, List.map_append]
    exact (takeAll_programInputs_concat htake _).trans (takeAll_popLine ht.ready hr)

/-- Settles O48: `Pushed` after the PUSH lines, then `Popped` from the reset on. -/
theorem popsAfterResetReturnLastFrames : Obligations.PopsAfterResetReturnLastFrames := by
  rintro s srcs d k c hinv hf hicur rfl hc - hr hd
  obtain rfl : c = s.cfg.slots := hc
  obtain ⟨t, hpush, ht⟩ := takeAll_pushLines ⟨hinv, hf⟩ hicur hr
  have hcfg : t.toReset.cfg = s.cfg := ht.cfg
  rw [← hcfg] at hd
  obtain ⟨u, hpop, hu⟩ := takeAll_popLines (.toReset ht.ready.inv) rfl hd
  rw [hcfg] at hpop hu
  refine ⟨u, ?_, hu.ready.noFault, fun j hj a ha => ?_⟩
  · rw [programInputs_append, programInputs_append, List.append_assoc, takeAll_append_next hpush]
    exact (takeAll_cons_next rfl _).trans hpop
  · have hround : srcs.length ≤ s.cfg.slots * (srcs.length / s.cfg.slots) + j + s.cfg.slots := by
      have hdiv := Nat.div_add_mod srcs.length s.cfg.slots
      have hlt := Nat.mod_lt srcs.length (Params.slots_pos hinv.cfgOk)
      omega
    have hlast := ht.slots _ a ha hround
    have hframe := hu.frames j hj
    rw [hcfg] at hframe
    rw [Params.slotCursor_round] at hlast
    exact hframe.trans hlast

end Sys2Proof.Machine
end

section
/-! BGET and BSET as commands (44_bitops.md R190 to R192). -/

namespace Sys2Proof.Machine

/-- After a write of bit `i` of the byte sequence at `base`, that bit is the value written and every other bit stands. -/
theorem Memory.bitAt_write_withBit (m : Memory) (base i j : Nat) (v : Bool) :
    (m.write (base + i / 8) (Codec.withBit (m.read (base + i / 8)) (i % 8) v)).bitAt base j =
      if j = i then v else m.bitAt base j := by
  rw [bitAt, bitAt, read_write]
  by_cases hbyte : base + j / 8 = base + i / 8
  · have hbit : j % 8 = i % 8 ↔ j = i := by omega
    rw [if_pos hbyte, Codec.bitOf_withBit _ _ (Nat.mod_lt _ (by decide)) (Nat.mod_lt _ (by decide)), ← hbyte]
    simp only [hbit]
  · have hne : j ≠ i := fun h => hbyte (by rw [h])
    rw [if_neg hbyte, if_neg hne]

variable {s : State}

/-- The byte of the bit lies in MEM, so the only check of BGET and BSET passes. -/
theorem bitChecks_of_lt (h : s.bitAddr < s.cfg.memSize) : firstFailure (bitChecks s) = none :=
  firstFailure_range ((rangeOk_iff _ _ _).2 (.inr h))

/-! ### BGET (R190) -/

theorem exec_bget (hf : s.faulted = false) (h : s.bitAddr < s.cfg.memSize) : exec .bget s = .next (bgetEffect s) :=
  exec_pass hf (bitChecks_of_lt h)

/-- Settles O52: the effect of BGET, once its range check passes. -/
theorem bgetReadsBit : Obligations.BgetReadsBit := fun _ => exec_bget

/-! ### BSET (R191) -/

theorem exec_bset (hf : s.faulted = false) (h : s.bitAddr < s.cfg.memSize) : exec .bset s = .next (bsetEffect s) :=
  exec_pass hf (bitChecks_of_lt h)

theorem bsetEffect_bitAt (s : State) (j : Nat) :
    (bsetEffect s).mem.bitAt s.x0 j = if j = s.x1 then s.a2.getLsbD 0 else s.mem.bitAt s.x0 j :=
  Memory.bitAt_write_withBit _ _ _ _ _

/-- Settles O53: BSET writes one byte back with one of its bits replaced. -/
theorem bsetWritesBit : Obligations.BsetWritesBit := by
  intro s hf h
  refine ⟨bsetEffect s, exec_bset hf h, rfl, (bsetEffect_bitAt s _).trans (if_pos rfl), fun j hj hne => ?_,
    fun a ha => Memory.read_write_other _ _ _ _ ha⟩
  have hbyte : (bsetEffect s).mem.read (s.x0 + s.x1 / 8) =
      Codec.withBit (s.mem.read (s.x0 + s.x1 / 8)) (s.x1 % 8) (s.a2.getLsbD 0) := Memory.read_write_same _ _ _
  rw [hbyte, Codec.bitOf_withBit _ _ hj (Nat.mod_lt _ (by decide)), if_neg hne]

/-! ### BSET and then BGET (R192) -/

theorem takeAll_bsetLine {a b c : Word} (hf : s.faulted = false) (h : a.toNat + b.toNat / 8 < s.cfg.memSize) :
    takeAll (HostLine.bset a b c).expand s = .next (bsetEffect (s.withArgs [a, b, c])) :=
  takeAll_commandLine_next (by simp) (exec_bset (s := s.withArgs [a, b, c]) hf h) rfl

theorem takeAll_bgetLine {a b : Word} (hf : s.faulted = false) (h : a.toNat + b.toNat / 8 < s.cfg.memSize) :
    takeAll (HostLine.bget a b).expand s = .next (bgetEffect (s.withArgs [a, b])) :=
  takeAll_commandLine_next (by simp) (exec_bget (s := s.withArgs [a, b]) hf h) rfl

theorem setWidth_extractLsb'_zero_one (v : Word) :
    (v.extractLsb' 0 1).setWidth 32 = if v.getLsbD 0 then (1 : Word) else 0 := by
  have hbit : v.extractLsb' 0 1 = BitVec.ofBool (v.getLsbD 0) := by
    rw [← BitVec.setWidth_eq_extractLsb' (by decide), BitVec.setWidth_one]
  rw [hbit]
  cases v.getLsbD 0 <;> rfl

/-- BGET after BSET sees the bit set at its own index, and at any other index the array as BSET found it. -/
theorem bgetEffect_bsetEffect_result (s : State) (base i j v : Word) :
    (bgetEffect ((bsetEffect (s.withArgs [base, i, v])).withArgs [base, j])).result =
      if j = i then if v.getLsbD 0 then 1 else 0 else (bgetEffect (s.withArgs [base, j])).result := by
  have hresult : (bgetEffect ((bsetEffect (s.withArgs [base, i, v])).withArgs [base, j])).result =
      if (if j.toNat = i.toNat then v.getLsbD 0 else s.mem.bitAt base.toNat j.toNat) then 1 else 0 :=
    congrArg (fun b : Bool => if b then (1 : Word) else 0) (bsetEffect_bitAt (s.withArgs [base, i, v]) j.toNat)
  rw [hresult]
  by_cases h : j = i
  · rw [if_pos h, if_pos (congrArg BitVec.toNat h)]
  · rw [if_neg h, if_neg (mt BitVec.eq_of_toNat_eq h)]
    rfl

/-- Settles O54: the result of the line BGET, with and without the line BSET before it. -/
theorem bsetThenBget : Obligations.BsetThenBget := fun s base i j v hf hi hj =>
  have hresult := bgetEffect_bsetEffect_result s base i j v
  ⟨_, _, (takeAll_append_next (takeAll_bsetLine hf hi) _).trans (takeAll_bgetLine hf hj), takeAll_bgetLine hf hj,
    fun h => (hresult.trans (if_pos h)).trans (setWidth_extractLsb'_zero_one v).symm,
    fun h => hresult.trans (if_neg h)⟩

end Sys2Proof.Machine
end

section
/-! The latched fault, and the checks that decide on it (60_exceptions.md R203 to R206). -/

namespace Sys2Proof.Machine

variable {s t : State}

/-! ### A latched fault drops every command (R203) -/

theorem exec_faulted (hf : s.faulted = true) (i : Instr) : exec i s = .next s :=
  (exec_eq i s).trans (perform_faulted _ _ _ s hf)

/-- The latched fault comes before ILLEGAL_CMD too (R204). -/
theorem command_faulted (hf : s.faulted = true) (w : Word) : command w s = .next s := by
  unfold command
  split
  · exact exec_faulted hf _
  · exact perform_faulted _ _ _ s hf

/-- Settles O55: what is left of a dropped CMD write is the PRU steps inside it. -/
theorem faultDropsCommands : Obligations.FaultDropsCommands := by
  refine fun s w i hf => ⟨command_faulted hf w, exec_faulted hf i, fun mid hmid => ?_⟩
  rw [takeInput_cmdWrite hmid, command_faulted (s := s.setMid mid) hf, drainOutcome_next]

/-! ### What a fault depends on (R205) -/

/-- Of all checks, only those of DEPKT look at a memory: the header of the frame. -/
theorem commandChecks_setMem_setShm {i : Instr} (hi : i ≠ .depkt) (s : State) (m h : Memory) :
    commandChecks i ((s.setMem m).setShm h) = commandChecks i s := by
  cases i with
  | depkt => exact absurd rfl hi
  | _ => rfl

/-- STATUS and FINFO are written by the fault entry alone (10_state.md R24, R25). -/
theorem commandEffect_keeps_faultRegisters (i : Instr) (s : State) :
    (commandEffect i s).status = s.status ∧ (commandEffect i s).finfo = s.finfo := by
  cases i with
  | enc | dec | menc | mdec | pkt | depkt | peek | bget | bset => exact ⟨rfl, rfl⟩
  | push =>
    rw [commandEffect, pushEffect_frame]
    exact ⟨rfl, rfl⟩
  | pop =>
    rw [commandEffect, popEffect_frame]
    exact ⟨rfl, rfl⟩
  | prucur =>
    rw [commandEffect, prucurEffect_frame]
    exact ⟨rfl, rfl⟩
  | getlen =>
    rw [commandEffect, getlenEffect_frame]
    exact ⟨rfl, rfl⟩
  | setlen =>
    rw [commandEffect, setlenEffect_frame]
    exact ⟨rfl, rfl⟩

/-- Settles O59: both runs are dropped, or take the fault of the same check, or take an effect, which is no fault. -/
theorem noFaultFromData : Obligations.NoFaultFromData := by
  intro i s t t' m h hi ht ht'
  cases hf : s.faulted with
  | true =>
    cases (exec_faulted hf i).symm.trans ht
    cases (exec_faulted (s := (s.setMem m).setShm h) hf i).symm.trans ht'
    exact ⟨rfl, rfl⟩
  | false =>
    obtain ⟨c, rfl, rfl⟩ | ⟨rfl, rfl⟩ :=
      exec_two_runs (s' := (s.setMem m).setShm h) hf hf (commandChecks_setMem_setShm hi s m h) ht ht'
    · exact ⟨rfl, rfl⟩
    · obtain ⟨hstatus, hfinfo⟩ := commandEffect_keeps_faultRegisters i s
      obtain ⟨hstatus', hfinfo'⟩ := commandEffect_keeps_faultRegisters i ((s.setMem m).setShm h)
      exact ⟨hstatus'.trans hstatus.symm, hfinfo'.trans hfinfo.symm⟩

/-! ### What an input of the host or of the PRU does, if it is taken -/

theorem hostPortRead_eq_next {off width : Nat} (h : hostPortRead off width s = .next t) :
    t = s.setHostData (portRead s off) := by
  unfold hostPortRead at h
  split at h <;> cases h
  rfl

theorem hostMemWrite_eq_next {addr : Nat} {bytes : List Byte} (h : hostMemWrite addr bytes s = .next t) :
    t = s.setMem (s.mem.writeBytes addr bytes) := by
  unfold hostMemWrite at h
  split at h <;> cases h
  rfl

theorem hostMemRead_eq_next {addr n : Nat} (h : hostMemRead addr n s = .next t) :
    t = s.setHostBytes (s.mem.readBytes addr n) := by
  unfold hostMemRead at h
  split at h <;> cases h
  rfl

theorem hostShmRead_eq_next {off n : Nat} (h : hostShmRead off n s = .next t) :
    t = s.setHostBytes (s.shm.readBytes off n) := by
  unfold hostShmRead at h
  split at h <;> cases h
  rfl

theorem pruInput_eq_next {a : PruAct} (h : pruInput a s = .next t) : t = pruStep a s := by
  unfold pruInput at h
  split at h <;> cases h
  rfl

/-! ### Inputs while a fault is latched (R203, R206) -/

/-- `t` keeps of `s` what only a command or a reset can change, and its MEM is `m`. -/
structure NothingPerformed (s : State) (m : Memory) (t : State) : Prop where
  status : t.status = s.status
  finfo : t.finfo = s.finfo
  result : t.result = s.result
  diag : t.diag = s.diag
  icur : t.icur = s.icur
  cfg : t.cfg = s.cfg
  lengthField : t.lengthField = s.lengthField
  mem : t.mem = m

namespace NothingPerformed

variable {u : State} {m m' : Memory}

theorem refl (s : State) : NothingPerformed s s.mem s := ⟨rfl, rfl, rfl, rfl, rfl, rfl, rfl, rfl⟩

theorem trans (h : NothingPerformed s m t) (h' : NothingPerformed t m' u) : NothingPerformed s m' u where
  status := h'.status.trans h.status
  finfo := h'.finfo.trans h.finfo
  result := h'.result.trans h.result
  diag := h'.diag.trans h.diag
  icur := h'.icur.trans h.icur
  cfg := h'.cfg.trans h.cfg
  lengthField := h'.lengthField.trans h.lengthField
  mem := h'.mem

theorem faulted (h : NothingPerformed s m t) : t.faulted = s.faulted := congrArg (fun v : Word => v.getLsbD 0) h.status

theorem portWrite (h : NothingPerformed s m t) (off : Nat) (v : Word) : NothingPerformed s m (portWrite t off v) := by
  unfold Machine.portWrite
  split <;> exact { h with }

/-- The PRU writes neither LENGTH nor a register (20_memory.md R57). -/
theorem pruStep (h : NothingPerformed s m t) (a : PruAct) : NothingPerformed s m (pruStep a t) := by
  have hlength := (pruStep_lengthField a t).trans h.lengthField
  rw [pruStep_frame] at hlength ⊢
  exact { h with lengthField := hlength }

theorem drainMid (h : NothingPerformed s m t) (mid : List MidStep) : NothingPerformed s m (drainMid (t.setMid mid)) :=
  shmAccesses_preserves 0 (fun a _ hu => hu.pruStep a) (fun _ hk => absurd hk (Nat.not_lt_zero _)) _ { h with }

/-- A host write of the register port under a latched fault writes at most an argument register (R203). -/
theorem hostPortWrite {off width : Nat} {v : Word} {mid : List MidStep} (hf : s.faulted = true)
    (ht : hostPortWrite off width v mid s = .next t) : NothingPerformed s s.mem t := by
  unfold Machine.hostPortWrite at ht
  split at ht
  · cases ht
  · cases ht
  · split at ht
    · rw [command_faulted (s := s.setMid mid) hf, drainOutcome_next] at ht
      cases ht
      exact (refl s).drainMid mid
    · cases ht
      exact ((refl s).portWrite off v).drainMid mid

/-- One input other than reset, under a latched fault. -/
theorem takeInput {inp : Input} (hf : s.faulted = true) (hr : assertsReset inp = false)
    (ht : takeInput inp s = .next t) : NothingPerformed s (memWritesOnly s.mem [inp]) t := by
  have h := refl s
  cases inp with
  | hostWrite off width v mid => exact hostPortWrite hf ht
  | hostRead off width =>
    obtain rfl := hostPortRead_eq_next ht
    exact { h with }
  | memWrite addr bytes =>
    obtain rfl := hostMemWrite_eq_next ht
    exact { h with mem := rfl }
  | memRead addr n =>
    obtain rfl := hostMemRead_eq_next ht
    exact { h with }
  | shmRead off n =>
    obtain rfl := hostShmRead_eq_next ht
    exact { h with }
  | pru a =>
    obtain rfl := pruInput_eq_next ht
    exact h.pruStep a
  | reset | resetDuring w mid memLanded => cases hr

end NothingPerformed

theorem memWritesOnly_cons (m : Memory) (inp : Input) (rest : List Input) :
    memWritesOnly m (inp :: rest) = memWritesOnly (memWritesOnly m [inp]) rest := by
  cases inp <;> rfl

theorem takeAll_cons_eq_next {inp : Input} {rest : List Input} (h : takeAll (inp :: rest) s = .next t) :
    ∃ u, takeInput inp s = .next u ∧ takeAll rest u = .next t := by
  rw [takeAll] at h
  split at h
  · exact ⟨_, ‹_›, h⟩
  · cases h
  · cases h

/-- A faulted machine is quiescent: each input finds the fault still latched (R203, R206). -/
theorem takeAll_nothingPerformed {l : List Input} (hf : s.faulted = true) (hr : ∀ inp ∈ l, assertsReset inp = false)
    (ht : takeAll l s = .next t) : NothingPerformed s (memWritesOnly s.mem l) t := by
  induction l generalizing s with
  | nil =>
    cases ht
    exact .refl _
  | cons inp rest ih =>
    obtain ⟨u, hu, hrest⟩ := takeAll_cons_eq_next ht
    have hfirst := NothingPerformed.takeInput hf (hr inp List.mem_cons_self) hu
    have hlater := ih (hfirst.faulted.trans hf) (fun j hj => hr j (List.mem_cons_of_mem _ hj)) hrest
    rw [memWritesOnly_cons, ← hfirst.mem]
    exact hfirst.trans hlater

/-- Settles O56: no input but a reset performs anything while the fault is latched, and none of them clears it. -/
theorem faultKeptUntilReset : Obligations.FaultKeptUntilReset := by
  intro l s t hf hr ht
  obtain ⟨status, finfo, result, diag, icur, cfg, lengthField, mem⟩ := takeAll_nothingPerformed hf hr ht
  exact ⟨status, finfo, result, diag, icur, cfg, lengthField, mem⟩

end Sys2Proof.Machine
end

section
/-! Reset, also during a command (70_reset_and_hazards.md R230, R231). -/

namespace Sys2Proof.Machine

/-- Settles O9: reset is `State.toReset` in every state. -/
theorem resetGivesListedValues : Obligations.ResetGivesListedValues := fun s =>
  ⟨s.toReset, rfl, s.toReset_icur, s.toReset_status, s.toReset_faulted, s.toReset_a0, s.toReset_a1, s.toReset_a2,
    s.toReset_a3, s.toReset_result, s.toReset_finfo, s.toReset_diag, s.toReset_cfg, s.toReset_mem, s.toReset_shm⟩

/-! ### One schedule, two sets of accesses

A command and what a reset leaves of it run the same schedule with different sets of accesses, and the PRU steps alone
run it with none. A view names what two such runs are compared in. -/

/-- What `f` shows of a state after a PRU step depends on what it shows before, and it does not show the schedule. -/
structure PruView {α : Type} (f : State → α) : Prop where
  pruStep : ∀ a u v, f u = f v → f (pruStep a u) = f (pruStep a v)
  setMid : ∀ u l, f (u.setMid l) = f u

/-- SHM and what the PRU has seen of it; the parameters decide which PRU steps take place. -/
def shmView (s : State) : Params × Memory × List (Nat × Byte) := (s.cfg, s.shm, s.pruSeen)

/-- The byte of SHM at `x`, and MEM, from which a PUSH writes it. -/
def byteView (x : Nat) (s : State) : Params × Memory × Byte := (s.cfg, s.mem, s.shm.read x)

theorem pruView_shmView : PruView shmView where
  pruStep a u v h := by
    obtain ⟨hcfg, hshm, hseen⟩ : u.cfg = v.cfg ∧ u.shm = v.shm ∧ u.pruSeen = v.pruSeen := by simpa [shmView] using h
    unfold pruStep
    rw [hcfg, hshm, hseen]
    split
    · exact h
    · cases a <;> simp [shmView, hcfg, hshm, hseen]
  setMid _ _ := rfl

theorem pruView_byteView (x : Nat) : PruView (byteView x) where
  pruStep a u v h := by
    obtain ⟨hcfg, hmem, hbyte⟩ : u.cfg = v.cfg ∧ u.mem = v.mem ∧ u.shm.read x = v.shm.read x := by
      simpa [byteView] using h
    unfold pruStep
    rw [hcfg]
    split
    · exact h
    · cases a <;> simp [byteView, Memory.writeWord, Memory.read_writeBytes, Memory.read_write, hcfg, hmem, hbyte]
  setMid _ _ := rfl

/-- An access that the schedule names takes place there if it has not yet, and is then done. -/
theorem interleave_core (access : Nat → State → State) (k : Nat) (rest : List MidStep) (todo : List Nat) (s : State) :
    interleave access (.core k :: rest) todo s =
      interleave access rest (todo.erase k) (if k ∈ todo then access k s else s) := by
  rw [interleave]
  split
  · rfl
  · rw [List.erase_of_not_mem ‹_›]

section

variable {α : Type} {f : State → α} {access access' : Nat → State → State} {p : Nat → Bool}

/-- The accesses that a schedule does not name, to a view that does not show those outside `p`. -/
theorem foldl_access_filter (hin : ∀ k, p k = true → ∀ u v, f u = f v → f (access k u) = f (access' k v))
    (todo : List Nat) (hout : ∀ k ∈ todo, p k = false → ∀ u, f (access k u) = f u) {u v : State} (h : f u = f v) :
    f (todo.foldl (fun t k => access k t) u) = f ((todo.filter p).foldl (fun t k => access' k t) v) := by
  induction todo generalizing u v with
  | nil => exact h
  | cons k todo ih =>
    have hrest : ∀ j ∈ todo, p j = false → ∀ u, f (access j u) = f u := fun j hj => hout j (List.mem_cons_of_mem _ hj)
    cases hp : p k with
    | true =>
      rw [List.filter_cons_of_pos hp]
      exact ih hrest (hin k hp u v h)
    | false =>
      rw [List.filter_cons_of_neg (by simp [hp])]
      exact ih hrest ((hout k List.mem_cons_self hp u).trans h)

/-- One access that a schedule names, to such a view. -/
theorem named_access_filter (hin : ∀ k, p k = true → ∀ u v, f u = f v → f (access k u) = f (access' k v))
    {todo : List Nat} (hout : ∀ k ∈ todo, p k = false → ∀ u, f (access k u) = f u) (k : Nat) {u v : State}
    (h : f u = f v) :
    f (if k ∈ todo then access k u else u) = f (if k ∈ todo.filter p then access' k v else v) := by
  by_cases hk : k ∈ todo
  · cases hp : p k with
    | true =>
      rw [if_pos hk, if_pos (List.mem_filter.2 ⟨hk, hp⟩)]
      exact hin k hp u v h
    | false =>
      rw [if_pos hk, if_neg (by simp [hp])]
      exact (hout k hk hp u).trans h
  · rw [if_neg hk, if_neg fun hm => hk (List.mem_of_mem_filter hm)]
    exact h

namespace PruView

/-- A view that does not show the accesses outside `p` does not tell a run from one that makes those in `p` only. -/
theorem interleave_filter (hf : PruView f)
    (hin : ∀ k, p k = true → ∀ u v, f u = f v → f (access k u) = f (access' k v)) (sched : List MidStep)
    (todo : List Nat) (hout : ∀ k ∈ todo, p k = false → ∀ u, f (access k u) = f u) {u v : State} (h : f u = f v) :
    f (interleave access sched todo u) = f (interleave access' sched (todo.filter p) v) := by
  induction sched generalizing todo u v with
  | nil => exact foldl_access_filter hin todo hout h
  | cons m sched ih =>
    cases m with
    | core k =>
      rw [interleave_core, interleave_core, List.erase_filter]
      exact ih _ (fun j hj => hout j (List.mem_of_mem_erase hj)) (named_access_filter hin hout k h)
    | pru a => exact ih _ hout (hf.pruStep a u v h)

/-- A view that shows none of the accesses shows what the PRU steps alone do. -/
theorem interleave_hidden (hf : PruView f) (sched : List MidStep) (todo : List Nat)
    (hk : ∀ k ∈ todo, ∀ u, f (access k u) = f u) {u v : State} (h : f u = f v) :
    f (interleave access sched todo u) = f (interleave access' sched [] v) := by
  have hnone := hf.interleave_filter (access := access) (access' := access') (p := fun _ => false) nofun sched todo
    (fun k hm _ => hk k hm) h
  rwa [List.filter_false] at hnone

theorem drainMid (hf : PruView f) {u v : State} (h : f u = f v) (hmid : u.mid = v.mid) :
    f (drainMid u) = f (drainMid v) := by
  rw [Machine.drainMid, Machine.drainMid, Machine.shmAccesses, Machine.shmAccesses, hmid]
  exact hf.interleave_hidden _ [] nofun (by rw [hf.setMid, hf.setMid, h])

theorem shmAccesses (hf : PruView f) (n : Nat) (hk : ∀ k < n, ∀ u, f (access k u) = f u) (s : State) :
    f (shmAccesses n access s) = f (Machine.drainMid s) :=
  hf.interleave_hidden _ _ (fun k hm => hk k (List.mem_range.1 hm)) rfl

theorem abandonedAccesses (hf : PruView f) (n : Nat) {s : State}
    (hk : ∀ k < n, .core k ∈ s.mid → ∀ u, f (access k u) = f u) :
    f (abandonedAccesses n access s) = f (Machine.drainMid s) := by
  refine hf.interleave_hidden _ _ (fun k hm => ?_) rfl
  obtain ⟨hrange, hnamed⟩ := List.mem_filter.1 hm
  exact hk k (List.mem_range.1 hrange) (List.contains_iff_mem.1 hnamed)

/-- A view that shows one access only, which the schedule names, shows the same of the command and of what a reset
leaves of it. -/
theorem abandonedAccesses_eq_shmAccesses (hf : PruView f) {n n' j : Nat} {s : State}
    (hj : ∀ u v, f u = f v → f (access j u) = f (access j v)) (hk : ∀ k ≠ j, ∀ u, f (access k u) = f u)
    (hlt : j < n) (hlt' : j < n') (hnamed : .core j ∈ s.mid) :
    f (Machine.abandonedAccesses n access s) = f (Machine.shmAccesses n' access s) := by
  have hrun : ∀ todo : List Nat, todo.Nodup → j ∈ todo →
      f (interleave access s.mid todo (s.setMid [])) = f (interleave access s.mid [j] (s.setMid [])) := by
    intro todo hnd hmem
    have hone : todo.filter (· == j) = [j] := by
      rw [List.filter_beq, List.count_eq_one_of_mem hnd hmem, List.replicate_one]
    rw [← hone]
    refine hf.interleave_filter (fun k hp => ?_) _ _ (fun k _ hp => hk k (by simpa using hp)) rfl
    rw [beq_iff_eq.1 hp]
    exact hj
  have htodo : j ∈ (List.range n).filter fun k => s.mid.contains (.core k) :=
    List.mem_filter.2 ⟨List.mem_range.2 hlt, List.contains_iff_mem.2 hnamed⟩
  exact (hrun _ (List.nodup_range.filter _) htodo).trans
    (hrun _ List.nodup_range (List.mem_range.2 hlt')).symm

end PruView

end

/-! ### What the commands do to a view -/

variable {s t u : State}

theorem drainMid_cfg (s : State) : (drainMid s).cfg = s.cfg := ((NothingPerformed.refl s).drainMid s.mid).cfg

theorem drainMid_mem (s : State) : (drainMid s).mem = s.mem := ((NothingPerformed.refl s).drainMid s.mid).mem

theorem drainMid_lengthField (s : State) : (drainMid s).lengthField = s.lengthField :=
  ((NothingPerformed.refl s).drainMid s.mid).lengthField

theorem drainMid_mid (s : State) : (drainMid s).mid = [] := shmAccesses_mid 0 (fun _ _ => rfl) s

theorem drainMid_inputs (s : State) : (drainMid s).inputs = s.inputs :=
  shmAccesses_preserves (P := fun u => u.inputs = s.inputs) 0 (fun a u hu => by rwa [pruStep_frame])
    (fun _ hk => absurd hk (Nat.not_lt_zero _)) s rfl

theorem shmView_eq_iff : shmView s = shmView t ↔ s.cfg = t.cfg ∧ s.shm = t.shm ∧ s.pruSeen = t.pruSeen := by
  simp [shmView]

theorem hwcur_of_shmView (h : shmView s = shmView t) : s.hwcur = t.hwcur :=
  congrArg (fun m => m.readWord hwcurOff) (shmView_eq_iff.1 h).2.1

theorem shmView_drainMid_setMem (s : State) (m : Memory) : shmView (drainMid (s.setMem m)) = shmView (drainMid s) :=
  pruView_shmView.drainMid rfl rfl

/-- The PRU finds and leaves the same SHM whether or not a command of the core runs around its steps, unless that is a
PUSH or a SETLEN. -/
theorem exec_shmView {i : Instr} (hi : i ∉ [.push, .setlen]) (h : exec i s = .next t) :
    shmView (drainMid t) = shmView (drainMid s) := by
  refine exec_keeps (P := fun u => shmView (drainMid u) = shmView (drainMid s)) h rfl
    (fun _ _ _ => pruView_shmView.drainMid rfl rfl) fun _ => ?_
  cases i with
  | push | setlen => exact absurd (by decide) hi
  | enc | dec | menc | mdec | pkt | depkt | peek | bget | bset => exact pruView_shmView.drainMid rfl rfl
  | prucur =>
    rw [commandEffect, drainMid_of_mid_nil _ (congrArg State.mid (prucurEffect_frame s))]
    exact pruView_shmView.shmAccesses (access := fun _ t => t.setResult (translateCursor t.cfg t.hwcur)) 1
      (fun _ _ _ => rfl) s
  | getlen =>
    rw [commandEffect, drainMid_of_mid_nil _ (congrArg State.mid (getlenEffect_frame s))]
    exact pruView_shmView.shmAccesses (access := fun _ t => t.setResult t.lengthField) 1 (fun _ _ _ => rfl) s
  | pop =>
    rw [commandEffect, drainMid_of_mid_nil _ (congrArg State.mid (popEffect_frame s))]
    exact pruView_shmView.shmAccesses (access := popAccess s.x0 s.slotOff) s.cfg.qf (fun _ _ _ => rfl) s

/-- Two commands with the same checks and different effects end alike when their effects do. -/
theorem perform_two_effects {P : State → State → Prop} {o : Byte} {checks : State → List Check}
    {effect effect' : State → State} (h : perform o checks effect s = .next t)
    (h' : perform o checks effect' s = .next u) (hrefl : ∀ v, P v v) (he : P (effect s) (effect' s)) : P t u := by
  rcases perform_cases o checks effect s with ⟨hf, e⟩ | ⟨hf, c, hc, e⟩ | ⟨hf, hc, e⟩ <;> cases h.symm.trans e
  · cases h'.symm.trans (perform_faulted _ _ _ _ hf)
    exact hrefl _
  · cases h'.symm.trans (perform_fail _ _ _ _ c hf hc)
    exact hrefl _
  · cases h'.symm.trans (perform_pass _ _ _ _ hf hc)
    exact he

/-- SETLEN writes no byte past LENGTH. -/
theorem exec_setlen_byteView {x : Nat} (hx : hwcurOff ≤ x) (h : exec .setlen s = .next t) :
    byteView x (drainMid t) = byteView x (drainMid s) := by
  refine exec_keeps (P := fun u => byteView x (drainMid u) = byteView x (drainMid s)) h rfl
    (fun _ _ _ => (pruView_byteView x).drainMid rfl rfl) fun _ => ?_
  rw [commandEffect, drainMid_of_mid_nil _ (congrArg State.mid (setlenEffect_frame s))]
  refine (pruView_byteView x).shmAccesses (access := fun _ t => t.setShm (t.shm.writeWord lengthOff t.a0)) 1
    (fun _ _ u => ?_) s
  exact congrArg (fun b => (u.cfg, u.mem, b)) (Memory.read_writeWord_outside _ _ _ _ (.inr hx))

/-- An access of a PUSH that does not write the byte at `x` does not show there. -/
theorem byteView_pushAccess_other {src slot qf k x : Nat} (u : State)
    (h : (pushAccess src slot qf k u).shm.read x = u.shm.read x) :
    byteView x (pushAccess src slot qf k u) = byteView x u := by
  rw [byteView, pushAccess_cfg, pushAccess_mem, h, byteView]

/-- PUSH leaves HWCUR to the PRU. -/
theorem exec_push_byteView {x : Nat} (hx : hwcurOff ≤ x) (hx' : x < dataOff) (h : exec .push s = .next t) :
    byteView x (drainMid t) = byteView x (drainMid s) := by
  refine exec_keeps (P := fun u => byteView x (drainMid u) = byteView x (drainMid s)) h rfl
    (fun _ _ _ => (pruView_byteView x).drainMid rfl rfl) fun _ => ?_
  rw [commandEffect, drainMid_of_mid_nil _ (congrArg State.mid (pushEffect_frame s))]
  exact (pruView_byteView x).shmAccesses (access := pushAccess s.x0 s.slotOff s.cfg.qf) _
    (fun k _ u => byteView_pushAccess_other u (pushAccess_read _ _ _ k x u (Nat.le_add_right _ _) hx hx')) s

/-- HWCUR is the PRU's alone (10_state.md R36). -/
theorem exec_hwcur {i : Instr} (h : exec i s = .next t) : (drainMid t).hwcur = (drainMid s).hwcur := by
  by_cases hi : i ∈ [.push, .setlen]
  · refine Memory.readWord_congr fun x hx hx' => congrArg (fun v => v.2.2) (?_ : byteView x _ = byteView x _)
    rcases List.mem_pair.1 hi with rfl | rfl
    · exact exec_push_byteView hx hx' h
    · exact exec_setlen_byteView hx h
  · exact hwcur_of_shmView (exec_shmView hi h)

/-! ### A PUSH that a reset abandons -/

/-- The effect of a PUSH that a reset abandons once its check passes. -/
def abandonedPush (s : State) : State := abandonedAccesses s.cfg.qf (pushAccess s.x0 s.slotOff s.cfg.qf) s

theorem CommandFrame.pushAccess (h : CommandFrame .push s t) (src slot qf k : Nat) :
    CommandFrame .push s (pushAccess src slot qf k t) := by
  unfold Machine.pushAccess
  split <;> exact h.setShm _

theorem abandonPush_frame (h : abandonPush s = .next u) : CommandFrame .push s u :=
  perform_keeps h (.refl _ s) (fun c => .latch _ s c _) fun _ =>
    abandonedAccesses_preserves _ (fun a _ hu => hu.pruStep a) (fun k _ _ hu => hu.pushAccess _ _ _ k) s
      ((CommandFrame.refl _ s).setMid [])

theorem abandonedPush_mid (s : State) : (abandonedPush s).mid = [] :=
  abandonedAccesses_preserves (P := fun u => u.mid = []) _ (fun a u hu => (pruStep_mid a u).trans hu)
    (fun k _ u hu => (pushAccess_mid _ _ _ k u).trans hu) s rfl

/-- A byte of SHM where no access of the abandoned PUSH has landed is as the PRU steps alone leave it. -/
theorem abandonPush_byteView_other {x : Nat} (h : abandonPush s = .next u)
    (hx : ∀ k < s.cfg.qf, .core k ∈ s.mid → x ≠ s.slotOff + k) :
    byteView x (drainMid u) = byteView x (drainMid s) := by
  refine perform_keeps (P := fun u => byteView x (drainMid u) = byteView x (drainMid s)) (effect := abandonedPush) h rfl
    (fun _ _ => (pruView_byteView x).drainMid rfl rfl) fun _ => ?_
  rw [drainMid_of_mid_nil _ (abandonedPush_mid s)]
  refine (pruView_byteView x).abandonedAccesses _ fun k hk hnamed v => byteView_pushAccess_other v ?_
  rw [pushAccess_of_lt _ _ _ hk]
  exact Memory.read_write_other _ _ _ _ (hx k hk hnamed)

/-- A byte of the slot whose access the schedule names is as the whole PUSH leaves it. -/
theorem abandonPush_byteView_slot {j : Nat} (h : exec .push s = .next t) (h' : abandonPush s = .next u)
    (hj : j < s.cfg.qf) (hnamed : .core j ∈ s.mid) :
    byteView (s.slotOff + j) (drainMid u) = byteView (s.slotOff + j) (drainMid t) := by
  refine perform_two_effects (P := fun u t => byteView _ (drainMid u) = byteView _ (drainMid t))
    (effect := abandonedPush) h' h (fun _ => rfl) ?_
  rw [drainMid_of_mid_nil _ (abandonedPush_mid s), drainMid_of_mid_nil _ (congrArg State.mid (pushEffect_frame s))]
  have hdata : hwcurOff ≤ s.slotOff + j := le_trans (by decide) (s.dataOff_le_slot j)
  refine (pruView_byteView _).abandonedAccesses_eq_shmAccesses (access := pushAccess s.x0 s.slotOff s.cfg.qf)
    (fun v w hvw => ?_) (fun k hne v => ?_) hj (Nat.lt_succ_of_lt hj) hnamed
  · obtain ⟨hcfg, hmem, -⟩ : v.cfg = w.cfg ∧ v.mem = w.mem ∧ _ := by simpa [byteView] using hvw
    simp [byteView, pushAccess_of_lt _ _ _ hj, hcfg, hmem]
  · exact byteView_pushAccess_other v (pushAccess_read_other _ _ _ k v hdata fun _ => by omega)

/-! ### A command that a reset abandons -/

/-- What a reset during the command of the word `w` from `s` leaves (R230): `t` is the state after the whole command and
`u` the one after the abandoned command, each before the PRU steps of the schedule that are left over. -/
structure Abandoned (w : Word) (memLanded : List Nat) (s t u : State) : Prop where
  cfg : u.cfg = s.cfg
  inputs : u.inputs = s.inputs
  mem : ∀ a, u.mem.read a = if a ∈ memLanded then t.mem.read a else s.mem.read a
  slot : w = encode .push → ∀ k < s.cfg.qf, .core k ∈ s.mid →
    (drainMid u).shm.read (s.slotOff + k) = (drainMid t).shm.read (s.slotOff + k)
  other : ∀ x, (w = encode .push → ∀ k < s.cfg.qf, .core k ∈ s.mid → x ≠ s.slotOff + k) →
    (drainMid u).shm.read x = (drainMid s).shm.read x
  hwcur : (drainMid t).hwcur = (drainMid s).hwcur
  pruSeen : w ≠ encode .push → (drainMid u).pruSeen = (drainMid s).pruSeen

namespace Abandoned

variable {w : Word} {memLanded : List Nat}

/-- Of a command that is no PUSH, a reset leaves to SHM what the PRU steps alone do to it. -/
theorem of_ne_push (hw : w ≠ encode .push) (hcfg : u.cfg = s.cfg) (hinputs : u.inputs = s.inputs)
    (hmem : ∀ a, u.mem.read a = if a ∈ memLanded then t.mem.read a else s.mem.read a)
    (hview : shmView (drainMid u) = shmView (drainMid s)) (hcur : (drainMid t).hwcur = (drainMid s).hwcur) :
    Abandoned w memLanded s t u := by
  obtain ⟨-, hshm, hseen⟩ := shmView_eq_iff.1 hview
  exact ⟨hcfg, hinputs, hmem, fun h => absurd h hw, fun x _ => by rw [hshm], hcur, fun _ => hseen⟩

theorem push (h : exec .push s = .next t) (h' : abandon .push memLanded s = .next u) :
    Abandoned (encode .push) memLanded s t u where
  cfg := (abandonPush_frame h').cfg
  inputs := (abandonPush_frame h').inputs
  mem a := by rw [(abandonPush_frame h').mem (by decide), (exec_frame h).mem (by decide), ite_self]
  slot _ _ hk hnamed := congrArg (fun v => v.2.2) (abandonPush_byteView_slot h h' hk hnamed)
  other _ hx := congrArg (fun v => v.2.2) (abandonPush_byteView_other h' (hx rfl))
  hwcur := exec_hwcur h
  pruSeen hne := absurd rfl hne

theorem setlen (h : exec .setlen s = .next t) (h' : abandon .setlen memLanded s = .next u) :
    Abandoned (encode .setlen) memLanded s t u := by
  have hperform : perform Instr.setlen.opcode noChecks drainMid s = .next u := h'
  obtain ⟨hcfg, hinputs, hmem, hview⟩ :=
    perform_keeps (P := fun u => u.cfg = s.cfg ∧ u.inputs = s.inputs ∧ u.mem = s.mem ∧
        shmView (drainMid u) = shmView (drainMid s)) hperform ⟨rfl, rfl, rfl, rfl⟩
      (fun _ _ => ⟨rfl, rfl, rfl, pruView_shmView.drainMid rfl rfl⟩)
      fun _ => ⟨drainMid_cfg s, drainMid_inputs s, drainMid_mem s, by rw [drainMid_of_mid_nil _ (drainMid_mid s)]⟩
  refine of_ne_push (by decide) hcfg hinputs (fun a => ?_) hview (exec_hwcur h)
  rw [hmem, (exec_frame h).mem (by decide), ite_self]

/-- A command that does not write SHM runs whole, and a reset mixes MEM. -/
theorem of_not_mem {i : Instr} (hi : i ∉ [.push, .setlen]) (h : exec i s = .next t)
    (h' : abandon i memLanded s = .next u) : Abandoned (encode i) memLanded s t u := by
  have hu : u = t.setMem (s.mem.mix t.mem memLanded) := by
    have hmix : abandon i memLanded s = mapNext (fun t => t.setMem (s.mem.mix t.mem memLanded)) (exec i s) := by
      cases i with
      | push | setlen => exact absurd (by decide) hi
      | _ => rfl
    rw [hmix, h, mapNext_next] at h'
    cases h'
    rfl
  have hw : encode i ≠ encode .push := by
    cases i with
    | push => exact absurd (by decide) hi
    | _ => decide
  subst hu
  exact of_ne_push hw (exec_frame h).cfg (exec_frame h).inputs (Memory.read_mix _ _ _)
    ((shmView_drainMid_setMem t _).trans (exec_shmView hi h)) (exec_hwcur h)

theorem command {i : Instr} (h : exec i s = .next t) (h' : abandon i memLanded s = .next u) :
    Abandoned (encode i) memLanded s t u := by
  by_cases hi : i ∈ [.push, .setlen]
  · rcases List.mem_pair.1 hi with rfl | rfl
    · exact push h h'
    · exact setlen h h'
  · exact of_not_mem hi h h'

/-- An illegal word does nothing but take its fault, which a reset clears. -/
theorem illegal (hw : w ≠ encode .push) (h : illegalCommand w s = .next t) : Abandoned w memLanded s t s := by
  obtain ⟨hmem, hcur⟩ :=
    perform_keeps (P := fun t => t.mem = s.mem ∧ (drainMid t).hwcur = (drainMid s).hwcur) h ⟨rfl, rfl⟩
      (fun _ _ => ⟨rfl, hwcur_of_shmView (pruView_shmView.drainMid rfl rfl)⟩)
      fun _ => ⟨rfl, rfl⟩
  exact of_ne_push hw rfl rfl (fun a => by rw [hmem, ite_self]) rfl hcur

/-- No data byte that lands lies in LENGTH or in HWCUR. -/
theorem readWord (h : Abandoned w memLanded s t u) {a : Nat} (ha : a + 4 ≤ dataOff) :
    (drainMid u).shm.readWord a = (drainMid s).shm.readWord a :=
  Memory.readWord_congr fun x _ hx => h.other x fun _ k _ _ =>
    (lt_of_lt_of_le hx (le_trans ha (s.dataOff_le_slot k))).ne

end Abandoned

theorem takeInput_cmdWrite_eq_next {w : Word} {mid : List MidStep} (h : takeInput (.hostWrite 0 4 w mid) s = .next t) :
    midRefusal s.cfg mid = none ∧ ∃ v, command w (s.setMid mid) = .next v ∧ t = drainMid v := by
  cases hmid : midRefusal s.cfg mid with
  | some r =>
    rw [takeInput, hostPortWrite, portRefusal_of_aligned (by decide) (by decide), hmid] at h
    cases h
  | none =>
    rw [takeInput_cmdWrite hmid] at h
    obtain ⟨v, hv, ht⟩ := mapNext_eq_next h
    exact ⟨rfl, v, hv, ht.symm⟩

/-- A reset during a CMD write leaves an `Abandoned` command, the left-over PRU steps, and the reset registers. -/
theorem takeInput_resetDuring {w : Word} {mid : List MidStep} (memLanded : List Nat)
    (hmid : midRefusal s.cfg mid = none) (h : command w (s.setMid mid) = .next t) :
    ∃ u, takeInput (.resetDuring w mid memLanded) s = .next (drainMid u).toReset ∧
      Abandoned w memLanded (s.setMid mid) t u := by
  cases hd : decode w with
  | ok i =>
    obtain rfl := (decode_eq_ok_iff w i).1 hd
    rw [command_of_decode hd] at h
    obtain ⟨u, hu⟩ := abandon_next i memLanded (s.setMid mid)
    refine ⟨u, ?_, .command h hu⟩
    rw [takeInput, abortCommand, hmid, hd]
    simp only [hu, drainOutcome_next, mapNext_next]
  | error e =>
    have hw : w ≠ encode .push := fun hp => by cases hd.symm.trans ((decode_eq_ok_iff w .push).2 hp)
    refine ⟨s.setMid mid, ?_, .illegal hw ?_⟩
    · rw [takeInput, abortCommand, hmid, hd]
    · rwa [command, hd] at h

/-- Settles O10: `Abandoned` compares what the reset leaves with the whole command and with the PRU steps alone. -/
theorem resetDuringCommand : Obligations.ResetDuringCommand := by
  intro s t w mid memLanded ht
  obtain ⟨hmid, v, hv, rfl⟩ := takeInput_cmdWrite_eq_next ht
  obtain ⟨u, hu, h⟩ := takeInput_resetDuring memLanded hmid hv
  refine ⟨_, hu, fun a => ?_, fun k hk hw hnamed => h.slot hw k hk hnamed, fun off _ hout => h.other off hout,
    (h.readWord (by decide)).trans (drainMid_lengthField _), (h.readWord (by decide)).trans h.hwcur.symm, h.pruSeen,
    rfl, rfl, rfl, rfl, rfl, rfl, State.toReset_faulted _, rfl, rfl, rfl,
    (drainMid_cfg u).trans h.cfg, drainMid_mid u, (drainMid_inputs u).trans h.inputs⟩
  rw [State.toReset_mem, drainMid_mem, drainMid_mem]
  exact h.mem a

end Sys2Proof.Machine
end
